-- ==== Sys2Proof/Word.lean ====
section
/-! DEFINITION. The value type `Sample` of one delay-RAM word, filter state or coefficient (00_scope.md R8), the words of
the two ports (30_encoding.md R60, R65, R67) and the index shapes of rule R7: two channels, four stages or taps, two LFOs,
ten coefficient registers, five snapshot registers. Every shape is plain data with a read and a write. -/

namespace Sys2Proof

/-- One value of the carrier `S` of `NUM` (00_scope.md R8), kept as the VALUE and not as a pattern of bits: no agent can see
how a word is laid out (20_memory.md R41). Under `NUM_EXACT` only `fin` occurs; another `NUM` uses what of these it has. Under `NUM_F32` the finite values are the
rationals that binary32 can hold, `fin 0` is +0, and all NaNs are the one `nan`: their sign and payload are "any value"
(93_implementation_defined.md U4), so the model does not name them (DESIGN CHOICE, unsafe for an equality read as one of NaN
patterns: notes/assumptions/3.md). -/
inductive Sample where
  | fin (q : Rat)
  | negZero
  | inf (neg : Bool)
  | nan
deriving DecidableEq, Repr, Inhabited

/-- The value 0 of `NUM` (00_scope.md R8). -/
def Sample.zero : Sample := .fin 0

/-- The value 1 of `NUM` (00_scope.md R8). -/
def Sample.one : Sample := .fin 1

/-- A command word of the control port (30_encoding.md R60). -/
abbrev CommandWord := BitVec 40

/-- A cycle descriptor of the audio port (30_encoding.md R65). -/
abbrev Descriptor := BitVec 3

/-- The read word `RD` of the control port (30_encoding.md R67). -/
abbrev ReadWord := BitVec 32

/-- An audio block: the samples of one channel (30_encoding.md R65). -/
abbrev Block := List Sample

/-- The channels of 00_scope.md R7: `L` = 0 and `R` = 1. -/
inductive Chan where
  | L
  | R
deriving DecidableEq, Repr, Inhabited

/-- One thing for each channel. -/
structure Stereo (α : Type) where
  l : α
  r : α
deriving DecidableEq, Repr, Inhabited

def Stereo.get {α : Type} (p : Stereo α) : Chan → α
  | .L => p.l
  | .R => p.r

def Stereo.set {α : Type} (p : Stereo α) (c : Chan) (x : α) : Stereo α :=
  match c with
  | .L => { p with l := x }
  | .R => { p with r := x }

/-- One thing for each of the two LFOs. -/
structure Duo (α : Type) where
  x0 : α
  x1 : α
deriving DecidableEq, Repr, Inhabited

def Duo.get {α : Type} (p : Duo α) : Fin 2 → α
  | 0 => p.x0
  | 1 => p.x1

def Duo.set {α : Type} (p : Duo α) (u : Fin 2) (x : α) : Duo α :=
  match u with
  | 0 => { p with x0 := x }
  | 1 => { p with x1 := x }

/-- One thing for each of the four stages, or the four taps. -/
structure Quad (α : Type) where
  x0 : α
  x1 : α
  x2 : α
  x3 : α
deriving DecidableEq, Repr, Inhabited

def Quad.get {α : Type} (p : Quad α) : Fin 4 → α
  | 0 => p.x0
  | 1 => p.x1
  | 2 => p.x2
  | 3 => p.x3

def Quad.set {α : Type} (p : Quad α) (s : Fin 4) (x : α) : Quad α :=
  match s with
  | 0 => { p with x0 := x }
  | 1 => { p with x1 := x }
  | 2 => { p with x2 := x }
  | 3 => { p with x3 := x }

/-- The same thing four times over. -/
def Quad.all {α : Type} (x : α) : Quad α := ⟨x, x, x, x⟩

/-- Whether a test holds of all four. -/
def Quad.every {α : Type} (p : Quad α) (f : α → Bool) : Bool := f p.x0 && f p.x1 && f p.x2 && f p.x3

/-- The ten coefficient registers of 10_state.md R16. -/
inductive Reg where
  | inattn
  | kin
  | klp
  | rvtime
  | rvscale
  | hidamp
  | lodamp
  | lpf
  | hpf
  | mlpf
deriving DecidableEq, Repr, Inhabited

/-- All ten, in the order of 10_state.md R16. -/
def Reg.list : List Reg := [.inattn, .kin, .klp, .rvtime, .rvscale, .hidamp, .lodamp, .lpf, .hpf, .mlpf]

/-- One thing for each coefficient register. -/
structure Regs (α : Type) where
  inattn : α
  kin : α
  klp : α
  rvtime : α
  rvscale : α
  hidamp : α
  lodamp : α
  lpf : α
  hpf : α
  mlpf : α
deriving DecidableEq, Repr, Inhabited

def Regs.get {α : Type} (c : Regs α) : Reg → α
  | .inattn => c.inattn
  | .kin => c.kin
  | .klp => c.klp
  | .rvtime => c.rvtime
  | .rvscale => c.rvscale
  | .hidamp => c.hidamp
  | .lodamp => c.lodamp
  | .lpf => c.lpf
  | .hpf => c.hpf
  | .mlpf => c.mlpf

def Regs.set {α : Type} (c : Regs α) (r : Reg) (x : α) : Regs α :=
  match r with
  | .inattn => { c with inattn := x }
  | .kin => { c with kin := x }
  | .klp => { c with klp := x }
  | .rvtime => { c with rvtime := x }
  | .rvscale => { c with rvscale := x }
  | .hidamp => { c with hidamp := x }
  | .lodamp => { c with lodamp := x }
  | .lpf => { c with lpf := x }
  | .hpf => { c with hpf := x }
  | .mlpf => { c with mlpf := x }

/-- The five registers the freeze snapshot saves (10_state.md R25). -/
inductive SnapReg where
  | rvtime
  | lodamp
  | hidamp
  | inattn
  | rvscale
deriving DecidableEq, Repr, Inhabited

/-- All five, in the order of 10_state.md R25. -/
def SnapReg.list : List SnapReg := [.rvtime, .lodamp, .hidamp, .inattn, .rvscale]

/-- The coefficient register a snapshot register saves. -/
def SnapReg.reg : SnapReg → Reg
  | .rvtime => .rvtime
  | .lodamp => .lodamp
  | .hidamp => .hidamp
  | .inattn => .inattn
  | .rvscale => .rvscale

/-- One thing for each snapshot register. -/
structure Snap (α : Type) where
  rvtime : α
  lodamp : α
  hidamp : α
  inattn : α
  rvscale : α
deriving DecidableEq, Repr, Inhabited

def Snap.get {α : Type} (p : Snap α) : SnapReg → α
  | .rvtime => p.rvtime
  | .lodamp => p.lodamp
  | .hidamp => p.hidamp
  | .inattn => p.inattn
  | .rvscale => p.rvscale

def Snap.set {α : Type} (p : Snap α) (r : SnapReg) (x : α) : Snap α :=
  match r with
  | .rvtime => { p with rvtime := x }
  | .lodamp => { p with lodamp := x }
  | .hidamp => { p with hidamp := x }
  | .inattn => { p with inattn := x }
  | .rvscale => { p with rvscale := x }

end Sys2Proof
end

