-- ==== Sys2Proof/Syntax.lean ====
section
/-! DEFINITION. The encoded operations of the hardware, one constructor for each row of spec/opcode_table.json
(30_encoding.md R63, R65, R71): the twenty commands of the control port and CYCLE of the audio port. Operands are held as
the formats of R61 read them: a boolean, a 32-bit pattern, a 32-bit unsigned number, three descriptor bits. -/

namespace Sys2Proof

inductive Instr where
  /-- `NOP`, format N (46_control.md R161) -/
  | nop
  /-- `RESET`, format N (R162) -/
  | reset
  /-- `LOCK`, format N (R163) -/
  | lock
  /-- `UNLOCK`, format N (R164) -/
  | unlock
  /-- `BYPASS b`, format B (R165) -/
  | bypass (b : Bool)
  /-- `FREEZE b`, format B (R166) -/
  | freeze (b : Bool)
  /-- `FRZTGL`, format N (R167) -/
  | frztgl
  /-- `RDSTAT`, format N (R168) -/
  | rdstat
  /-- `SET_INATTN v`, format V (R171) -/
  | setInattn (v : BitVec 32)
  /-- `SET_KIN v`, format V (R172) -/
  | setKin (v : BitVec 32)
  /-- `SET_KLP v`, format V (R173) -/
  | setKlp (v : BitVec 32)
  /-- `SET_RVTIME v`, format V (R174) -/
  | setRvtime (v : BitVec 32)
  /-- `SET_RVSCALE v`, format V (R175) -/
  | setRvscale (v : BitVec 32)
  /-- `SET_HIDAMP v`, format V (R176) -/
  | setHidamp (v : BitVec 32)
  /-- `SET_LODAMP v`, format V (R177) -/
  | setLodamp (v : BitVec 32)
  /-- `SET_LPF v`, format V (R178) -/
  | setLpf (v : BitVec 32)
  /-- `SET_HPF v`, format V (R179) -/
  | setHpf (v : BitVec 32)
  /-- `SET_MLPF v`, format V (R180) -/
  | setMlpf (v : BitVec 32)
  /-- `SET_LFO0INC u`, format U (R181) -/
  | setLfo0inc (u : BitVec 32)
  /-- `SET_LFO1INC u`, format U (R182) -/
  | setLfo1inc (u : BitVec 32)
  /-- `CYCLE`, descriptor `ok @ rp @ lp` (45_tank.md R147, 30_encoding.md R65); the sample blocks stand on the audio port -/
  | cycle (ok rp lp : Bool)
deriving DecidableEq, Repr, Inhabited

end Sys2Proof
end

