-- ==== Sys2Proof/Config.lean ====
section
/-! DEFINITION. The configuration record `CFG` of 00_scope.md R5: every parameter the spec names or implies and does not
fix. It is data, and `Machine.State` carries it unchanged, so that every statement ranges over all configurations
(DESIGN CHOICE, safe: notes/assumptions/1.md). What R4 settles (two channels, four stages, four taps, two LFOs, 32-bit phase) is the shape of the
types. When a configuration is well formed (R6) is `Config.wf` in Machine/Configuration.lean. -/

namespace Sys2Proof

/-- The numeric structure `NUM`, a parameter (00_scope.md R5, R8): the two named instantiations, and any other one. -/
inductive NumKind where
  /-- `NUM_F32`: IEEE 754 binary32 with round to nearest even and gradual underflow. The default. -/
  | f32
  /-- `NUM_EXACT`: exact rationals. -/
  | exact
  /-- Another numeric structure (93_implementation_defined.md U2, U5: a fixed-point format, a target that flushes), one for
  each number. Its carrier is `Config.otherHolds`, its rounding `Config.otherRound`. -/
  | other (id : Nat)
deriving DecidableEq, Repr, Inhabited

/-- Whether `NUM` is one of the two instantiations 00_scope.md R8 names. -/
def NumKind.named : NumKind → Bool
  | .f32 => true
  | .exact => true
  | .other _ => false

/-- The primitives of `NUM` that deliver a value of `S` (00_scope.md R8). -/
inductive Primitive where
  | fadd
  | fsub
  | fmul
  | ofF32Bits
  | ofFrac
  | ofConst
deriving DecidableEq, Repr, Inhabited

/-- What rounding an exact value can deliver: a sample that is a number. -/
inductive Number where
  | fin (q : Rat)
  | negZero
  | inf (neg : Bool)
deriving DecidableEq, Repr, Inhabited

/-- Which rationals besides 0, 1 and −1 the carrier of a numeric structure holds that is neither `NUM_F32` nor `NUM_EXACT`. A
free value: it has no body, and nothing is known of it (DESIGN CHOICE, safe: notes/assumptions/3.md). -/
opaque Config.otherHolds : (id : Nat) → Rat → Bool

/-- The rounding of a numeric structure that is neither `NUM_F32` nor `NUM_EXACT`: what each of its primitives delivers for
an exact value its carrier does not hold, and which zero it delivers for zero, with the sign a result of exactly zero would
take. 00_scope.md R8 says only that a result is "rounded once as `NUM` says". A free value: it has no body, and nothing is
known of it (DESIGN CHOICE, safe: notes/assumptions/3.md). -/
opaque Config.otherRound : (id : Nat) → Primitive → (neg : Bool) → Rat → Number

/-- The configuration record `CFG` (00_scope.md R5). Constants of type "NUM constant" are held as rationals and enter the
datapath through `of_const` (R8). -/
structure Config where
  /-- `NUM` -/
  num : NumKind
  /-- `BLOCK_LEN`: samples per audio block -/
  blockLen : Nat
  /-- `LEN_IN[c][s]` -/
  lenIn : Stereo (Quad Nat)
  /-- `LEN_LAP[s]` -/
  lenLap : Quad Nat
  /-- `LEN_LDL[s]` -/
  lenLdl : Quad Nat
  /-- `TAP_OFF[c][j]` -/
  tapOff : Stereo (Quad Int)
  /-- `TAP_W[c][j]` -/
  tapW : Stereo (Quad Rat)
  /-- `TAB_BITS` -/
  tabBits : Nat
  /-- `TAB[i]`: the waveform ROM (20_memory.md R40), never written -/
  tab : List Int
  /-- `TAB_W` -/
  tabW : Nat
  /-- `LFO_AMPL_BITS` -/
  lfoAmplBits : Nat
  /-- `MOD_FRAC_BITS` -/
  modFracBits : Nat
  /-- `K_LO` -/
  kLo : Rat
  /-- `K_HI` -/
  kHi : Rat
  /-- `RST[r]` of the ten coefficient registers -/
  rst : Regs Rat
  /-- `RST[LFOINC u]` -/
  rstLfoInc : Duo (BitVec 32)
  /-- `RST_BYPASS` -/
  rstBypass : Bool
deriving DecidableEq, Repr, Inhabited

/-- The parameters of 00_scope.md R5 that the table gives no default for ("none: OPEN"). -/
structure OpenParams where
  blockLen : Nat
  lenIn : Stereo (Quad Nat)
  lenLap : Quad Nat
  lenLdl : Quad Nat
  tapOff : Stereo (Quad Int)
  tapW : Stereo (Quad Rat)
  tab : List Int
  lfoAmplBits : Nat
deriving DecidableEq, Repr, Inhabited

/-- The default `RST[r]` of 10_state.md R30: `K_LO` for `KIN` and `KLP`, zero for the other eight. -/
def Config.defaultRst (kLo : Rat) : Regs Rat := ⟨0, kLo, kLo, 0, 0, 0, 0, 0, 0, 0⟩

/-- The configuration in which every parameter that has a default in 00_scope.md R5 or 10_state.md R30 takes it, and the
open ones are given. -/
def Config.ofDefaults (o : OpenParams) : Config where
  num := .f32
  blockLen := o.blockLen
  lenIn := o.lenIn
  lenLap := o.lenLap
  lenLdl := o.lenLdl
  tapOff := o.tapOff
  tapW := o.tapW
  tabBits := 8
  tab := o.tab
  tabW := 16
  lfoAmplBits := o.lfoAmplBits
  modFracBits := 8
  kLo := mkRat 5 1000
  kHi := mkRat 65 100
  rst := Config.defaultRst (mkRat 5 1000)
  rstLfoInc := ⟨0, 0⟩
  rstBypass := true

/-- The test configuration TC of 95_test_vectors.md section 0, with `NUM` at its default `NUM_F32`. It is the one complete
well-formed configuration the spec writes down; the reset state of the fixed interface is taken at it (DESIGN CHOICE,
unsafe: notes/assumptions/2.md). No statement about every state rests on it. -/
def Config.tc : Config where
  num := .f32
  blockLen := 4
  lenIn := ⟨⟨1, 2, 1, 2⟩, ⟨2, 1, 2, 1⟩⟩
  lenLap := ⟨1, 2, 1, 2⟩
  lenLdl := ⟨3, 4, 3, 4⟩
  tapOff := ⟨⟨0, 1, 2, 1⟩, ⟨1, 0, 1, 2⟩⟩
  tapW := ⟨⟨1, mkRat 1 2, mkRat 1 2, mkRat 1 4⟩, ⟨mkRat 1 2, 1, mkRat 1 4, mkRat 1 2⟩⟩
  tabBits := 2
  tab := [0, 16384, 0, -16384, 0]
  tabW := 16
  lfoAmplBits := 2
  modFracBits := 2
  kLo := mkRat 1 256
  kHi := mkRat 5 8
  rst := Config.defaultRst (mkRat 1 256)
  rstLfoInc := ⟨0, 0⟩
  rstBypass := true

/-- `MOD_SHIFT` (00_scope.md R5, 41_modulated_tap.md R90). -/
def Config.modShift (c : Config) : Nat := c.tabW - c.lfoAmplBits - c.modFracBits

end Sys2Proof
end

