-- ==== Sys2Proof/Machine/Num.lean ====
section
/-! DEFINITION. The numeric structure `NUM` (00_scope.md R8): `fadd`, `fsub`, `fmul`, `flt`, `of_f32bits`, `of_frac`,
`of_const`. A finite result is computed exactly over the rationals and then delivered once: kept as it is (`NUM_EXACT`),
rounded once to binary32, nearest even, with gradual underflow (`NUM_F32`), or rounded once as another `NUM` says, which is
a free value, save that what its carrier holds comes out as it is. What IEEE 754
says of binary32 is general knowledge the spec calls in by name (93_implementation_defined.md G1; PRESUMED,
unsafe: notes/assumptions/10.md). -/

namespace Sys2Proof

/-- 2 to the power of an integer. -/
def pow2 : Int → Rat
  | .ofNat n => ((2 ^ n : Nat) : Rat)
  | .negSucc n => mkRat 1 (2 ^ (n + 1))

/-- The natural number nearest to `n / d`, ties to the even one. -/
def roundHalfEven (n d : Nat) : Nat :=
  if 2 * (n % d) < d then n / d
  else if d < 2 * (n % d) then n / d + 1
  else if n / d % 2 = 0 then n / d
  else n / d + 1

/-- For `a > 0`: the integer `e` with `2^e ≤ a < 2^(e+1)`. -/
def floorLog2 (a : Rat) : Int :=
  let e : Int := (a.num.natAbs.log2 : Int) - (a.den.log2 : Int)
  if pow2 e ≤ a then e else e - 1

/-- For `a > 0`: the exponent of the unit in the last place of binary32 at `a`; -149 and below is the subnormal range. -/
def ulpExp (a : Rat) : Int := max (floorLog2 a - 23) (-149)

/-- For `a > 0`: `a` rounded to 24 significant bits (fewer in the subnormal range), nearest even, exponent unbounded
above. -/
def roundMag (a : Rat) : Rat :=
  match ulpExp a with
  | .ofNat n => ((roundHalfEven a.num.natAbs (a.den * 2 ^ n) * 2 ^ n : Nat) : Rat)
  | .negSucc n => mkRat (roundHalfEven (a.num.natAbs * 2 ^ (n + 1)) a.den : Nat) (2 ^ (n + 1))

/-- The zero of `NUM_F32` with the given sign. -/
def Sample.zeroOf (neg : Bool) : Sample := if neg then .negZero else .fin 0

/-- The binary32 value of a magnitude that is already rounded: past the largest finite value it is an infinity, at zero it
is the zero of that sign. -/
def Sample.ofMag (neg : Bool) (m : Rat) : Sample :=
  if m = 0 then .zeroOf neg
  else if pow2 128 ≤ m then .inf neg
  else .fin (if neg then -m else m)

/-- A rational rounded once to binary32 (00_scope.md R8, `NUM_F32`); `neg` is the sign a result of exactly zero takes. -/
def roundF32 (neg : Bool) (q : Rat) : Sample :=
  if q = 0 then .zeroOf neg
  else if q < 0 then .ofMag true (roundMag (-q))
  else .ofMag false (roundMag q)

/-- Whether the carrier of another `NUM` holds a rational: `ZERO`, `ONE` (00_scope.md R8) and −1, which is
`fsub(ZERO, ONE)` and the lower end of a legal range (10_state.md R16, 46_control.md R170, R177), in every one; of any other
rational it is free (notes/assumptions/3.md). -/
def otherCarrier (id : Nat) (q : Rat) : Bool :=
  decide (q = 0) || decide (q = 1) || decide (q = -1) || Config.otherHolds id q

/-- What the rounding of another `NUM` answers, as a sample. A NUM rounds into its own carrier, so the free rounding is read
as `ZERO` where it answers a rational the carrier does not hold, which no NUM does (notes/assumptions/3.md). -/
def Number.sample (id : Nat) : Number → Sample
  | .fin q => if otherCarrier id q then .fin q else .zero
  | .negZero => .negZero
  | .inf n => .inf n

/-- The zero another `NUM` delivers for an exact result of zero. Which zero an arithmetic result or an operand gives, where
there are two, is free (93_implementation_defined.md U6); the rationals 0 that `of_frac` and `of_const` take give `ZERO`. -/
def otherZero (id : Nat) (p : Primitive) (neg : Bool) : Sample :=
  match p with
  | .ofFrac => .zero
  | .ofConst => .zero
  | _ => .zeroOf (decide (Config.otherRound id p neg 0 = .negZero))

/-- An exact result delivered by another `NUM`: a value its carrier holds is delivered as it is, zero as a zero, and any
other is rounded once as `NUM` says (00_scope.md R8). That an exact value of the carrier comes out unrounded is read from
the rules that state it of every `NUM`: 40_allpass.md R81 (d), 41_modulated_tap.md R92 (the case `wi` = 0), 44_mixer.md R128
(the case `C[MLPF]` = 0), 46_control.md R177 (DEDUCED, unsafe for arithmetic that alters a value it holds:
notes/assumptions/3.md). -/
def otherDeliver (id : Nat) (p : Primitive) (neg : Bool) (q : Rat) : Sample :=
  if q = 0 then otherZero id p neg
  else if otherCarrier id q then .fin q
  else (Config.otherRound id p neg q).sample id

/-- A finite exact result delivered by `NUM`: rounded once, as `NUM` says (00_scope.md R8). -/
def NumKind.deliver (k : NumKind) (p : Primitive) (neg : Bool) (q : Rat) : Sample :=
  match k with
  | .exact => .fin q
  | .f32 => roundF32 neg q
  | .other id => otherDeliver id p neg q

namespace Sample

/-- The sign. -/
def isNeg : Sample → Bool
  | .fin q => decide (q < 0)
  | .negZero => true
  | .inf n => n
  | .nan => false

/-- The rational value of a finite sample (0 for the others). -/
def val : Sample → Rat
  | .fin q => q
  | _ => 0

def isFinite : Sample → Bool
  | .fin _ => true
  | .negZero => true
  | _ => false

/-- Equal to 0 by value: either zero. -/
def isZero : Sample → Bool
  | .fin q => decide (q = 0)
  | .negZero => true
  | _ => false

/-- The value with the other sign. -/
def neg : Sample → Sample
  | .fin q => if q = 0 then .negZero else .fin (-q)
  | .negZero => .fin 0
  | .inf n => .inf (!n)
  | .nan => .nan

end Sample

/-- The sum of `a` and `b`, delivered as primitive `p` delivers: IEEE 754 addition under `NUM_F32`, where a sum of exactly
zero is +0 unless both operands are negative zeros; exact under `NUM_EXACT`. -/
def sumAs (k : NumKind) (p : Primitive) (a b : Sample) : Sample :=
  match a, b with
  | .nan, _ => .nan
  | _, .nan => .nan
  | .inf m, .inf n => if m = n then .inf m else .nan
  | .inf m, _ => .inf m
  | _, .inf n => .inf n
  | a, b => k.deliver p (a.isNeg && b.isNeg) (a.val + b.val)

/-- `fadd(a,b)` (00_scope.md R8). -/
def fadd (k : NumKind) (a b : Sample) : Sample := sumAs k .fadd a b

/-- `fsub(a,b)` (00_scope.md R8): the sum of `a` and `b` with its sign changed. -/
def fsub (k : NumKind) (a b : Sample) : Sample := sumAs k .fsub a b.neg

/-- `fsub(ZERO, ONE)` (46_control.md R170), written as its value −1 (10_state.md R16, 46_control.md R177); `fsub_zero_one` in
Laws/Num.lean proves the two equal in every `NUM`. -/
def Sample.minusOne : Sample := .fin (-1)

/-- `fmul(a,b)` (00_scope.md R8): IEEE 754 multiplication under `NUM_F32`, exact under `NUM_EXACT`. -/
def fmul (k : NumKind) (a b : Sample) : Sample :=
  match a, b with
  | .nan, _ => .nan
  | _, .nan => .nan
  | .inf m, b => if b.isZero then .nan else .inf (m != b.isNeg)
  | a, .inf n => if a.isZero then .nan else .inf (a.isNeg != n)
  | a, b => k.deliver .fmul (a.isNeg != b.isNeg) (a.val * b.val)

/-- `flt(a,b)`: `a < b` by value, false when either is a NaN (00_scope.md R8). -/
def flt (a b : Sample) : Bool :=
  match a, b with
  | .nan, _ => false
  | _, .nan => false
  | .inf m, .inf n => m && !n
  | .inf m, _ => m
  | _, .inf n => !n
  | a, b => decide (a.val < b.val)

/-- `of_const(q)`: a configuration constant as a value of `NUM` (00_scope.md R8). -/
def ofConst (k : NumKind) (q : Rat) : Sample := k.deliver .ofConst (decide (q < 0)) q

/-- `of_frac(n, F)`: the value `n / 2^F`, exact in both named instantiations (00_scope.md R8). -/
def ofFrac (k : NumKind) (n f : Nat) : Sample :=
  match k with
  | .other _ => k.deliver .ofFrac false (mkRat n (2 ^ f))
  | _ => .fin (mkRat n (2 ^ f))

/-- The magnitude of a finite binary32 pattern from its biased exponent and its fraction (30_encoding.md R62). -/
def f32Mag (e f : Nat) : Rat :=
  if e = 0 then mkRat f (2 ^ 149)
  else if e < 150 then mkRat (2 ^ 23 + f : Nat) (2 ^ (150 - e))
  else (((2 ^ 23 + f) * 2 ^ (e - 150) : Nat) : Rat)

/-- `of_f32bits(w)` of a finite pattern (00_scope.md R8, 30_encoding.md R62): the value whose binary32 pattern is `w`; both
zero patterns give 0 under `NUM_EXACT` and keep their sign under `NUM_F32`; another `NUM` delivers the value as it says. -/
def ofF32Bits (k : NumKind) (w : BitVec 32) : Sample :=
  let s := w.getLsbD 31
  let m := f32Mag (w.extractLsb' 23 8).toNat (w.extractLsb' 0 23).toNat
  match k with
  | .other _ => k.deliver .ofF32Bits s (if s then -m else m)
  | _ => if m = 0 then k.deliver .ofF32Bits s 0 else .fin (if s then -m else m)

/-- The binary32 pattern of a sample (30_encoding.md R62): the inverse of `of_f32bits` on the values binary32 holds, the
pattern of a quiet NaN for a NaN. A script's decimal operand becomes its word through this (30_encoding.md R69). -/
def toF32Bits : Sample → BitVec 32
  | .nan => 0x7FC00000#32
  | .inf n => BitVec.ofBool n ++ 0xFF#8 ++ 0#23
  | .negZero => 0x80000000#32
  | .fin q =>
    if q = 0 then 0#32
    else
      let a : Rat := if q < 0 then -q else q
      let u := ulpExp a
      let m := (a / pow2 u).floor.toNat
      let e := if m < 2 ^ 23 then 0 else (u + 150).toNat
      BitVec.ofBool (decide (q < 0)) ++ BitVec.ofNat 8 e ++ BitVec.ofNat 23 m

/-- Whether a sample is a value of the carrier `S` of `NUM` (00_scope.md R8): any rational under `NUM_EXACT`; a rational
that binary32 holds, a zero of either sign, an infinity or a NaN under `NUM_F32`. Of another `NUM`, the rationals its free
carrier holds; it is not known whether it has a negative zero, infinities or NaNs, so each may occur
(notes/assumptions/3.md). -/
def Sample.inCarrier (k : NumKind) : Sample → Bool
  | .fin q =>
    match k with
    | .exact => true
    | .f32 => decide (roundF32 false q = .fin q)
    | .other id => otherCarrier id q
  | _ => decide (k ≠ .exact)

end Sys2Proof
end

