-- ==== Sys2Proof/Machine/Configuration.lean ====
section
/-! DEFINITION. The legal range of every coefficient register (10_state.md R16) and the well-formed configurations
(00_scope.md R6): every constraint of the table of R5, each check named. -/

namespace Sys2Proof

/-- The lower end of the legal range of a coefficient register (10_state.md R16, 46_control.md R170). For `LODAMP` it is
`fsub(ZERO, ONE)`, which is −1 (`Sample.minusOne`). -/
def Config.lo (c : Config) : Reg → Sample
  | .kin => ofConst c.num c.kLo
  | .klp => ofConst c.num c.kLo
  | .lodamp => .minusOne
  | _ => .zero

/-- The upper end of the legal range of a coefficient register (10_state.md R16, 46_control.md R170). -/
def Config.hi (c : Config) : Reg → Sample
  | .kin => ofConst c.num c.kHi
  | .klp => ofConst c.num c.kHi
  | .lodamp => .zero
  | _ => .one

/-- Whether a value is a number inside the legal range of a register (10_state.md R16, R26 (b)). -/
def Config.inRange (c : Config) (r : Reg) (x : Sample) : Bool :=
  decide (x ≠ .nan) && !flt x (c.lo r) && !flt (c.hi r) x

/-- The capacities and the block length are at least 1. -/
def Config.sizesOk (c : Config) : Bool :=
  decide (1 ≤ c.blockLen) && c.lenIn.l.every (decide <| 1 ≤ ·) && c.lenIn.r.every (decide <| 1 ≤ ·)
    && c.lenLap.every (decide <| 1 ≤ ·) && c.lenLdl.every (decide <| 1 ≤ ·)

/-- The tap weights are finite, as their values in `NUM`: a rational always is (DESIGN CHOICE, safe:
notes/assumptions/4.md). -/
def Config.weightsOk (c : Config) : Bool :=
  c.tapW.l.every (fun q => (ofConst c.num q).isFinite) && c.tapW.r.every (fun q => (ofConst c.num q).isFinite)

/-- The table: `1 ≤ TAB_BITS ≤ 31`, `2^TAB_BITS + 1` entries, each a signed `TAB_W`-bit integer, the last one the first
(00_scope.md R5, 43_lfo.md R115). -/
def Config.tableOk (c : Config) : Bool :=
  decide (1 ≤ c.tabBits) && decide (c.tabBits ≤ 31) && decide (2 ≤ c.tabW)
    && decide (c.tab.length = 2 ^ c.tabBits + 1)
    && c.tab.all (fun y => decide (-(2 ^ (c.tabW - 1) : Int) ≤ y) && decide (y < (2 ^ (c.tabW - 1) : Int)))
    && decide (c.tab.getD (2 ^ c.tabBits) 0 = c.tab.getD 0 0)

/-- The modulation format: `LFO_AMPL_BITS ≥ 1`, `LFO_AMPL_BITS + MOD_FRAC_BITS ≤ TAB_W`, `MOD_FRAC_BITS ≤ 24`. -/
def Config.modulationOk (c : Config) : Bool :=
  decide (1 ≤ c.lfoAmplBits) && decide (c.lfoAmplBits + c.modFracBits ≤ c.tabW) && decide (c.modFracBits ≤ 24)

/-- `0 < K_LO ≤ K_HI < 1`, of the constants and of their `NUM` values: `K_HI < 1` is what keeps every coefficient of an
allpass stage below 1 (10_state.md R16, 70_reset_and_hazards.md R220), and a constant close enough to 1 would round to 1
(DESIGN CHOICE, safe: notes/assumptions/4.md). -/
def Config.clampOk (c : Config) : Bool :=
  decide (0 < c.kLo) && decide (c.kLo ≤ c.kHi) && decide (c.kHi < 1)
    && flt .zero (ofConst c.num c.kLo) && !flt (ofConst c.num c.kHi) (ofConst c.num c.kLo)
    && flt (ofConst c.num c.kHi) .one

/-- No legal range is empty: the lower end is not above the upper one. It adds nothing to `clampOk`, and stands here because
it is what a clamp needs (46_control.md R170). -/
def Config.rangesOk (c : Config) : Bool := Reg.list.all (fun r => !flt (c.hi r) (c.lo r))

/-- Every `RST[r]` is inside the legal range of `r` (00_scope.md R5), asked of `of_const(RST[r])`, the value the register
takes at reset (10_state.md R30), and of that alone: `RST[INATTN] = 1 + 2^-30` is accepted under `NUM_F32`, where it is the
value 1, and refused under `NUM_EXACT`. R5 does not say whether the constant or its `NUM` value is meant (DESIGN CHOICE,
safe: notes/assumptions/4.md). -/
def Config.rstOk (c : Config) : Bool := Reg.list.all (fun r => c.inRange r (ofConst c.num (c.rst.get r)))

/-- A configuration is well formed when every constraint of 00_scope.md R5 holds (R6). -/
def Config.wf (c : Config) : Bool :=
  c.sizesOk && c.weightsOk && c.tableOk && c.modulationOk && c.clampOk && c.rangesOk && c.rstOk

/-- A block that can cross the audio port: exactly `BLOCK_LEN` samples, each a value of `S` (30_encoding.md R65, R66). -/
def Config.blockFits (c : Config) (b : Block) : Bool :=
  decide (b.length = c.blockLen) && b.all (fun x => x.inCarrier c.num)

/-- Whether the two blocks of an audio transaction are the blocks its descriptor says are present (30_encoding.md R65,
R66). -/
def Config.transactionOk (c : Config) (rp lp : Bool) (inL inR : Block) : Bool :=
  (!lp || c.blockFits inL) && (!rp || c.blockFits inR)

end Sys2Proof
end

