-- ==== Sys2Proof/WellFormed.lean ====
section
/-! DEFINITION. Which terms are well formed. The operand types of `Instr` admit exactly what the formats N, B, V, U and the
descriptor can carry (30_encoding.md R61, R62, R65: any pattern matches a V or U operand, all eight descriptors are legal),
so every instruction term is well formed. What can be ill formed is the configuration (`Config.wf`, 00_scope.md R6) and the
sample blocks of an audio transaction (`Config.transactionOk`, 30_encoding.md R66); both checks are in
Machine/Configuration.lean. -/

namespace Sys2Proof

/-- Whether an instruction is one the ports can carry: each one is. -/
def Instr.wf : Instr → Bool
  | .nop => true
  | .reset => true
  | .lock => true
  | .unlock => true
  | .bypass _ => true
  | .freeze _ => true
  | .frztgl => true
  | .rdstat => true
  | .setInattn _ => true
  | .setKin _ => true
  | .setKlp _ => true
  | .setRvtime _ => true
  | .setRvscale _ => true
  | .setHidamp _ => true
  | .setLodamp _ => true
  | .setLpf _ => true
  | .setHpf _ => true
  | .setMlpf _ => true
  | .setLfo0inc _ => true
  | .setLfo1inc _ => true
  | .cycle _ _ _ => true

end Sys2Proof
end

