-- ==== Sys2Proof/Decode.lean ====
section
/-! DEFINITION. The decoder of the two ports and, after it, the encoder, from the encoding tables of 30_encoding.md: the
40-bit command word (R60 to R64) and the 3-bit cycle descriptor (R65). Decoding depends on no state (R68). -/

namespace Sys2Proof

/-- Why a command word is reserved (30_encoding.md R64). -/
inductive DecodeError where
  /-- The opcode is not in the table of R63. -/
  | reservedOpcode (op : BitVec 8)
  /-- A format-N opcode with a nonzero operand. -/
  | operandNotZero
  /-- A format-B opcode with a nonzero `opd[31:1]`. -/
  | operandNotBoolean
deriving DecidableEq, Repr, Inhabited

/-- What crosses a port to name an operation: a command word or a cycle descriptor. -/
inductive PortWord where
  | command (cw : CommandWord)
  | descriptor (cd : Descriptor)
deriving DecidableEq, Repr, Inhabited

/-- The opcode field `op`, bits 39:32 (R60). -/
def opOf (cw : CommandWord) : BitVec 8 := cw.extractLsb' 32 8

/-- The operand field `opd`, bits 31:0 (R60). -/
def opdOf (cw : CommandWord) : BitVec 32 := cw.extractLsb' 0 32

/-- Format N (R61): `opd` must be zero. -/
def formatN (opd : BitVec 32) (i : Instr) : Except DecodeError Instr :=
  if opd = 0#32 then .ok i else .error .operandNotZero

/-- Format B (R61): `opd[31:1]` must be zero, `b = opd[0]`. -/
def formatB (opd : BitVec 32) (f : Bool → Instr) : Except DecodeError Instr :=
  if opd.extractLsb' 1 31 = 0#31 then .ok (f (opd.getLsbD 0)) else .error .operandNotBoolean

/-- The decoder of the control port (R61 to R64). -/
def decodeCommand (cw : CommandWord) : Except DecodeError Instr :=
  let opd := opdOf cw
  match (opOf cw).toNat with
  | 0x00 => formatN opd .nop
  | 0x01 => formatN opd .reset
  | 0x02 => formatN opd .lock
  | 0x03 => formatN opd .unlock
  | 0x04 => formatB opd .bypass
  | 0x05 => formatB opd .freeze
  | 0x06 => formatN opd .frztgl
  | 0x07 => formatN opd .rdstat
  | 0x10 => .ok (.setInattn opd)
  | 0x11 => .ok (.setKin opd)
  | 0x12 => .ok (.setKlp opd)
  | 0x13 => .ok (.setRvtime opd)
  | 0x14 => .ok (.setRvscale opd)
  | 0x15 => .ok (.setHidamp opd)
  | 0x16 => .ok (.setLodamp opd)
  | 0x17 => .ok (.setLpf opd)
  | 0x18 => .ok (.setHpf opd)
  | 0x19 => .ok (.setMlpf opd)
  | 0x20 => .ok (.setLfo0inc opd)
  | 0x21 => .ok (.setLfo1inc opd)
  | _ => .error (.reservedOpcode (opOf cw))

/-- The decoder of the audio port (R65): bit 2 `ok`, bit 1 `rp`, bit 0 `lp`; there is no reserved descriptor. -/
def decodeDescriptor (cd : Descriptor) : Instr := .cycle (cd.getLsbD 2) (cd.getLsbD 1) (cd.getLsbD 0)

/-- The decoder of both ports. -/
def decode : PortWord → Except DecodeError Instr
  | .command cw => decodeCommand cw
  | .descriptor cd => .ok (decodeDescriptor cd)

/-- A command word from its two fields (R60). -/
def commandWord (op : BitVec 8) (opd : BitVec 32) : CommandWord := op ++ opd

/-- The operand word of format B (R61). -/
def boolOperand (b : Bool) : BitVec 32 := (BitVec.ofBool b).setWidth 32

/-- A descriptor from its three bits (R65). -/
def descriptor (ok rp lp : Bool) : Descriptor := BitVec.ofBool ok ++ BitVec.ofBool rp ++ BitVec.ofBool lp

/-- The encoder: the port word of an instruction (R63, R65). -/
def encode : Instr → PortWord
  | .nop => .command (commandWord 0x00#8 0#32)
  | .reset => .command (commandWord 0x01#8 0#32)
  | .lock => .command (commandWord 0x02#8 0#32)
  | .unlock => .command (commandWord 0x03#8 0#32)
  | .bypass b => .command (commandWord 0x04#8 (boolOperand b))
  | .freeze b => .command (commandWord 0x05#8 (boolOperand b))
  | .frztgl => .command (commandWord 0x06#8 0#32)
  | .rdstat => .command (commandWord 0x07#8 0#32)
  | .setInattn v => .command (commandWord 0x10#8 v)
  | .setKin v => .command (commandWord 0x11#8 v)
  | .setKlp v => .command (commandWord 0x12#8 v)
  | .setRvtime v => .command (commandWord 0x13#8 v)
  | .setRvscale v => .command (commandWord 0x14#8 v)
  | .setHidamp v => .command (commandWord 0x15#8 v)
  | .setLodamp v => .command (commandWord 0x16#8 v)
  | .setLpf v => .command (commandWord 0x17#8 v)
  | .setHpf v => .command (commandWord 0x18#8 v)
  | .setMlpf v => .command (commandWord 0x19#8 v)
  | .setLfo0inc u => .command (commandWord 0x20#8 u)
  | .setLfo1inc u => .command (commandWord 0x21#8 u)
  | .cycle ok rp lp => .descriptor (descriptor ok rp lp)

/-- One row of the opcode map (R61, R63): a word matches it when `CW & mask = match`. -/
structure OpcodeRow where
  pattern : CommandWord
  mask : CommandWord
deriving DecidableEq, Repr, Inhabited

/-- The opcode map (R63) as match and mask, in the table's order. -/
def opcodeRows : List OpcodeRow :=
  [⟨0x0000000000, 0xFFFFFFFFFF⟩, ⟨0x0100000000, 0xFFFFFFFFFF⟩, ⟨0x0200000000, 0xFFFFFFFFFF⟩, ⟨0x0300000000, 0xFFFFFFFFFF⟩,
   ⟨0x0400000000, 0xFFFFFFFFFE⟩, ⟨0x0500000000, 0xFFFFFFFFFE⟩, ⟨0x0600000000, 0xFFFFFFFFFF⟩, ⟨0x0700000000, 0xFFFFFFFFFF⟩,
   ⟨0x1000000000, 0xFF00000000⟩, ⟨0x1100000000, 0xFF00000000⟩, ⟨0x1200000000, 0xFF00000000⟩, ⟨0x1300000000, 0xFF00000000⟩,
   ⟨0x1400000000, 0xFF00000000⟩, ⟨0x1500000000, 0xFF00000000⟩, ⟨0x1600000000, 0xFF00000000⟩, ⟨0x1700000000, 0xFF00000000⟩,
   ⟨0x1800000000, 0xFF00000000⟩, ⟨0x1900000000, 0xFF00000000⟩, ⟨0x2000000000, 0xFF00000000⟩, ⟨0x2100000000, 0xFF00000000⟩]

/-- Whether a word matches a row (R61). -/
def OpcodeRow.matched (r : OpcodeRow) (cw : CommandWord) : Bool := decide (cw &&& r.mask = r.pattern)

/-- The instruction the decoder reads from a row's bits, numbered as spec/opcode_table.json numbers them. A row of 40 bits
is a command word of the control port. The CYCLE row has three bits, one byte here, and is a descriptor of the audio port;
a byte with a bit above those three set is no descriptor. No byte order enters: a port carries its word as one number
(20_memory.md R41). -/
def decodeTableWord (nbits w : Nat) : Option Instr :=
  if nbits ≤ 8 then
    if w < 8 then some (decodeDescriptor (BitVec.ofNat 3 w)) else none
  else if w < 2 ^ 40 then
    match decodeCommand (BitVec.ofNat 40 w) with
    | .ok i => some i
    | .error _ => none
  else none

end Sys2Proof
end

