-- ==== Sys2Proof/Machine/State.lean ====
section
/-! DEFINITION. The state of the machine as plain data: every element of the record of 10_state.md R10, the configuration
it runs under (R27; DESIGN CHOICE, safe: notes/assumptions/1.md), and the host's side of the two ports, which are the model's own fields
(DESIGN CHOICE, unsafe: notes/assumptions/5.md). The stops of the machine. The reset state (R30). -/

namespace Sys2Proof.Machine

/-- The contents of one delay RAM (20_memory.md R40): (word index, word) pairs in one canonical form, indices strictly
rising, no entry `ZERO`, which is what an unlisted index reads as (10_state.md R30; notes/assumptions/9.md). -/
abbrev Memory := List (Nat × Sample)

/-- A delay RAM with its one cursor, used for both reading and writing (10_state.md R12). -/
structure DelayLine where
  mem : Memory
  idx : Nat
deriving DecidableEq, Repr, Inhabited

/-- A transaction the host offers at a port of the hardware. -/
inductive Request where
  /-- One command word on the control port (30_encoding.md R60). -/
  | command (cw : CommandWord)
  /-- One audio trigger (60_exceptions.md R193): the descriptor, and the two input blocks, read only where the descriptor
  says they are present (30_encoding.md R65, R66). -/
  | cycle (cd : Descriptor) (inL inR : Block)
  /-- The reset input of the hardware (70_reset_and_hazards.md R210). -/
  | resetInput
deriving DecidableEq, Repr, Inhabited

/-- What the hardware hands back to the host, one for each RDSTAT and one for each cycle it has run. -/
inductive Reply where
  /-- The read word of RDSTAT (30_encoding.md R67). -/
  | read (rd : ReadWord)
  /-- The output of a cycle: nothing, or the two output blocks (45_tank.md R146). -/
  | audio (out : Option (Stereo Block))
deriving DecidableEq, Repr, Inhabited

/-- The machine. Field names are those of 10_state.md R10 in Lean spelling. -/
structure State where
  /-- `CFG` (00_scope.md R5, 10_state.md R27): fixed for the life of the hardware, no step changes it -/
  cfg : Config
  /-- `INAP[c][s]` with `INAP_IDX[c][s]` (R13) -/
  inap : Stereo (Quad DelayLine)
  /-- `LAP[s]` with `LAP_IDX[s]` (R14) -/
  lap : Quad DelayLine
  /-- `LDL[s]` with `LDL_IDX[s]` (R15) -/
  ldl : Quad DelayLine
  /-- `LPF_ST[s]` (R18) -/
  lpfSt : Quad Sample
  /-- `HPF_ST[s]` (R18) -/
  hpfSt : Quad Sample
  /-- `LOOP_OUT` (R19) -/
  loopOut : Sample
  /-- `MLP[c]` (R20) -/
  mlp : Stereo Sample
  /-- `LFO_ACC[u]` (R21) -/
  lfoAcc : Duo (BitVec 32)
  /-- `C[r]` (R16) -/
  coeff : Regs Sample
  /-- `LFOINC[u]` (R17) -/
  lfoInc : Duo (BitVec 32)
  /-- `SNAP[r]` (R25) -/
  snap : Snap Sample
  /-- `BYPASS` (R22) -/
  bypass : Bool
  /-- `FREEZE` (R22) -/
  freeze : Bool
  /-- `HOLD` (R24) -/
  hold : Bool
  /-- `CLEANUP_DONE` (R23) -/
  cleanupDone : Bool
  /-- The host's side: the requests it will still offer, in the order it offers them (20_memory.md R51) -/
  inbox : List Request
  /-- The audio port: the input blocks of the cycle request being served (30_encoding.md R65), empty between cycles -/
  audioIn : Stereo Block
  /-- The host's side: everything the hardware has handed back, oldest first (45_tank.md R150) -/
  replies : List Reply
deriving DecidableEq, Repr, Inhabited

/-- How the machine can stop with a fault. The hardware itself raises none (60_exceptions.md R190). -/
inductive Fault where
  /-- Raised by a processing cycle when some cursor is not below the capacity of its RAM: the datapath would use a word
  index outside its memory (20_memory.md R42, 60_exceptions.md X9). No state reached from reset is one of these. Safe: the
  spec gives no effect there (notes/assumptions/7.md). -/
  | cursorOutOfRange
deriving DecidableEq, Repr, Inhabited

/-- Why the machine can decline a step. -/
inductive Refusal where
  /-- Raised by `exec` for an instruction that has no meaning yet; no arm raises it now. Safe. -/
  | notModelled (mnemonic : String)
  /-- Raised by `step` when the configuration is not well formed: there is no machine for it (00_scope.md R6;
  notes/assumptions/8.md). Safe. -/
  | illFormedConfig
  /-- Raised by a processing cycle whose port holds, for a channel the descriptor says is present, a block that is not
  `BLOCK_LEN` values of `S`: such a transaction cannot be expressed (30_encoding.md R66; notes/assumptions/6.md). Safe. -/
  | malformedBlock
deriving DecidableEq, Repr, Inhabited

/-- A cleared RAM with its cursor at 0 (10_state.md R30). -/
def DelayLine.reset : DelayLine := ⟨[], 0⟩

/-- Every element of 10_state.md R10 at its reset value of R30, under a given configuration, with nothing offered at the
ports and nothing handed back. -/
def State.resetOf (c : Config) : State where
  cfg := c
  inap := ⟨.all .reset, .all .reset⟩
  lap := .all .reset
  ldl := .all .reset
  lpfSt := .all .zero
  hpfSt := .all .zero
  loopOut := .zero
  mlp := ⟨.zero, .zero⟩
  lfoAcc := ⟨0, 0⟩
  coeff := ⟨ofConst c.num c.rst.inattn, ofConst c.num c.rst.kin, ofConst c.num c.rst.klp, ofConst c.num c.rst.rvtime,
    ofConst c.num c.rst.rvscale, ofConst c.num c.rst.hidamp, ofConst c.num c.rst.lodamp, ofConst c.num c.rst.lpf,
    ofConst c.num c.rst.hpf, ofConst c.num c.rst.mlpf⟩
  lfoInc := c.rstLfoInc
  snap := ⟨.zero, .zero, .zero, .zero, .zero⟩
  bypass := c.rstBypass
  freeze := false
  hold := false
  cleanupDone := true
  inbox := []
  audioIn := ⟨[], []⟩
  replies := []

/-- The machine right after reset (10_state.md R30, R31), under the configuration TC (DESIGN CHOICE, unsafe:
notes/assumptions/2.md). -/
def State.reset : State := State.resetOf Config.tc

end Sys2Proof.Machine
end

