-- ==== Sys2Proof/Machine/Flags.lean ====
section
/-! DEFINITION. The flags of 10_state.md R22 to R24 as the host sees them: the status word (R28) and the mode (R31). The
hardware has no arithmetic condition flags. -/

namespace Sys2Proof.Machine

/-- The status word `STATUS` (10_state.md R28): bit 0 `BYP`, bit 1 `FRZ`, bit 2 `HLD`, bit 3 `CLN`, bits 31:4 zero. -/
def statusWord (s : State) : ReadWord :=
  (BitVec.ofBool s.cleanupDone ++ BitVec.ofBool s.hold ++ BitVec.ofBool s.freeze ++ BitVec.ofBool s.bypass).setWidth 32

/-- The operating modes (10_state.md R31). -/
inductive Mode where
  | bypassed
  | active
  | frozen
deriving DecidableEq, Repr, Inhabited

/-- The mode as a function of the two flags (10_state.md R31); with both flags set, which no reachable state has, none. -/
def State.mode (s : State) : Option Mode :=
  match s.bypass, s.freeze with
  | true, false => some .bypassed
  | false, false => some .active
  | false, true => some .frozen
  | true, true => none

end Sys2Proof.Machine
end

