-- ==== Sys2Proof/Machine/Operands.lean ====
section
/-! DEFINITION. The operand of a command (30_encoding.md R61, R62) and the value a coefficient write makes of it
(46_control.md R170). Formats N, B and U are read by the decoder; format V is classified here. -/

namespace Sys2Proof.Machine

/-- What a format-V operand is, from its binary32 fields (30_encoding.md R62). -/
inductive OperandClass where
  | isNaN
  | posInf
  | negInf
  | finite
deriving DecidableEq, Repr, Inhabited

/-- The class of a format-V operand (30_encoding.md R62). -/
def classify (v : BitVec 32) : OperandClass :=
  if v.extractLsb' 23 8 = 0xFF#8 then
    if v.extractLsb' 0 23 = 0#23 then (if v.getLsbD 31 then .negInf else .posInf) else .isNaN
  else .finite

/-- The two clamping lines of `SET` (46_control.md R170). -/
def clamp (lo hi c : Sample) : Sample :=
  let c := if flt c lo then lo else c
  if flt hi c then hi else c

/-- What a format-V operand writes to register `r`: nothing for a NaN, else a value of the legal range
(46_control.md R170). -/
def operandValue (cfg : Config) (r : Reg) (v : BitVec 32) : Option Sample :=
  match classify v with
  | .isNaN => none
  | .posInf => some (cfg.hi r)
  | .negInf => some (cfg.lo r)
  | .finite => some (clamp (cfg.lo r) (cfg.hi r) (ofF32Bits cfg.num v))

/-- The snapshot register a coefficient write is routed to while `Frozen`, for the five that have one
(46_control.md R170). -/
def snapOf : Reg → Option SnapReg
  | .rvtime => some .rvtime
  | .lodamp => some .lodamp
  | .hidamp => some .hidamp
  | .inattn => some .inattn
  | .rvscale => some .rvscale
  | _ => none

end Sys2Proof.Machine
end

