-- ==== Sys2Proof/Machine/Ops.lean ====
section
/-! DEFINITION. The named operations over memories, registers and ports that the meanings share: reading and writing a word
of a delay RAM (00_scope.md R7 `MemRead`, `MemWrite`), the read-write-advance of a cursor, entering and leaving freeze
(46_control.md R169), a coefficient write (R170), reset (70_reset_and_hazards.md R210), answering the host, and which request
is served next (20_memory.md R51, R53). The hardware raises no exception (60_exceptions.md R190, R196, R197), so there is no
exception entry and no return from one. -/

namespace Sys2Proof.Machine

/-- What an unlisted word of a delay RAM reads as: `ZERO`, the contents at reset (10_state.md R30). -/
def Memory.unlisted : Sample := .zero

/-- `MemRead(M, i)` (00_scope.md R7). -/
def Memory.read : Memory → Nat → Sample
  | [], _ => Memory.unlisted
  | (j, v) :: m, i => if i = j then v else Memory.read m i

/-- `MemWrite(M, i, v)` (00_scope.md R7), keeping the canonical form: a word that becomes `ZERO` is no longer listed. -/
def Memory.write : Memory → Nat → Sample → Memory
  | [], i, v => if v = Memory.unlisted then [] else [(i, v)]
  | (j, w) :: m, i, v =>
    if i < j then (if v = Memory.unlisted then (j, w) :: m else (i, v) :: (j, w) :: m)
    else if i = j then (if v = Memory.unlisted then m else (i, v) :: m)
    else (j, w) :: Memory.write m i v

/-- Every listed index of a memory is above a bound. -/
def Memory.above (b : Nat) (m : Memory) : Bool := m.all (fun e => decide (b < e.1))

/-- The canonical form: indices strictly rising, no entry equal to what an unlisted index reads as. -/
def Memory.wf : Memory → Bool
  | [] => true
  | (j, v) :: m => decide (v ≠ Memory.unlisted) && Memory.above j m && Memory.wf m

/-- Every listed index is below the capacity (20_memory.md R42). -/
def Memory.below (len : Nat) (m : Memory) : Bool := m.all (fun e => decide (e.1 < len))

namespace DelayLine

/-- The word at the cursor. -/
def current (d : DelayLine) : Sample := Memory.read d.mem d.idx

/-- Write at the cursor, then advance it modulo the capacity (10_state.md R12, 20_memory.md R43). -/
def store (len : Nat) (d : DelayLine) (x : Sample) : DelayLine :=
  ⟨Memory.write d.mem d.idx x, (d.idx + 1) % len⟩

/-- Every word `ZERO`, the cursor kept (45_tank.md R143). -/
def clear (d : DelayLine) : DelayLine := { d with mem := [] }

/-- Whether the cursor is below the capacity (10_state.md R12). -/
def cursorOk (len : Nat) (d : DelayLine) : Bool := decide (d.idx < len)

/-- Whether the RAM is in canonical form with every listed index below the capacity. -/
def memOk (len : Nat) (d : DelayLine) : Bool := Memory.wf d.mem && Memory.below len d.mem

end DelayLine

/-- The sixteen delay RAMs (20_memory.md R40), each its own address space. -/
inductive Ram where
  | inap (c : Chan) (i : Fin 4)
  | lap (i : Fin 4)
  | ldl (i : Fin 4)
deriving DecidableEq, Repr, Inhabited

/-- All sixteen. -/
def Ram.list : List Ram :=
  [.inap .L 0, .inap .L 1, .inap .L 2, .inap .L 3, .inap .R 0, .inap .R 1, .inap .R 2, .inap .R 3,
   .lap 0, .lap 1, .lap 2, .lap 3, .ldl 0, .ldl 1, .ldl 2, .ldl 3]

/-- The capacity of a delay RAM in words (20_memory.md R40). -/
def ramCap (c : Config) : Ram → Nat
  | .inap ch i => (c.lenIn.get ch).get i
  | .lap i => c.lenLap.get i
  | .ldl i => c.lenLdl.get i

/-- A delay RAM of the machine with its cursor. -/
def State.line (s : State) : Ram → DelayLine
  | .inap ch i => (s.inap.get ch).get i
  | .lap i => s.lap.get i
  | .ldl i => s.ldl.get i

/-- The cursor of a delay RAM (10_state.md R12). -/
def State.cursor (s : State) (m : Ram) : Nat := (s.line m).idx

/-- One word of a delay RAM. -/
def State.word (s : State) (m : Ram) (i : Nat) : Sample := Memory.read (s.line m).mem i

/-- Whether a test that takes a capacity holds of each of the sixteen delay RAMs with its own capacity. -/
def State.everyLine (s : State) (f : Nat → DelayLine → Bool) : Bool :=
  Ram.list.all fun m => f (ramCap s.cfg m) (s.line m)

/-- Whether every cursor is below the capacity of its RAM (10_state.md R26 (a)). -/
def State.cursorsOk (s : State) : Bool := s.everyLine DelayLine.cursorOk

/-- The register writes of `FREEZE_ENTER` (46_control.md R169): the value each substituted register takes. -/
def frozenValue : SnapReg → Sample
  | .rvtime => .one
  | .lodamp => .zero
  | .hidamp => .one
  | .inattn => .zero
  | .rvscale => .one

/-- `FREEZE_ENTER` (46_control.md R169). -/
def freezeEnter (s : State) : State :=
  { s with
    snap := ⟨s.coeff.rvtime, s.coeff.lodamp, s.coeff.hidamp, s.coeff.inattn, s.coeff.rvscale⟩
    coeff := { s.coeff with
      rvtime := frozenValue .rvtime, inattn := frozenValue .inattn, lodamp := frozenValue .lodamp
      hidamp := frozenValue .hidamp, rvscale := frozenValue .rvscale }
    freeze := true }

/-- `FREEZE_EXIT` (46_control.md R169). -/
def freezeExit (s : State) : State :=
  { s with
    coeff := { s.coeff with
      rvtime := s.snap.rvtime, lodamp := s.snap.lodamp, hidamp := s.snap.hidamp, inattn := s.snap.inattn
      rvscale := s.snap.rvscale }
    freeze := false }

/-- `FREEZE b` (46_control.md R166): the body FREEZE and FRZTGL share. -/
def freezeTo (b : Bool) (s : State) : State :=
  if b && !s.freeze && !s.bypass then freezeEnter s
  else if !b && s.freeze then freezeExit s
  else s

/-- Where a coefficient write lands (46_control.md R170): the snapshot for the five substituted registers while `FREEZE`
= 1, the register otherwise. -/
def writeCoeff (r : Reg) (c : Sample) (s : State) : State :=
  match s.freeze, snapOf r with
  | true, some q => { s with snap := s.snap.set q c }
  | _, _ => { s with coeff := s.coeff.set r c }

/-- `SET(r, opd)` (46_control.md R170). -/
def setCoeff (r : Reg) (v : BitVec 32) (s : State) : State :=
  match operandValue s.cfg r v with
  | none => s
  | some c => writeCoeff r c s

/-- Reset (70_reset_and_hazards.md R210): every element of 10_state.md R10 to its reset value of R30. The configuration and
the host's side of the ports are not elements of R10 and stay (DESIGN CHOICE, unsafe: notes/assumptions/16.md). -/
def resetAll (s : State) : State :=
  { State.resetOf s.cfg with inbox := s.inbox, audioIn := s.audioIn, replies := s.replies }

/-- The hardware hands something back to the host. -/
def State.reply (s : State) (r : Reply) : State := { s with replies := s.replies ++ [r] }

/-- A cycle ends: the hardware keeps no reference to a block (10_state.md R27, 45_tank.md R146) and hands back its output,
two blocks or nothing. -/
def State.endCycle (s : State) (out : Option (Stereo Block)) : State :=
  { s with audioIn := ⟨[], []⟩, replies := s.replies ++ [.audio out] }

/-- Whether a request can be served: a cycle only while `HOLD` = 0 (20_memory.md R53), a command and the reset input always
(46_control.md R160, 70_reset_and_hazards.md R210). -/
def Request.enabled (hold : Bool) : Request → Bool
  | .cycle _ _ _ => !hold
  | _ => true

/-- The first request that can be served, and the requests that remain in their order. A cycle that waits for `HOLD` = 0
stays on the host's side, and requests behind it that can be served pass it (20_memory.md R51, R53). -/
def nextRequest (hold : Bool) : List Request → Option (Request × List Request)
  | [] => none
  | q :: qs =>
    if q.enabled hold then some (q, qs)
    else
      match nextRequest hold qs with
      | none => none
      | some (p, rest) => some (p, q :: rest)

end Sys2Proof.Machine
end

