-- ==== Sys2Proof/Machine/Coefficients.lean ====
section
/-! DEFINITION. The register writes of the control port (46_control.md section 3): the ten format-V commands, each one line
over `setCoeff` (R170), and the two format-U commands that write an LFO increment (R181, R182). -/

namespace Sys2Proof.Machine

/-- `SET_INATTN v` (R171): range [0, 1], routed to the snapshot while `Frozen`. -/
def execSetInattn (v : BitVec 32) (s : State) : Host.Outcome State Fault Refusal := .next (setCoeff .inattn v s)

/-- `SET_KIN v` (R172): range [`K_LO`, `K_HI`], never routed. -/
def execSetKin (v : BitVec 32) (s : State) : Host.Outcome State Fault Refusal := .next (setCoeff .kin v s)

/-- `SET_KLP v` (R173): range [`K_LO`, `K_HI`], never routed. -/
def execSetKlp (v : BitVec 32) (s : State) : Host.Outcome State Fault Refusal := .next (setCoeff .klp v s)

/-- `SET_RVTIME v` (R174): range [0, 1], routed to the snapshot while `Frozen`. -/
def execSetRvtime (v : BitVec 32) (s : State) : Host.Outcome State Fault Refusal := .next (setCoeff .rvtime v s)

/-- `SET_RVSCALE v` (R175): range [0, 1], routed to the snapshot while `Frozen`. -/
def execSetRvscale (v : BitVec 32) (s : State) : Host.Outcome State Fault Refusal := .next (setCoeff .rvscale v s)

/-- `SET_HIDAMP v` (R176): range [0, 1], routed to the snapshot while `Frozen`. -/
def execSetHidamp (v : BitVec 32) (s : State) : Host.Outcome State Fault Refusal := .next (setCoeff .hidamp v s)

/-- `SET_LODAMP v` (R177): range [−1, 0], routed to the snapshot while `Frozen`. -/
def execSetLodamp (v : BitVec 32) (s : State) : Host.Outcome State Fault Refusal := .next (setCoeff .lodamp v s)

/-- `SET_LPF v` (R178): range [0, 1], never routed. -/
def execSetLpf (v : BitVec 32) (s : State) : Host.Outcome State Fault Refusal := .next (setCoeff .lpf v s)

/-- `SET_HPF v` (R179): range [0, 1], never routed. -/
def execSetHpf (v : BitVec 32) (s : State) : Host.Outcome State Fault Refusal := .next (setCoeff .hpf v s)

/-- `SET_MLPF v` (R180): range [0, 1], never routed. -/
def execSetMlpf (v : BitVec 32) (s : State) : Host.Outcome State Fault Refusal := .next (setCoeff .mlpf v s)

/-- `SET_LFO0INC u` (R181): every 32-bit value is legal, the accumulator is not touched. -/
def execSetLfo0inc (u : BitVec 32) (s : State) : Host.Outcome State Fault Refusal :=
  .next { s with lfoInc := s.lfoInc.set 0 u }

/-- `SET_LFO1INC u` (R182): every 32-bit value is legal, the accumulator is not touched. -/
def execSetLfo1inc (u : BitVec 32) (s : State) : Host.Outcome State Fault Refusal :=
  .next { s with lfoInc := s.lfoInc.set 1 u }

end Sys2Proof.Machine
end

