-- ==== Sys2Proof/Machine/Datapath.lean ====
section
/-! DEFINITION. The wired sub-operations of the datapath (30_encoding.md R71), each under the spec's name: `AP_STEP`,
`AP_CHAIN` (40_allpass.md), `MOD_SCALE`, `MOD_SPLIT`, `TAP_READ` (41_modulated_tap.md), `DAMP_STEP` (42_damping.md),
`LFO_TICK`, `LFO_LOOKUP`, `LFO_OUT` (43_lfo.md), `INPUT_ATTN`, `INJ_SUM`, `TAP_MIX`, `MLP_STEP` (44_mixer.md), `DLY_STEP`,
`LOOP_STAGE`, `LOOP`, `SAMPLE`, `CLEANUP` (45_tank.md). The nesting of the arithmetic is the nesting of the rules
(00_scope.md R9). -/

namespace Sys2Proof.Machine

/-- `a >> n` on a signed integer: `floor(a / 2^n)` (00_scope.md R7). -/
def asr (a : Int) (n : Nat) : Int := a / (2 ^ n : Int)

/-! ### The LFO (43_lfo.md) -/

/-- `LFO_TICK(u)` (R110): the accumulator wraps modulo 2^32. -/
def lfoTick (s : State) (u : Fin 2) : State :=
  { s with lfoAcc := s.lfoAcc.set u (s.lfoAcc.get u + s.lfoInc.get u) }

/-- `LFO_LOOKUP(p)` (R111). -/
def lfoLookup (cfg : Config) (p : BitVec 32) : Int :=
  let fracW := 32 - cfg.tabBits
  let idx := p.toNat / 2 ^ fracW
  let frac := p.toNat % 2 ^ fracW
  let a := cfg.tab.getD idx 0
  let b := cfg.tab.getD (idx + 1) 0
  a + asr ((b - a) * frac) fracW

/-- The two outputs of an LFO. -/
structure LfoOut where
  sin : Int
  cos : Int
deriving DecidableEq, Repr, Inhabited

/-- `LFO_OUT(u)` (R112): the cosine is a quarter period ahead on the same table. -/
def lfoOut (s : State) (u : Fin 2) : LfoOut where
  sin := lfoLookup s.cfg (s.lfoAcc.get u)
  cos := lfoLookup s.cfg (s.lfoAcc.get u + 0x40000000#32)

/-! ### Input attenuation and the summing point (44_mixer.md) -/

/-- `INPUT_ATTN(x)` (R125). -/
def inputAttn (s : State) (x : Sample) : Sample := fmul s.cfg.num x s.coeff.inattn

/-- `INJ_SUM(v, d)` (R126). -/
def injSum (k : NumKind) (v d : Sample) : Sample := fadd k v d

/-! ### The allpass stage and the input chains (40_allpass.md) -/

/-- `AP_STEP(M, x, k)` (R80) on a delay RAM of capacity `len`: the RAM after it, and `y`. -/
def apStep (n : NumKind) (len : Nat) (m : DelayLine) (x k : Sample) : DelayLine × Sample :=
  let acc := fadd n m.current (fmul n x k)
  (m.store len (fsub n x (fmul n k acc)), acc)

/-- `AP_STEP` on `INAP[c][i]` with `C[KIN]` (R83, R84). -/
def inapStep (c : Chan) (i : Fin 4) (r : State × Sample) : State × Sample :=
  let q := apStep r.1.cfg.num ((r.1.cfg.lenIn.get c).get i) ((r.1.inap.get c).get i) r.2 r.1.coeff.kin
  ({ r.1 with inap := r.1.inap.set c ((r.1.inap.get c).set i q.1) }, q.2)

/-- `AP_CHAIN(c, x)` (R83): the four stages in series. -/
def apChain (c : Chan) (s : State) (x : Sample) : State × Sample :=
  inapStep c 3 (inapStep c 2 (inapStep c 1 (inapStep c 0 (s, x))))

/-! ### The ring (45_tank.md, 42_damping.md) -/

/-- `AP_STEP` on `LAP[i]` with `C[KLP]` (40_allpass.md R84). -/
def lapStep (i : Fin 4) (r : State × Sample) : State × Sample :=
  let q := apStep r.1.cfg.num (r.1.cfg.lenLap.get i) (r.1.lap.get i) r.2 r.1.coeff.klp
  ({ r.1 with lap := r.1.lap.set i q.1 }, q.2)

/-- `DLY_STEP(i, x)` (45_tank.md R135): the oldest word comes out, the new one takes its place. -/
def dlyStep (i : Fin 4) (r : State × Sample) : State × Sample :=
  let d := r.1.ldl.get i
  ({ r.1 with ldl := r.1.ldl.set i (d.store (r.1.cfg.lenLdl.get i) r.2) }, d.current)

/-- The new state pair and the output of one damping filter (42_damping.md R100). -/
structure DampOut where
  lpf : Sample
  hpf : Sample
  y : Sample
deriving DecidableEq, Repr, Inhabited

/-- The arithmetic of `DAMP_STEP` (42_damping.md R100) on one state pair. -/
def dampFilter (n : NumKind) (c : Regs Sample) (lp hp x : Sample) : DampOut :=
  let lp' := fadd n lp (fmul n (fsub n x lp) c.lpf)
  let hi := fsub n x lp'
  let hp' := fadd n hp (fmul n (fsub n lp' hp) c.hpf)
  let o := fadd n (fadd n lp' (fmul n hi c.hidamp)) (fmul n hp' c.lodamp)
  ⟨lp', hp', fmul n o (fmul n c.rvtime c.rvscale)⟩

/-- `DAMP_STEP(i, x)` (42_damping.md R100). -/
def dampStep (i : Fin 4) (r : State × Sample) : State × Sample :=
  let q := dampFilter r.1.cfg.num r.1.coeff (r.1.lpfSt.get i) (r.1.hpfSt.get i) r.2
  ({ r.1 with lpfSt := r.1.lpfSt.set i q.lpf, hpfSt := r.1.hpfSt.set i q.hpf }, q.y)

/-- `LOOP_STAGE(i, x)` (45_tank.md R136). -/
def loopStage (i : Fin 4) (r : State × Sample) : State × Sample := dampStep i (dlyStep i (lapStep i r))

/-- The injection table `INJ = [R, L, R, L]` (45_tank.md R138; UNVERIFIED, unsafe: notes/assumptions/14.md). -/
def inj : Fin 4 → Chan
  | 0 => .R
  | 1 => .L
  | 2 => .R
  | 3 => .L

/-- One turn of the loop of `LOOP` (45_tank.md R137): inject, then the stage. -/
def ringStage (d : Stereo Sample) (i : Fin 4) (r : State × Sample) : State × Sample :=
  loopStage i (r.1, injSum r.1.cfg.num r.2 (d.get (inj i)))

/-- `LOOP(dL, dR)` (45_tank.md R137). -/
def loop (s : State) (d : Stereo Sample) : State :=
  let r := ringStage d 3 (ringStage d 2 (ringStage d 1 (ringStage d 0 (s, s.loopOut))))
  { r.1 with loopOut := r.2 }

/-! ### The modulated taps (41_modulated_tap.md) -/

/-- `MOD_SCALE(y)` (R90). -/
def modScale (cfg : Config) (y : Int) : Int := asr y cfg.modShift

/-- `MOD_SPLIT(m)` (R91): the signed offset `mo` and the weight `wi`. -/
def modSplit (cfg : Config) (m : Int) : Int × Nat :=
  (asr m cfg.modFracBits, (m % (2 ^ cfg.modFracBits : Int)).toNat)

/-- The read position `p0` of `TAP_READ` (R92): the floor modulus of the line's length. -/
def tapPos (len : Nat) (idx : Nat) (off mo : Int) : Nat := (((idx : Int) + off + mo) % (len : Int)).toNat

/-- The interpolation of `TAP_READ` (R92): `a·(1 − w) + b·w` (UNVERIFIED, unsafe: notes/assumptions/14.md). -/
def interpolate (n : NumKind) (a b w : Sample) : Sample := fadd n (fmul n a (fsub n .one w)) (fmul n b w)

/-- `TAP_READ(i, off, m)` (R92). -/
def tapRead (s : State) (i : Fin 4) (off m : Int) : Sample :=
  let len := s.cfg.lenLdl.get i
  let d := s.ldl.get i
  let q := modSplit s.cfg m
  let p0 := tapPos len d.idx off q.1
  let p1 := (p0 + 1) % len
  interpolate s.cfg.num (Memory.read d.mem p0) (Memory.read d.mem p1) (ofFrac s.cfg.num q.2 s.cfg.modFracBits)

/-- The LFO output that moves tap `j`: `TAP_LFO = [(0,cos), (0,sin), (1,cos), (1,sin)]` (R93;
UNVERIFIED, unsafe: notes/assumptions/14.md). -/
def tapLfo (o : Duo LfoOut) : Fin 4 → Int
  | 0 => o.x0.cos
  | 1 => o.x0.sin
  | 2 => o.x1.cos
  | 3 => o.x1.sin

/-- Tap `j` of output channel `c` (R93). -/
def tap (s : State) (o : Duo LfoOut) (c : Chan) (j : Fin 4) : Sample :=
  tapRead s j ((s.cfg.tapOff.get c).get j) (modScale s.cfg (tapLfo o j))

/-! ### The output (44_mixer.md) -/

/-- `TAP_MIX(c, t0, t1, t2, t3)` (R127): in tap order, no initial zero. -/
def tapMix (cfg : Config) (c : Chan) (t : Quad Sample) : Sample :=
  let n := cfg.num
  let w := cfg.tapW.get c
  fadd n (fadd n (fadd n (fmul n t.x0 (ofConst n w.x0)) (fmul n t.x1 (ofConst n w.x1))) (fmul n t.x2 (ofConst n w.x2)))
    (fmul n t.x3 (ofConst n w.x3))

/-- `MLP_STEP(c, m)` (R128): the updated state is the output (UNVERIFIED, unsafe: notes/assumptions/14.md). -/
def mlpStep (s : State) (c : Chan) (m : Sample) : State × Sample :=
  let n := s.cfg.num
  let o := fadd n (s.mlp.get c) (fmul n (fsub n m (s.mlp.get c)) s.coeff.mlpf)
  ({ s with mlp := s.mlp.set c o }, o)

/-- The output sample of channel `c` (R129). -/
def outStep (o : Duo LfoOut) (c : Chan) (s : State) : State × Sample :=
  mlpStep s c (tapMix s.cfg c ⟨tap s o c 0, tap s o c 1, tap s o c 2, tap s o c 3⟩)

/-! ### The sample step, the cleanup and a block (45_tank.md) -/

/-- `SAMPLE(xl, xr)` (R141). -/
def sample (s : State) (x : Sample × Sample) : State × (Sample × Sample) :=
  let s1 := lfoTick (lfoTick s 0) 1
  let o : Duo LfoOut := ⟨lfoOut s1 0, lfoOut s1 1⟩
  let dl := apChain .L s1 (inputAttn s1 x.1)
  let dr := apChain .R dl.1 (inputAttn dl.1 x.2)
  let s2 := loop dr.1 ⟨dl.2, dr.2⟩
  let ol := outStep o .L s2
  let or := outStep o .R ol.1
  (or.1, (ol.2, or.2))

/-- `CLEANUP` (R143). -/
def cleanup (s : State) : State :=
  let clr (q : Quad DelayLine) : Quad DelayLine := ⟨q.x0.clear, q.x1.clear, q.x2.clear, q.x3.clear⟩
  { s with
    inap := ⟨clr s.inap.l, clr s.inap.r⟩
    lap := clr s.lap
    ldl := clr s.ldl
    lpfSt := .all .zero
    hpfSt := .all .zero
    loopOut := .zero
    mlp := ⟨.zero, .zero⟩ }

/-- The sample steps of a block in order (R147): the state after them and the output pairs. -/
def runBlock : State → List (Sample × Sample) → State × List (Sample × Sample)
  | s, [] => (s, [])
  | s, x :: xs =>
    let r := sample s x
    let q := runBlock r.1 xs
    (q.1, r.2 :: q.2)

/-- A block of `BLOCK_LEN` values `ZERO` (R145). -/
def silence (cfg : Config) : Block := List.replicate cfg.blockLen .zero

/-- The effective input block of a channel: the supplied one where the descriptor says it is present, silence where not
(R145). -/
def effective (cfg : Config) (present : Bool) (b : Block) : Block := if present then b else silence cfg

end Sys2Proof.Machine
end

