-- ==== Sys2Proof/Machine/Cycle.lean ====
section
/-! DEFINITION. CYCLE, the one operation of the audio port (45_tank.md R147): the wait while held (20_memory.md R53), the
bypassed cycle (R149), the dropped cycle (R148), the processing cycle. -/

namespace Sys2Proof.Machine

/-- The bypassed cycle (45_tank.md R149): the cleanup once, no sample step, no output. -/
def bypassedCycle (s : State) : State :=
  State.endCycle (if s.cleanupDone then s else { cleanup s with cleanupDone := true }) none

/-- The dropped cycle (R148): the input blocks are discarded, nothing else happens, no output. -/
def droppedCycle (s : State) : State := s.endCycle none

/-- The processing cycle (R147): `BLOCK_LEN` sample steps, two output blocks. -/
def processingCycle (rp lp : Bool) (s : State) : State :=
  let xs := (effective s.cfg lp s.audioIn.l).zip (effective s.cfg rp s.audioIn.r)
  let r := runBlock { s with cleanupDone := false } xs
  r.1.endCycle (some ⟨r.2.map Prod.fst, r.2.map Prod.snd⟩)

/-- Whether the blocks the descriptor says are present are on the port (30_encoding.md R66). -/
def State.portOk (rp lp : Bool) (s : State) : Bool :=
  s.cfg.transactionOk rp lp s.audioIn.l s.audioIn.r

/-- `CYCLE` with descriptor `ok @ rp @ lp` (R147). While `HOLD` = 1 the cycle is not enabled: it waits and nothing changes
(20_memory.md R53). `BYPASS` is tested before `ok`, and the inputs are looked at only in a processing cycle
(60_exceptions.md R195). -/
def execCycle (ok rp lp : Bool) (s : State) : Host.Outcome State Fault Refusal :=
  if s.hold then .next s
  else if s.bypass then .next (bypassedCycle s)
  else if !ok then .next (droppedCycle s)
  else if !s.portOk rp lp then .refused .malformedBlock
  else if !s.cursorsOk then .fault .cursorOutOfRange
  else .next (processingCycle rp lp s)

end Sys2Proof.Machine
end

