-- ==== Sys2Proof/Machine/System.lean ====
section
/-! DEFINITION. The system and mode commands of the control port (46_control.md section 2): NOP, RESET, LOCK, UNLOCK,
BYPASS, FREEZE, FRZTGL, RDSTAT. Each is accepted in every mode and whatever `HOLD` is (R160). -/

namespace Sys2Proof.Machine

/-- `NOP` (46_control.md R161): `ignore`. -/
def execNop (s : State) : Host.Outcome State Fault Refusal := .next s

/-- `RESET` (R162): the same transition as the reset input. -/
def execReset (s : State) : Host.Outcome State Fault Refusal := .next (resetAll s)

/-- `LOCK` (R163): `HOLD <- 1`, no count. -/
def execLock (s : State) : Host.Outcome State Fault Refusal := .next { s with hold := true }

/-- `UNLOCK` (R164): `HOLD <- 0`. -/
def execUnlock (s : State) : Host.Outcome State Fault Refusal := .next { s with hold := false }

/-- `BYPASS b` (R165): entering bypass forces freeze off first; the buffers are the audio agent's and stay. -/
def execBypass (b : Bool) (s : State) : Host.Outcome State Fault Refusal :=
  .next <|
    if b then
      if s.bypass then s
      else { (if s.freeze then freezeExit s else s) with bypass := true }
    else { s with bypass := false }

/-- `FREEZE b` (R166). -/
def execFreeze (b : Bool) (s : State) : Host.Outcome State Fault Refusal := .next (freezeTo b s)

/-- `FRZTGL` (R167): `FREEZE (1 − FREEZE)`. -/
def execFrztgl (s : State) : Host.Outcome State Fault Refusal := .next (freezeTo (!s.freeze) s)

/-- `RDSTAT` (R168): the status word goes back to the host, nothing in the hardware changes. -/
def execRdstat (s : State) : Host.Outcome State Fault Refusal := .next (s.reply (.read (statusWord s)))

end Sys2Proof.Machine
end

