-- ==== Sys2Proof/Machine/Dispatch.lean ====
section
/-! DEFINITION. The meaning of every instruction, one arm for each constructor of `Instr`. -/

namespace Sys2Proof.Machine

def exec (i : Instr) (s : State) : Host.Outcome State Fault Refusal :=
  match i with
  | .nop => Sys2Proof.Machine.execNop s
  | .reset => Sys2Proof.Machine.execReset s
  | .lock => Sys2Proof.Machine.execLock s
  | .unlock => Sys2Proof.Machine.execUnlock s
  | .bypass b => Sys2Proof.Machine.execBypass b s
  | .freeze b => Sys2Proof.Machine.execFreeze b s
  | .frztgl => Sys2Proof.Machine.execFrztgl s
  | .rdstat => Sys2Proof.Machine.execRdstat s
  | .setInattn v => Sys2Proof.Machine.execSetInattn v s
  | .setKin v => Sys2Proof.Machine.execSetKin v s
  | .setKlp v => Sys2Proof.Machine.execSetKlp v s
  | .setRvtime v => Sys2Proof.Machine.execSetRvtime v s
  | .setRvscale v => Sys2Proof.Machine.execSetRvscale v s
  | .setHidamp v => Sys2Proof.Machine.execSetHidamp v s
  | .setLodamp v => Sys2Proof.Machine.execSetLodamp v s
  | .setLpf v => Sys2Proof.Machine.execSetLpf v s
  | .setHpf v => Sys2Proof.Machine.execSetHpf v s
  | .setMlpf v => Sys2Proof.Machine.execSetMlpf v s
  | .setLfo0inc u => Sys2Proof.Machine.execSetLfo0inc u s
  | .setLfo1inc u => Sys2Proof.Machine.execSetLfo1inc u s
  | .cycle ok rp lp => Sys2Proof.Machine.execCycle ok rp lp s

end Sys2Proof.Machine
end

