-- ==== Sys2Proof/Machine/Fetch.lean ====
section
/-! DEFINITION. How a request becomes an instruction: what the decoder of its port makes of it (46_control.md R160), with a
reserved word ignored (30_encoding.md R64; notes/assumptions/13.md), and what the ports hold while it is executed. There is no instruction memory and
no program counter (10_state.md R11, 20_memory.md R55): the host's requests are all the "program" there is. -/

namespace Sys2Proof.Machine

/-- What a request asks of the hardware. -/
inductive Fetched where
  /-- The reset input (70_reset_and_hazards.md R210). -/
  | reset
  /-- A reserved command word (30_encoding.md R64). -/
  | ignored
  /-- An instruction. -/
  | run (i : Instr)
deriving DecidableEq, Repr, Inhabited

/-- A request read by the decoder of its port. -/
def fetched : Request → Fetched
  | .resetInput => .reset
  | .cycle cd _ _ => .run (decodeDescriptor cd)
  | .command cw =>
    match decodeCommand cw with
    | .ok i => .run i
    | .error _ => .ignored

/-- The state in which an accepted request is executed: it has left the host's side, and the blocks of a cycle request
stand on the audio port. -/
def State.accept (s : State) (q : Request) (rest : List Request) : State :=
  match q with
  | .cycle _ inL inR => { s with inbox := rest, audioIn := ⟨inL, inR⟩ }
  | _ => { s with inbox := rest }

/-- A cycle request with a given descriptor and silent blocks where it says a block is present. -/
def silentCycle (cfg : Config) (cd : Descriptor) : Request :=
  .cycle cd (if cd.getLsbD 0 then silence cfg else []) (if cd.getLsbD 1 then silence cfg else [])

/-- A row's word offered next on its port (see `State.withFetchWord`). -/
def offerTableWord (s : State) (nbits w : Nat) : State :=
  if nbits ≤ 8 then
    { s with hold := false, inbox := silentCycle s.cfg (BitVec.ofNat 3 w) :: s.inbox }
  else { s with inbox := .command (BitVec.ofNat 40 w) :: s.inbox }

end Sys2Proof.Machine
end

