-- ==== Sys2Proof/Machine/Step.lean ====
section
/-! DEFINITION. One step of the machine (20_memory.md R50): the next request that can be served is taken from the host and
executed whole. -/

namespace Sys2Proof.Machine

/-- One step. An ill-formed configuration has no machine (00_scope.md R6). When the host offers nothing that can be served,
nothing happens: with `HOLD` = 1 and only cycles waiting that is the starved audio stream of 70_reset_and_hazards.md R216. -/
def step (s : State) : Host.Outcome State Fault Refusal :=
  if s.cfg.wf then
    match nextRequest s.hold s.inbox with
    | none => .next s
    | some (q, rest) =>
      let s1 := s.accept q rest
      match fetched q with
      | .reset => .next (resetAll s1)
      | .ignored => .next s1
      | .run i => exec i s1
  else .refused .illFormedConfig

/-- The same state with one instruction offered next: its word at the head of what the host offers, on the port the row
belongs to, and for CYCLE silent blocks where the descriptor says a block is present. A cycle starts only while `HOLD` = 0
(20_memory.md R53), so for CYCLE, and only for it, `HOLD` is cleared (DESIGN CHOICE, safe: notes/assumptions/17.md). -/
def State.withFetchWord (s : State) (nbits w : Nat) : State := offerTableWord s nbits w

end Sys2Proof.Machine
end

