-- ==== Sys2Proof/Machine/Script.lean ====
section
/-! DEFINITION. The script form of 30_encoding.md section 6: the lines of R69, read from their characters, and the
pseudo-instructions of R70 with their expansions. A script becomes the requests a host offers in that order; it is how the
spec writes one interleaving (20_memory.md R51). It is no part of the hardware and no step uses it. -/

namespace Sys2Proof.Machine

/-- Why a script is not one of R69. -/
inductive ScriptError where
  /-- A line that is none of the forms of R69 or R70. -/
  | badLine
  /-- A number that is none of the forms of R69, or does not fit its operand. -/
  | badNumber
  /-- A block that is not `BLOCK_LEN` values. -/
  | badBlock
  /-- A CYCLE or SILENCE line inside GROUP, which R70 forbids, or a GROUP inside GROUP (DESIGN CHOICE, unsafe:
  notes/assumptions/19.md). -/
  | insideGroup
  /-- An END without GROUP, or a GROUP without END (DESIGN CHOICE, unsafe: notes/assumptions/19.md). -/
  | unbalancedGroup
deriving DecidableEq, Repr, Inhabited

/-- One line of a script. -/
inductive Line where
  /-- A line without a token: blank, or a comment alone (DESIGN CHOICE, unsafe: notes/assumptions/19.md). -/
  | blank
  | command (i : Instr)
  | cycle (ok : Bool) (inL inR : Option Block)
  | groupStart
  | groupEnd
  | silent (k : Nat)
deriving DecidableEq, Repr, Inhabited

/-- A value of R69: the word it stands for. A decimal literal is the nearest binary32, ties to even; eight hexadecimal
digits are the pattern itself. -/
inductive ScriptValue where
  | decimal (q : Rat)
  | hex (w : BitVec 32)
deriving DecidableEq, Repr, Inhabited

/-- The operand word of a value (R69). -/
def ScriptValue.opd : ScriptValue → BitVec 32
  | .decimal q => toF32Bits (roundF32 (decide (q < 0)) q)
  | .hex w => w

/-- The sample a 32-bit pattern stands for in a block line, whatever its class. 30_encoding.md R69 does not say how an
element of a block is written or read: that the pattern of an infinity or a NaN is that sample in every `NUM`, and that a
finite pattern is its value by `of_f32bits`, is the model's (DESIGN CHOICE, unsafe: notes/assumptions/20.md). -/
def sampleOfBits (k : NumKind) (w : BitVec 32) : Sample :=
  if w.extractLsb' 23 8 = 0xFF#8 then
    if w.extractLsb' 0 23 = 0#23 then .inf (w.getLsbD 31) else .nan
  else ofF32Bits k w

/-! ### Characters to tokens -/

def isBlankChar (c : Char) : Bool := c = ' ' || c = '\t' || c = '\r'

/-- A character that is a token by itself. -/
def isMark (c : Char) : Bool := c = '[' || c = ']' || c = ',' || c = '='

/-- The tokens of a line up to its comment (R69: `;` starts a comment), apart from each other by blanks or by a mark (DESIGN
CHOICE, unsafe: notes/assumptions/19.md); `acc` is the word read so far, reversed. -/
def tokens : List Char → List Char → List (List Char)
  | [], acc => if acc.isEmpty then [] else [acc.reverse]
  | c :: cs, acc =>
    let done := if acc.isEmpty then [] else [acc.reverse]
    if c = ';' then done
    else if isBlankChar c then done ++ tokens cs []
    else if isMark c then done ++ [c] :: tokens cs []
    else tokens cs (c :: acc)

/-! ### Numbers -/

def digit (c : Char) : Option Nat := if '0' ≤ c ∧ c ≤ '9' then some (c.toNat - 48) else none

def hexDigit (c : Char) : Option Nat :=
  if '0' ≤ c ∧ c ≤ '9' then some (c.toNat - 48)
  else if 'A' ≤ c ∧ c ≤ 'F' then some (c.toNat - 55)
  else if 'a' ≤ c ∧ c ≤ 'f' then some (c.toNat - 87)
  else none

/-- Digits in a base, continuing a number. -/
def digits (base : Nat) (f : Char → Option Nat) : List Char → Nat → Option Nat
  | [], n => some n
  | c :: cs, n =>
    match f c with
    | some d => digits base f cs (n * base + d)
    | none => none

/-- Decimal digits with at most one point, continuing a number; `scale` counts the digits after the point. 30_encoding.md R69
does not say how a decimal literal is spelt: no exponent and no plus sign is the model's (DESIGN CHOICE, unsafe:
notes/assumptions/19.md). -/
def decimals : List Char → Nat → Option Nat → Option Rat
  | [], n, scale => some (mkRat n (10 ^ (scale.getD 0)))
  | c :: cs, n, scale =>
    if c = '.' then (if scale = none then decimals cs n (some 0) else none)
    else
      match digit c with
      | some d => decimals cs (n * 10 + d) (scale.map (· + 1))
      | none => none

/-- An unsigned decimal literal: `decimals` with at least one digit, which may stand before or after the point (DESIGN
CHOICE, unsafe: notes/assumptions/19.md). -/
def decimalLiteral (cs : List Char) : Option Rat :=
  if cs.any (fun c => (digit c).isSome) then decimals cs 0 none else none

/-- A natural number of R69: decimal, or hexadecimal after `0x` in digits of either case (DESIGN CHOICE, unsafe:
notes/assumptions/19.md). -/
def natural : List Char → Option Nat
  | '0' :: 'x' :: d :: cs => digits 16 hexDigit (d :: cs) 0
  | c :: cs => digits 10 digit (c :: cs) 0
  | [] => none

/-- A value of R69, with a minus sign or none before a decimal literal (notes/assumptions/19.md); a negative literal of zero
is the negative zero pattern (PRESUMED, unsafe: notes/assumptions/12.md). -/
def value : List Char → Option ScriptValue
  | '0' :: 'x' :: cs =>
    if cs.length = 8 then (digits 16 hexDigit cs 0).map (fun n => .hex (BitVec.ofNat 32 n)) else none
  | '-' :: c :: cs => (decimalLiteral (c :: cs)).map (fun q => if q = 0 then .hex 0x80000000#32 else .decimal (-q))
  | c :: cs => (decimalLiteral (c :: cs)).map .decimal
  | [] => none

/-! ### Lines -/

/-- The mnemonic a format-V command has after `SET_`, and the register name `SET r, value` takes (R70). -/
def regNames : List (List Char × Reg × (BitVec 32 → Instr)) :=
  [(['I', 'N', 'A', 'T', 'T', 'N'], .inattn, .setInattn), (['K', 'I', 'N'], .kin, .setKin), (['K', 'L', 'P'], .klp, .setKlp),
   (['R', 'V', 'T', 'I', 'M', 'E'], .rvtime, .setRvtime), (['R', 'V', 'S', 'C', 'A', 'L', 'E'], .rvscale, .setRvscale),
   (['H', 'I', 'D', 'A', 'M', 'P'], .hidamp, .setHidamp), (['L', 'O', 'D', 'A', 'M', 'P'], .lodamp, .setLodamp),
   (['L', 'P', 'F'], .lpf, .setLpf), (['H', 'P', 'F'], .hpf, .setHpf), (['M', 'L', 'P', 'F'], .mlpf, .setMlpf)]

/-- The lines that take no operand: the format-N commands (R63) and the pseudo-instructions without one (R70). -/
def plainLines : List (List Char × Line) :=
  [(['N', 'O', 'P'], .command .nop), (['R', 'E', 'S', 'E', 'T'], .command .reset), (['L', 'O', 'C', 'K'], .command .lock),
   (['U', 'N', 'L', 'O', 'C', 'K'], .command .unlock), (['F', 'R', 'Z', 'T', 'G', 'L'], .command .frztgl),
   (['R', 'D', 'S', 'T', 'A', 'T'], .command .rdstat), (['G', 'R', 'O', 'U', 'P'], .groupStart), (['E', 'N', 'D'], .groupEnd),
   (['B', 'Y', 'P', 'A', 'S', 'S', '_', 'O', 'N'], .command (.bypass true)),
   (['B', 'Y', 'P', 'A', 'S', 'S', '_', 'O', 'F', 'F'], .command (.bypass false)),
   (['F', 'R', 'E', 'E', 'Z', 'E', '_', 'O', 'N'], .command (.freeze true)),
   (['F', 'R', 'E', 'E', 'Z', 'E', '_', 'O', 'F', 'F'], .command (.freeze false))]

/-- The first entry of a table under a name. -/
def named {α : Type} (w : List Char) (t : List (List Char × α)) : Option α := (t.find? (fun e => e.1 = w)).map Prod.snd

/-- A bit operand of R69: exactly `0` or `1` (DESIGN CHOICE, unsafe: notes/assumptions/19.md). -/
def bitOperand (w : List Char) : Option Bool :=
  if w = ['0'] then some false else if w = ['1'] then some true else none

/-- A format-V line: the command with its operand word, or an error. -/
def valueLine (mk : Option (Reg × (BitVec 32 → Instr))) (w : List Char) : Except ScriptError Line :=
  match mk with
  | none => .error .badLine
  | some p =>
    match value w with
    | none => .error .badNumber
    | some v => .ok (.command (p.2 v.opd))

/-- A format-U line. -/
def naturalLine (mk : BitVec 32 → Instr) (w : List Char) : Except ScriptError Line :=
  match natural w with
  | none => .error .badNumber
  | some n => if n < 2 ^ 32 then .ok (.command (mk (BitVec.ofNat 32 n))) else .error .badNumber

/-- The values of a block after its opening bracket, and the tokens after its closing one. 30_encoding.md R69 does not give
the form of an element `v0`: that it is a `value`, decimal or `0x` and eight digits, and is turned to binary32 first in every
`NUM`, is the model's (DESIGN CHOICE, unsafe: notes/assumptions/20.md). -/
def blockValues (k : NumKind) : List (List Char) → Option (Block × List (List Char))
  | [v, [']']] => (value v).map (fun x => ([sampleOfBits k x.opd], []))
  | v :: [','] :: ts =>
    match value v, blockValues k ts with
    | some x, some (b, rest) => some (sampleOfBits k x.opd :: b, rest)
    | _, _ => none
  | v :: [']'] :: ts => (value v).map (fun x => ([sampleOfBits k x.opd], ts))
  | _ => none

/-- A block of R69: `-` for a missing one. -/
def block (cfg : Config) : List (List Char) → Except ScriptError (Option Block × List (List Char))
  | ['-'] :: ts => .ok (none, ts)
  | ['['] :: ts =>
    match blockValues cfg.num ts with
    | some (b, rest) => if b.length = cfg.blockLen then .ok (some b, rest) else .error .badBlock
    | none => .error .badBlock
  | _ => .error .badLine

/-- A CYCLE line after its mnemonic: `L=block R=block OK=bit` (R69). -/
def cycleLine (cfg : Config) : List (List Char) → Except ScriptError Line
  | ['L'] :: ['='] :: ts =>
    match block cfg ts with
    | .error e => .error e
    | .ok (l, ['R'] :: ['='] :: us) =>
      match block cfg us with
      | .error e => .error e
      | .ok (r, [['O', 'K'], ['='], b]) =>
        match bitOperand b with
        | some ok => .ok (.cycle ok l r)
        | none => .error .badNumber
      | .ok _ => .error .badLine
    | .ok _ => .error .badLine
  | _ => .error .badLine

/-- One line from its tokens. 30_encoding.md R69 has no empty line: a line without a token, blank or a comment alone, is
accepted here and stands for no request (DESIGN CHOICE, unsafe: notes/assumptions/19.md). -/
def lineOfTokens (cfg : Config) : List (List Char) → Except ScriptError Line
  | [] => .ok .blank
  | ['C', 'Y', 'C', 'L', 'E'] :: ts => cycleLine cfg ts
  | [w] =>
    match named w plainLines with
    | some l => .ok l
    | none => .error .badLine
  | [['B', 'Y', 'P', 'A', 'S', 'S'], b] =>
    match bitOperand b with
    | some x => .ok (.command (.bypass x))
    | none => .error .badNumber
  | [['F', 'R', 'E', 'E', 'Z', 'E'], b] =>
    match bitOperand b with
    | some x => .ok (.command (.freeze x))
    | none => .error .badNumber
  | [['S', 'I', 'L', 'E', 'N', 'C', 'E'], n] =>
    match natural n with
    | some k => .ok (.silent k)
    | none => .error .badNumber
  | [['S', 'E', 'T', '_', 'L', 'F', 'O', '0', 'I', 'N', 'C'], n] => naturalLine .setLfo0inc n
  | [['S', 'E', 'T', '_', 'L', 'F', 'O', '1', 'I', 'N', 'C'], n] => naturalLine .setLfo1inc n
  | ['S' :: 'E' :: 'T' :: '_' :: r, v] => valueLine (named r regNames) v
  | [['S', 'E', 'T'], r, [','], v] => valueLine (named r regNames) v
  | _ => .error .badLine

/-- One line of a script from its characters (R69). -/
def parseLine (cfg : Config) (cs : List Char) : Except ScriptError Line := lineOfTokens cfg (tokens cs [])

/-! ### Scripts to requests -/

/-- The request of an instruction that a port word names alone. -/
def commandRequest (i : Instr) : Request :=
  match encode i with
  | .command cw => .command cw
  | .descriptor cd => .cycle cd [] []

/-- The request of a CYCLE line: a missing block clears its presence bit (R65, R69). -/
def cycleRequest (ok : Bool) (inL inR : Option Block) : Request :=
  .cycle (descriptor ok inR.isSome inL.isSome) (inL.getD []) (inR.getD [])

/-- The requests of a script's lines in order, with the pseudo-instructions expanded (R70). That a line without a token
stands for no request, that `GROUP` does not nest and that every `GROUP` has its `END` is the model's (DESIGN CHOICE, unsafe:
notes/assumptions/19.md). -/
def expand : Bool → List Line → Except ScriptError (List Request)
  | false, [] => .ok []
  | true, [] => .error .unbalancedGroup
  | g, .blank :: ls => expand g ls
  | g, .command i :: ls =>
    match expand g ls with
    | .ok qs => .ok (commandRequest i :: qs)
    | .error e => .error e
  | false, .cycle ok l r :: ls =>
    match expand false ls with
    | .ok qs => .ok (cycleRequest ok l r :: qs)
    | .error e => .error e
  | false, .silent k :: ls =>
    match expand false ls with
    | .ok qs => .ok (List.replicate k (cycleRequest true none none) ++ qs)
    | .error e => .error e
  | false, .groupStart :: ls =>
    match expand true ls with
    | .ok qs => .ok (commandRequest .lock :: qs)
    | .error e => .error e
  | true, .groupEnd :: ls =>
    match expand false ls with
    | .ok qs => .ok (commandRequest .unlock :: qs)
    | .error e => .error e
  | false, .groupEnd :: _ => .error .unbalancedGroup
  | true, _ :: _ => .error .insideGroup

/-- Every line parsed. -/
def parseLines (cfg : Config) : List (List Char) → Except ScriptError (List Line)
  | [] => .ok []
  | cs :: rest =>
    match parseLine cfg cs, parseLines cfg rest with
    | .ok l, .ok ls => .ok (l :: ls)
    | .error e, _ => .error e
    | _, .error e => .error e

/-- A script, given as the characters of its lines, as the requests it stands for (R69, R70). -/
def assemble (cfg : Config) (lines : List (List Char)) : Except ScriptError (List Request) :=
  match parseLines cfg lines with
  | .ok ls => expand false ls
  | .error e => .error e

end Sys2Proof.Machine
end

