-- ==== Sys2Proof/Safety.lean ====
section
/-! DEFINITION. The terms the claims use: the invariants of 10_state.md R26 and of the memories, a run that raises no fault,
which requests and replies belong to which agent, and the traces of the sub-operations that own state. -/

namespace Sys2Proof.Machine

/-! ### Invariants -/

/-- Every delay RAM is in canonical form and lists only indices below its capacity (20_memory.md R42). -/
def State.ramsOk (s : State) : Bool := s.everyLine DelayLine.memOk

/-- Every coefficient register is a number in its legal range (10_state.md R26 (b)). -/
def State.coeffsOk (s : State) : Bool := Reg.list.all (fun r => s.cfg.inRange r (s.coeff.get r))

/-- `BYPASS` = 1 implies `FREEZE` = 0 (10_state.md R26 (c)). -/
def State.modesOk (s : State) : Bool := !(s.bypass && s.freeze)

/-- `FREEZE` = 1 implies the five freeze constants in the registers and a legal snapshot (10_state.md R26 (d)). -/
def State.frozenOk (s : State) : Bool :=
  !s.freeze ||
    SnapReg.list.all (fun q => decide (s.coeff.get q.reg = frozenValue q) && s.cfg.inRange q.reg (s.snap.get q))

/-- Everything `CLEANUP` clears is zero (45_tank.md R143). -/
def State.silent (s : State) : Bool :=
  s.everyLine (fun _ d => decide (d.mem = [])) && decide (s.lpfSt = .all .zero) && decide (s.hpfSt = .all .zero)
    && decide (s.loopOut = .zero) && decide (s.mlp = ⟨.zero, .zero⟩)

/-- `CLEANUP_DONE` = 1 implies that everything it speaks of is zero (10_state.md R23). -/
def State.cleanOk (s : State) : Bool := !s.cleanupDone || s.silent

/-- The invariant of the machine: a well-formed configuration, 10_state.md R26 (a) to (d), the memories in canonical form,
and the meaning of `CLEANUP_DONE`. -/
def State.sound (s : State) : Bool :=
  s.cfg.wf && s.cursorsOk && s.ramsOk && s.coeffsOk && s.modesOk && s.frozenOk && s.cleanOk

/-- Every listed word is a value of `S`. -/
def Memory.inCarrier (k : NumKind) (m : Memory) : Bool := m.all (fun e => e.2.inCarrier k)

/-- Every sample the state holds is a value of the carrier `S` of its `NUM` (00_scope.md R8). -/
def State.carrierOk (s : State) : Bool :=
  let ok (x : Sample) : Bool := x.inCarrier s.cfg.num
  s.everyLine (fun _ d => Memory.inCarrier s.cfg.num d.mem) && s.lpfSt.every ok && s.hpfSt.every ok && ok s.loopOut
    && ok s.mlp.l && ok s.mlp.r && Reg.list.all (fun r => ok (s.coeff.get r)) && SnapReg.list.all (fun q => ok (s.snap.get q))

/-- A run of `n` steps that raises no fault (60_exceptions.md R190). -/
def safeRun (n : Nat) (s : State) : Prop := ∀ f, Host.Core.run Sys2Proof.core n s ≠ .fault f

/-! ### Agents, requests and replies -/

/-- A request of the audio agent. -/
def Request.isCycle : Request → Bool
  | .cycle _ _ _ => true
  | _ => false

/-- The cycle requests that still wait, in their order. -/
def cyclesOf (qs : List Request) : List Request := qs.filter Request.isCycle

/-- The other requests that still wait, in their order. -/
def othersOf (qs : List Request) : List Request := qs.filter (fun q => !q.isCycle)

/-- What the audio port has handed back. -/
def audioReplies (rs : List Reply) : List Reply := rs.filter (fun r => match r with | .audio _ => true | .read _ => false)

/-- The format-V command that writes a coefficient register (30_encoding.md R63). -/
def setInstr : Reg → BitVec 32 → Instr
  | .inattn => .setInattn
  | .kin => .setKin
  | .klp => .setKlp
  | .rvtime => .setRvtime
  | .rvscale => .setRvscale
  | .hidamp => .setHidamp
  | .lodamp => .setLodamp
  | .lpf => .setLpf
  | .hpf => .setHpf
  | .mlpf => .setMlpf

/-- Instructions executed one after the other. -/
def execAll : List Instr → State → Host.Outcome State Fault Refusal
  | [], s => .next s
  | i :: is, s =>
    match exec i s with
    | .next t => execAll is t
    | o => o

/-- The instructions a list of command words stands for, in order: a reserved word stands for none (30_encoding.md R64). -/
def decodedOf (cs : List CommandWord) : List Instr := cs.filterMap (fun cw => (decodeCommand cw).toOption)

/-- The mode an instruction leaves, by the table of transitions (45_tank.md R144). -/
def modeAfter (cfg : Config) : Instr → Mode → Mode
  | .bypass true, _ => .bypassed
  | .bypass false, .bypassed => .active
  | .freeze true, .active => .frozen
  | .freeze false, .frozen => .active
  | .frztgl, .active => .frozen
  | .frztgl, .frozen => .active
  | .reset, _ => if cfg.rstBypass then .bypassed else .active
  | _, m => m

/-! ### Traces of the sub-operations that own state -/

/-- The outputs of one allpass stage with a constant coefficient over a sequence of inputs (40_allpass.md R82). -/
def apOutputs (n : NumKind) (len : Nat) (k : Sample) : DelayLine → List Sample → List Sample
  | _, [] => []
  | d, x :: xs => (apStep n len d x k).2 :: apOutputs n len k (apStep n len d x k).1 xs

/-- A delay RAM after a sequence of samples stored at its cursor (45_tank.md R135). -/
def storeAll (len : Nat) : DelayLine → List Sample → DelayLine
  | d, [] => d
  | d, x :: xs => storeAll len (d.store len x) xs

/-- What a delay line hands out over a sequence of samples: the word at the cursor, before each is stored
(45_tank.md R135). -/
def dlyOutputs (len : Nat) : DelayLine → List Sample → List Sample
  | _, [] => []
  | d, x :: xs => d.current :: dlyOutputs len (d.store len x) xs

/-- The position `q = (off + mo) mod L` of tap `j` of channel `c` in the next sample step (41_modulated_tap.md R94): the
LFOs tick before they are read. -/
def nextTapQ (s : State) (c : Chan) (j : Fin 4) : Nat :=
  let s1 := lfoTick (lfoTick s 0) 1
  let m := modScale s.cfg (tapLfo ⟨lfoOut s1 0, lfoOut s1 1⟩ j)
  ((((s.cfg.tapOff.get c).get j) + (modSplit s.cfg m).1) % ((s.cfg.lenLdl.get j : Nat) : Int)).toNat

end Sys2Proof.Machine
end

