-- ==== Sys2Proof/Certificates/Slice0/Obligations.lean ====
section
/-! DEFINITION. The statements for the provers. Each docstring names the rule it formalises; a clause that rests on a choice
of the model says so and names its log entry under notes/assumptions/. -/

open Sys2Proof Sys2Proof.Machine

/-! ### Encoding (30_encoding.md) -/

/-- R61, R62, R63, R65: no bit of an encoding is dropped. Every operand at every value. -/
def Obligations.DecodeOfEncodeIsIdentity : Prop := ∀ i : Instr, i.wf = true → decode (encode i) = .ok i

/-- R61, R63, R65: a word has one meaning, and the meaning has one word. -/
def Obligations.EncodeOfDecodeIsIdentity : Prop := ∀ (w : PortWord) (i : Instr), decode w = .ok i → encode i = w

/-- R61, R64: a command word has a meaning exactly when it matches a row of the opcode map. -/
def Obligations.CommandDecodesIffSomeRowMatches : Prop :=
  ∀ cw : CommandWord, (∃ i, decodeCommand cw = .ok i) ↔ ∃ r ∈ opcodeRows, cw &&& r.mask = r.pattern

/-- R61: "The rows are pairwise disjoint, so a word matches at most one row." -/
def Obligations.OpcodeRowsAreDisjoint : Prop :=
  opcodeRows.Pairwise (fun r q => ∀ cw : CommandWord, ¬(cw &&& r.mask = r.pattern ∧ cw &&& q.mask = q.pattern))

/-- R63, R65: words written out from the tables decode to the instructions they stand for, one of each format and of each
group of the opcode map, and a reserved word does not decode. -/
def Obligations.ListedWordsDecode : Prop :=
  decode (.command 0x0700000000#40) = .ok .rdstat ∧ decode (.command 0x0400000001#40) = .ok (.bypass true) ∧
  decode (.command 0x133F000000#40) = .ok (.setRvtime 0x3F000000#32) ∧
  decode (.command 0x21FFFFFFFF#40) = .ok (.setLfo1inc 0xFFFFFFFF#32) ∧
  decode (.descriptor 0b101#3) = .ok (.cycle true false true) ∧
  decode (.command 0x0580000001#40) = .error .operandNotBoolean

/-! ### Steps and their order (20_memory.md) -/

/-- R50, R52, R160: a step takes the request offered first and executes the instruction its port word decodes to, on the
state it finds; the blocks of a cycle stand on the port while it is served. That the host's requests stand in a list is the
model's (notes/assumptions/5.md). -/
def Obligations.StepRunsTheDecodedRequest : Prop :=
  (∀ (s : State) (cw : CommandWord) (rest : List Request) (i : Instr), s.cfg.wf = true → s.inbox = .command cw :: rest →
    decode (.command cw) = .ok i → i.wf = true → step s = exec i { s with inbox := rest }) ∧
  (∀ (s : State) (cd : Descriptor) (l r : Block) (rest : List Request) (i : Instr), s.cfg.wf = true → s.hold = false →
    s.inbox = .cycle cd l r :: rest → decode (.descriptor cd) = .ok i → i.wf = true →
    step s = exec i { s with inbox := rest, audioIn := ⟨l, r⟩ })

/-- R64, R161: a word that matches no row is accepted and has no effect, and NOP has none. -/
def Obligations.NopAndReservedWordsChangeNothing : Prop :=
  (∀ s : State, exec .nop s = .next s) ∧
  (∀ (s : State) (cw : CommandWord) (rest : List Request), s.cfg.wf = true → s.inbox = .command cw :: rest →
    (∀ r ∈ opcodeRows, cw &&& r.mask ≠ r.pattern) → step s = .next { s with inbox := rest })

/-- R53: while `HOLD` = 1 the waiting cycles are passed over, in their order, by the first request that is no cycle: a
command word that decodes is executed, a reserved word is taken and ignored (R64), and the reset input is executed as RESET
(R210), which lifts the hold. With cycles only, nothing is served (R216). Three clauses are the model's choice: that the
requests stand in a list and a waiting cycle keeps its place, and that a step with nothing to serve answers the same state
(notes/assumptions/5.md, DESIGN CHOICE), and that the requests still waiting stay over the reset (notes/assumptions/16.md,
DESIGN CHOICE). -/
def Obligations.HeldStepServesTheFirstCommand : Prop :=
  (∀ (s : State) (pre post : List Request), s.cfg.wf = true → s.hold = true → (∀ q ∈ pre, q.isCycle = true) →
    (∀ (cw : CommandWord) (i : Instr), s.inbox = pre ++ .command cw :: post → decode (.command cw) = .ok i →
      step s = exec i { s with inbox := pre ++ post }) ∧
    (∀ cw : CommandWord, s.inbox = pre ++ .command cw :: post → (∀ r ∈ opcodeRows, cw &&& r.mask ≠ r.pattern) →
      step s = .next { s with inbox := pre ++ post }) ∧
    (s.inbox = pre ++ .resetInput :: post →
      step s = exec .reset { s with inbox := pre ++ post } ∧
      ∃ t, step s = .next t ∧ t.hold = false ∧ t.inbox = pre ++ post)) ∧
  (∀ s : State, s.cfg.wf = true → s.hold = true → (∀ q ∈ s.inbox, q.isCycle = true) → step s = .next s)

/-- R53: "While `HOLD` = 1 the audio agent has no enabled step: no cycle starts." No cycle request is taken, nothing is
handed back on the audio port, and the accumulators move only by a reset. That the waiting requests stand in a list whose
order they keep is the model's choice (notes/assumptions/5.md, DESIGN CHOICE), and so is that they and the replies stay
where the step serves a RESET or the reset input (notes/assumptions/16.md, DESIGN CHOICE). -/
def Obligations.HeldStepStartsNoCycle : Prop :=
  ∀ s t : State, s.hold = true → step s = .next t →
    cyclesOf t.inbox = cyclesOf s.inbox ∧ audioReplies t.replies = audioReplies s.replies ∧
    (t.lfoAcc = s.lfoAcc ∨ t.lfoAcc = ⟨0, 0⟩)

/-- R53, R215: the commands after a LOCK, none of which releases the hold, are executed one a step, and during all of them
no cycle runs and the hold stays on: the audio agent sees all of them or none. After `n` steps the machine is, the waiting
requests apart, what executing the instructions of the first `n` words in order gives; a reserved word gives none. That the
host's requests stand in a list is the model's (notes/assumptions/5.md). -/
def Obligations.GroupIsSeenWholeOrNotAtAll : Prop :=
  ∀ (s : State) (cs : List CommandWord) (rest : List Request), s.cfg.wf = true → s.hold = true →
    othersOf s.inbox = cs.map Request.command ++ rest →
    (∀ cw ∈ cs, decodeCommand cw ≠ .ok .unlock ∧ decodeCommand cw ≠ .ok .reset) →
    ∀ n ≤ cs.length, ∃ t u, Host.Core.run Sys2Proof.core n s = .next t ∧ t.hold = true ∧
      execAll (decodedOf (cs.take n)) s = .next u ∧ t = { u with inbox := t.inbox } ∧
      othersOf t.inbox = (cs.drop n).map Request.command ++ rest ∧ cyclesOf t.inbox = cyclesOf s.inbox ∧
      audioReplies t.replies = audioReplies s.replies

/-- R6: an ill-formed configuration has no machine; that `step` then refuses by a name of its own is read from R6
(notes/assumptions/8.md, DEDUCED). What counts as ill formed is `Config.wf`, which asks the constraints of R5 on `K_LO` and
`K_HI` of the constants and of the values they take in `NUM`, and those on `RST` and `TAP_W` of the values alone: that part
is the model's choice (notes/assumptions/4.md, DESIGN CHOICE). -/
def Obligations.IllFormedConfigurationIsRefused : Prop :=
  ∀ s : State, s.cfg.wf = false → step s = .refused .illFormedConfig

/-- R27: the configuration is fixed for the life of the hardware. That it stands in the state is the model's
(notes/assumptions/1.md). -/
def Obligations.StepKeepsTheConfiguration : Prop := ∀ s t : State, step s = .next t → t.cfg = s.cfg

/-! ### System and mode commands (46_control.md) -/

/-- R162, R210 with the values of R30, R211: every element of R10 goes to its reset value, whatever the state was, and
nothing else changes; the reset input of the hardware is the same transition. The clause that the model's own fields of the
host's side stay over a reset, the requests still to come, the blocks on the audio port and the replies, is the model's
choice (notes/assumptions/16.md, DESIGN CHOICE). -/
def Obligations.ResetLeavesTheListedValues : Prop :=
  (∀ (s : State) (rest : List Request), s.cfg.wf = true → s.inbox = .resetInput :: rest →
    step s = exec .reset { s with inbox := rest }) ∧
  ∀ s : State, ∃ t, exec .reset s = .next t ∧
    (∀ m, t.cursor m = 0 ∧ ∀ i, t.word m i = .zero) ∧
    (∀ i, t.lpfSt.get i = .zero ∧ t.hpfSt.get i = .zero) ∧ t.loopOut = .zero ∧ (∀ c, t.mlp.get c = .zero) ∧
    (∀ u, t.lfoAcc.get u = 0#32 ∧ t.lfoInc.get u = s.cfg.rstLfoInc.get u) ∧
    (∀ r, t.coeff.get r = ofConst s.cfg.num (s.cfg.rst.get r)) ∧ (∀ q, t.snap.get q = .zero) ∧
    t.bypass = s.cfg.rstBypass ∧ t.freeze = false ∧ t.hold = false ∧ t.cleanupDone = true ∧
    t.cfg = s.cfg ∧ t.inbox = s.inbox ∧ t.audioIn = s.audioIn ∧ t.replies = s.replies

/-- R163, R164: LOCK sets the hold and UNLOCK clears it, whatever it was, and neither changes anything else; so LOCK on
`HOLD` = 1 changes nothing, and one UNLOCK undoes any number of LOCKs. Two clauses are the model's choice: that executing a
CYCLE after LOCK answers the same state (R53 gives it no step; notes/assumptions/18.md), and that after UNLOCK the cycle
that waits first is the request served next (R164 says only that it may start, and R194 leaves it open;
notes/assumptions/5.md). -/
def Obligations.LockAndUnlockWriteOnlyHold : Prop :=
  ∀ s : State, exec .lock s = .next { s with hold := true } ∧ exec .unlock s = .next { s with hold := false } ∧
    (s.hold = true → exec .lock s = .next s) ∧ (s.hold = false → exec .unlock s = .next s) ∧
    (∀ n : Nat, execAll (List.replicate n .lock ++ [.unlock]) s = .next { s with hold := false }) ∧
    (∀ t, exec .lock s = .next t → ∀ ok rp lp, exec (.cycle ok rp lp) t = .next t) ∧
    (∀ t cd l r rest, exec .unlock s = .next t → t.inbox = .cycle cd l r :: rest →
      nextRequest t.hold t.inbox = some (.cycle cd l r, rest))

/-- R165: BYPASS in every state; entering it from `Frozen` restores the five saved coefficients first; no buffer and no
`CLEANUP_DONE` is touched. -/
def Obligations.BypassCommand : Prop :=
  ∀ s : State,
    exec (.bypass false) s = .next { s with bypass := false } ∧
    (s.bypass = true → exec (.bypass true) s = .next s) ∧
    (s.bypass = false → s.freeze = false → exec (.bypass true) s = .next { s with bypass := true }) ∧
    (s.bypass = false → s.freeze = true → exec (.bypass true) s = .next { s with
      bypass := true
      freeze := false
      coeff := { s.coeff with
        rvtime := s.snap.rvtime, lodamp := s.snap.lodamp, hidamp := s.snap.hidamp, inattn := s.snap.inattn
        rvscale := s.snap.rvscale } })

/-- R166 with the procedures of R169: FREEZE in every state. -/
def Obligations.FreezeCommand : Prop :=
  ∀ s : State,
    (s.freeze = false → s.bypass = false → exec (.freeze true) s = .next { s with
      freeze := true
      snap := ⟨s.coeff.rvtime, s.coeff.lodamp, s.coeff.hidamp, s.coeff.inattn, s.coeff.rvscale⟩
      coeff := { s.coeff with rvtime := .one, inattn := .zero, lodamp := .zero, hidamp := .one, rvscale := .one } }) ∧
    (s.freeze = true ∨ s.bypass = true → exec (.freeze true) s = .next s) ∧
    (s.freeze = true → exec (.freeze false) s = .next { s with
      freeze := false
      coeff := { s.coeff with
        rvtime := s.snap.rvtime, lodamp := s.snap.lodamp, hidamp := s.snap.hidamp, inattn := s.snap.inattn
        rvscale := s.snap.rvscale } }) ∧
    (s.freeze = false → exec (.freeze false) s = .next s)

/-- R167: FRZTGL is `FREEZE (1 − FREEZE)`, and it completes. -/
def Obligations.FrztglIsFreezeOfTheOtherValue : Prop :=
  ∀ s : State, exec .frztgl s = exec (.freeze (!s.freeze)) s ∧
    ∃ t, exec .frztgl s = .next t ∧ t.freeze = (!s.freeze && !s.bypass)

/-- R168 with the word of R28: RDSTAT hands back the four flags in bits 3:0 and zeros above, and changes nothing else. -/
def Obligations.RdstatHandsBackTheFlags : Prop :=
  ∀ s : State, ∃ rd : ReadWord, exec .rdstat s = .next { s with replies := s.replies ++ [.read rd] } ∧
    rd.getLsbD 0 = s.bypass ∧ rd.getLsbD 1 = s.freeze ∧ rd.getLsbD 2 = s.hold ∧ rd.getLsbD 3 = s.cleanupDone ∧
    ∀ k, 4 ≤ k → rd.getLsbD k = false

/-- S4, which 46_control.md section 2 derives ("[derived: from this rule]", R169): between entering freeze and leaving it, with any cycles, repeated FREEZE 1, LOCK, UNLOCK, RDSTAT and NOP in
between and no coefficient written, every coefficient register comes back to the value it had. -/
def Obligations.FreezeRoundTripsAcrossCycles : Prop :=
  ∀ (s u v : State) (is : List Instr), s.bypass = false → s.freeze = false →
    (∀ i ∈ is, i = .nop ∨ i = .lock ∨ i = .unlock ∨ i = .rdstat ∨ i = .freeze true ∨ ∃ ok rp lp, i = .cycle ok rp lp) →
    exec (.freeze true) s = .next u → execAll is u = .next v →
    ∃ t, exec (.freeze false) v = .next t ∧ t.coeff = s.coeff ∧ t.mode = some .active

/-- R144 with the modes of R31: the table of transitions; every pair not listed leaves the mode unchanged. -/
def Obligations.ModeTransitions : Prop :=
  ∀ (i : Instr) (s t : State) (m : Mode), s.mode = some m → exec i s = .next t → t.mode = some (modeAfter s.cfg i m)

/-- R160: no command but RESET touches the delay RAMs, the cursors, the filter states or the LFO accumulators, and no
command but RESET writes `CLEANUP_DONE` (R23). -/
def Obligations.CommandsLeaveTheDatapath : Prop :=
  ∀ (i : Instr) (s t : State), i ≠ .reset → (∀ ok rp lp, i ≠ .cycle ok rp lp) → exec i s = .next t →
    t.inap = s.inap ∧ t.lap = s.lap ∧ t.ldl = s.ldl ∧ t.lpfSt = s.lpfSt ∧ t.hpfSt = s.hpfSt ∧ t.loopOut = s.loopOut ∧
    t.mlp = s.mlp ∧ t.lfoAcc = s.lfoAcc ∧ t.cleanupDone = s.cleanupDone

/-! ### Register writes (46_control.md) -/

/-- R170, for the ten commands of R171 to R180, `setInattn`, `setKin`, `setKlp`, `setRvtime`, `setRvscale`, `setHidamp`,
`setLodamp`, `setLpf`, `setHpf`, `setMlpf` (`setInstr` gives each by its register): each completes, and the value written for every class
of operand (R62), the two bounds of each register (R16), where the value goes, and that nothing else changes. A NaN writes
nothing. -/
def Obligations.CoefficientWrite : Prop :=
  (∀ (c : Config) (r : Reg),
    c.lo r = (if r = .kin ∨ r = .klp then ofConst c.num c.kLo else if r = .lodamp then fsub c.num .zero .one else .zero) ∧
    c.hi r = (if r = .kin ∨ r = .klp then ofConst c.num c.kHi else if r = .lodamp then .zero else .one)) ∧
  ∀ (r : Reg) (v : BitVec 32) (s : State),
    (v.extractLsb' 23 8 = 0xFF#8 → v.extractLsb' 0 23 ≠ 0#23 → exec (setInstr r v) s = .next s) ∧
    (∀ c : Sample,
      (v.extractLsb' 23 8 = 0xFF#8 → v.extractLsb' 0 23 = 0#23 →
        c = if v.getLsbD 31 then s.cfg.lo r else s.cfg.hi r) →
      (v.extractLsb' 23 8 ≠ 0xFF#8 →
        c = (let x := ofF32Bits s.cfg.num v
             let y := if flt x (s.cfg.lo r) then s.cfg.lo r else x
             if flt (s.cfg.hi r) y then s.cfg.hi r else y)) →
      ¬(v.extractLsb' 23 8 = 0xFF#8 ∧ v.extractLsb' 0 23 ≠ 0#23) →
      (s.freeze = false → exec (setInstr r v) s = .next { s with coeff := s.coeff.set r c }) ∧
      (s.freeze = true → (∀ q : SnapReg, q.reg ≠ r) →
        exec (setInstr r v) s = .next { s with coeff := s.coeff.set r c }) ∧
      (s.freeze = true → ∀ q : SnapReg, q.reg = r →
        exec (setInstr r v) s = .next { s with snap := s.snap.set q c }))

/-- S6, and R26 (b), which 10_state.md marks derived, from R16 and R170: whatever the operand, what the registers and the
snapshot hold stays in its legal range. -/
def Obligations.CoefficientWritesStayLegal : Prop :=
  ∀ (r : Reg) (v : BitVec 32) (s t : State), s.cfg.wf = true → s.coeffsOk = true → s.frozenOk = true →
    exec (setInstr r v) s = .next t → t.coeffsOk = true ∧ t.frozenOk = true

/-- R8, R62: under `NUM_F32` a finite operand is the binary32 value of its own pattern, both zeros told apart. -/
def Obligations.FiniteOperandKeepsItsPattern : Prop :=
  ∀ v : BitVec 32, v.extractLsb' 23 8 ≠ 0xFF#8 → toF32Bits (ofF32Bits .f32 v) = v ∧ (ofF32Bits .f32 v).inCarrier .f32 = true

/-- R181, R182: an increment write takes its operand unchanged, in every mode, and leaves the accumulator and everything
else alone. -/
def Obligations.LfoIncrementWrites : Prop :=
  ∀ (u : BitVec 32) (s : State),
    exec (.setLfo0inc u) s = .next { s with lfoInc := ⟨u, s.lfoInc.x1⟩ } ∧
    exec (.setLfo1inc u) s = .next { s with lfoInc := ⟨s.lfoInc.x0, u⟩ }

/-! ### The audio cycle (45_tank.md) -/

/-- CYCLE is enabled only while `HOLD` = 0 (20_memory.md R53, 45_tank.md R147), which gives a held CYCLE no step. That
executing it then answers the same state is the model's choice (notes/assumptions/18.md, DESIGN CHOICE). -/
def Obligations.HeldCycleWaits : Prop :=
  ∀ (ok rp lp : Bool) (s : State), s.hold = true → exec (.cycle ok rp lp) s = .next s

/-- R148: the dropped cycle changes nothing, hands back nothing, and its input is lost. -/
def Obligations.DroppedCycleChangesNothing : Prop :=
  ∀ (rp lp : Bool) (s : State), s.hold = false → s.bypass = false →
    exec (.cycle false rp lp) s = .next { s with audioIn := ⟨[], []⟩, replies := s.replies ++ [.audio none] }

/-- R149 with the cleanup of R143: a bypassed cycle, whatever its descriptor and its blocks, clears every word, every filter
state, `LOOP_OUT` and `MLP` if `CLEANUP_DONE` = 0 and only then, moves no cursor, no accumulator and no register, and hands
back nothing. -/
def Obligations.BypassedCycleCleansOnce : Prop :=
  ∀ (ok rp lp : Bool) (s : State), s.hold = false → s.bypass = true →
    (s.cleanupDone = true →
      exec (.cycle ok rp lp) s = .next { s with audioIn := ⟨[], []⟩, replies := s.replies ++ [.audio none] }) ∧
    (s.cleanupDone = false → ∃ t : State, exec (.cycle ok rp lp) s = .next t ∧
      (∀ m, t.cursor m = s.cursor m ∧ ∀ i, t.word m i = .zero) ∧
      t = { s with
        inap := t.inap, lap := t.lap, ldl := t.ldl
        lpfSt := .all .zero, hpfSt := .all .zero, loopOut := .zero, mlp := ⟨.zero, .zero⟩
        cleanupDone := true, audioIn := ⟨[], []⟩, replies := s.replies ++ [.audio none] })

/-- R147 with the effective inputs of R145: a processing cycle is `BLOCK_LEN` sample steps in order, from the state with
`CLEANUP_DONE` cleared, and hands back their outputs. The hypotheses on the port and the cursors are what a transaction can
express (R66) and what every reachable state satisfies (R12). -/
def Obligations.ProcessingCycleRunsTheSampleSteps : Prop :=
  ∀ (rp lp : Bool) (s : State), s.hold = false → s.bypass = false → s.portOk rp lp = true → s.cursorsOk = true →
    ∃ (σ : Nat → State) (o : Nat → Sample × Sample),
      σ 0 = { s with cleanupDone := false } ∧
      (∀ n < s.cfg.blockLen,
        (σ (n + 1), o n) = sample (σ n)
          (if lp then s.audioIn.l.getD n .zero else .zero, if rp then s.audioIn.r.getD n .zero else .zero)) ∧
      exec (.cycle true rp lp) s = .next { σ s.cfg.blockLen with
        audioIn := ⟨[], []⟩
        replies := s.replies ++
          [.audio (some ⟨(List.range s.cfg.blockLen).map (fun n => (o n).1),
                         (List.range s.cfg.blockLen).map (fun n => (o n).2)⟩)] }

/-- R12, R21, R110, R116, R146, R147: a processing cycle completes, hands back two full blocks, advances every cursor by
`BLOCK_LEN` modulo its capacity and every accumulator by `BLOCK_LEN` increments, clears `CLEANUP_DONE`, and leaves the
configuration, the control registers, the other flags and the waiting requests alone. -/
def Obligations.ProcessingCycleAdvances : Prop :=
  ∀ (rp lp : Bool) (s : State), s.hold = false → s.bypass = false → s.portOk rp lp = true → s.cursorsOk = true →
    ∃ (t : State) (l r : Block), exec (.cycle true rp lp) s = .next t ∧
      t.replies = s.replies ++ [.audio (some ⟨l, r⟩)] ∧ l.length = s.cfg.blockLen ∧ r.length = s.cfg.blockLen ∧
      t.audioIn = ⟨[], []⟩ ∧ t.cleanupDone = false ∧
      (∀ m, t.cursor m = (s.cursor m + s.cfg.blockLen) % ramCap s.cfg m) ∧
      (∀ u, t.lfoAcc.get u = s.lfoAcc.get u + BitVec.ofNat 32 s.cfg.blockLen * s.lfoInc.get u) ∧
      t.cfg = s.cfg ∧ t.coeff = s.coeff ∧ t.lfoInc = s.lfoInc ∧ t.snap = s.snap ∧ t.bypass = s.bypass ∧
      t.freeze = s.freeze ∧ t.hold = s.hold ∧ t.inbox = s.inbox

/-- R43, R80, R135, R147: a processing cycle stores, in each delay RAM, only to the words at its cursor and the
`BLOCK_LEN` − 1 places after it modulo the capacity; every other word of every RAM reads as before. -/
def Obligations.ProcessingCycleMemoryFrame : Prop :=
  ∀ (rp lp : Bool) (s t : State), s.hold = false → s.bypass = false → exec (.cycle true rp lp) s = .next t →
    ∀ (m : Ram) (a : Nat), (∀ n < s.cfg.blockLen, a ≠ (s.cursor m + n) % ramCap s.cfg m) → t.word m a = s.word m a

/-- R10, R46, R54: the single-writer rule from the other side: whatever a cycle does, it writes no coefficient register, no
increment, no snapshot, no mode flag and no hold. -/
def Obligations.CyclesLeaveTheControlRegisters : Prop :=
  ∀ (ok rp lp : Bool) (s t : State), exec (.cycle ok rp lp) s = .next t →
    t.coeff = s.coeff ∧ t.lfoInc = s.lfoInc ∧ t.snap = s.snap ∧ t.bypass = s.bypass ∧ t.freeze = s.freeze ∧
    t.hold = s.hold ∧ t.cfg = s.cfg

/-- Where a processing cycle stops, which is the model's choice for what the spec says cannot be: a transaction that cannot
be expressed (R66, notes/assumptions/6.md), and a cursor outside its RAM (R42, notes/assumptions/7.md). -/
def Obligations.ProcessingCycleStopsOutsideTheSpec : Prop :=
  ∀ (rp lp : Bool) (s : State), s.hold = false → s.bypass = false →
    (s.portOk rp lp = false → exec (.cycle true rp lp) s = .refused .malformedBlock) ∧
    (s.portOk rp lp = true → s.cursorsOk = false → exec (.cycle true rp lp) s = .fault .cursorOutOfRange)

/-! ### The allpass stage and the delay line (40_allpass.md, 45_tank.md) -/

/-- R80: `AP_STEP` reads the word at the cursor, stores there, advances the cursor, and leaves every other word alone. R81 (b):
a coefficient in the legal range is finite, above 0 and below 1. R81 (d), in every `NUM`: on a RAM that is all zero, with a
zero for `x`, the output is a zero and the RAM stays all zero, zeros by value. -/
def Obligations.AllpassStepEffect : Prop :=
  (∀ (n : NumKind) (len : Nat) (d : DelayLine) (x k : Sample), d.idx < len → d.memOk len = true →
    (apStep n len d x k).2 = fadd n (Memory.read d.mem d.idx) (fmul n x k) ∧
    Memory.read (apStep n len d x k).1.mem d.idx = fsub n x (fmul n k (apStep n len d x k).2) ∧
    (∀ a, a ≠ d.idx → Memory.read (apStep n len d x k).1.mem a = Memory.read d.mem a) ∧
    (apStep n len d x k).1.idx = (d.idx + 1) % len) ∧
  (∀ (c : Config) (r : Reg) (k : Sample), c.wf = true → r = .kin ∨ r = .klp → c.inRange r k = true →
    k.isFinite = true ∧ 0 < k.val ∧ k.val < 1) ∧
  (∀ (n : NumKind) (len : Nat) (d : DelayLine) (x k : Sample), d.idx < len → d.memOk len = true →
    (∀ a, (Memory.read d.mem a).isZero = true) → x.isZero = true → k.isFinite = true →
    (apStep n len d x k).2.isZero = true ∧ ∀ a, (Memory.read (apStep n len d x k).1.mem a).isZero = true)

/-- 40_allpass.md section 1, R82 ("[derived: from rule R80]"): in exact arithmetic a stage of capacity `L` from a cleared RAM satisfies
`y[n] = k·x[n] + x[n − L] − k·y[n − L]`. -/
def Obligations.AllpassDifferenceEquation : Prop :=
  ∀ (len i : Nat) (k : Rat) (xs : List Rat), i < len →
    ∃ y : Nat → Rat, apOutputs .exact len (.fin k) ⟨[], i⟩ (xs.map .fin) = (List.range xs.length).map (fun n => .fin (y n)) ∧
      ∀ n < xs.length, y n = k * xs.getD n 0 + if n < len then 0 else xs.getD (n - len) 0 - k * y (n - len)

/-- 40_allpass.md section 1, R82 ("[derived: from rule R80]"): its impulse response from a cleared RAM is `k` at step 0, `(1 − k²)·(−k)^(m−1)` at step `m·L`, and 0 at every other
step. -/
def Obligations.AllpassImpulseResponse : Prop :=
  ∀ (len i steps : Nat) (k : Rat), i < len →
    apOutputs .exact len (.fin k) ⟨[], i⟩ (.fin 1 :: List.replicate steps (.fin 0)) =
      (List.range (steps + 1)).map fun n =>
        .fin (if n = 0 then k else if n % len = 0 then (1 - k ^ 2) * (-k) ^ (n / len - 1) else 0)

/-- R135: "The delay is exactly `L` sample steps", and `ZERO` for the first `L` steps after a clear, whatever the samples
are. -/
def Obligations.DelayLineDelaysByItsLength : Prop :=
  ∀ (len i : Nat) (xs : List Sample), i < len →
    dlyOutputs len ⟨[], i⟩ xs = (List.range xs.length).map fun n => if n < len then .zero else xs.getD (n - len) .zero

/-- 41_modulated_tap.md section 3, R94 ("[derived: from rule R92 and `45_tank.md` rule R135]"): after at least `L` stores, the word at distance `q` from the cursor is the one stored `L − 1 − q` stores before the
last. -/
def Obligations.TapWordsAreTheLastStored : Prop :=
  ∀ (len : Nat) (d : DelayLine) (xs : List Sample) (q : Nat), d.idx < len → d.memOk len = true → len ≤ xs.length →
    q < len → Memory.read (storeAll len d xs).mem (((storeAll len d xs).idx + q) % len) =
      xs.getD (xs.length - 1 - (len - 1 - q)) .zero

/-! ### Damping, modulation, LFO, output (41 to 44) -/

/-- R100 in the nesting of R9, in every `NUM`: the new low state, the new high state from it, and the output, in which the
two scaling coefficients are multiplied first; and the same as rational arithmetic. -/
def Obligations.DampFilterValue : Prop :=
  (∀ (n : NumKind) (c : Regs Sample) (lp hp x : Sample),
    let lp' := fadd n lp (fmul n (fsub n x lp) c.lpf)
    let hp' := fadd n hp (fmul n (fsub n lp' hp) c.hpf)
    (dampFilter n c lp hp x).lpf = lp' ∧ (dampFilter n c lp hp x).hpf = hp' ∧
    (dampFilter n c lp hp x).y =
      fmul n (fadd n (fadd n lp' (fmul n (fsub n x lp') c.hidamp)) (fmul n hp' c.lodamp)) (fmul n c.rvtime c.rvscale)) ∧
  ∀ (c : Regs Sample) (lpf hpf hidamp lodamp rvtime rvscale lp hp x : Rat),
    c.lpf = .fin lpf → c.hpf = .fin hpf → c.hidamp = .fin hidamp → c.lodamp = .fin lodamp → c.rvtime = .fin rvtime →
    c.rvscale = .fin rvscale →
    let lp' := lp + (x - lp) * lpf
    let hp' := hp + (lp' - hp) * hpf
    dampFilter .exact c (.fin lp) (.fin hp) (.fin x) =
      ⟨.fin lp', .fin hp', .fin ((lp' + (x - lp') * hidamp + hp' * lodamp) * (rvtime * rvscale))⟩

/-- 42_damping.md section 1, R102 (a) ("[derived: from rule R100]"): with the freeze constants the filter is transparent in exact arithmetic, whatever the corner coefficients and
its two states are. -/
def Obligations.FrozenDampFilterIsTransparent : Prop :=
  ∀ (c : Regs Sample) (lpf hpf lp hp x : Rat),
    (∀ q : SnapReg, c.get q.reg = frozenValue q) → c.lpf = .fin lpf → c.hpf = .fin hpf →
    (dampFilter .exact c (.fin lp) (.fin hp) (.fin x)).y = .fin x

/-- R91: "Law: `m = mo·2^F + wi` for every `m`, negative ones included; `wi` is never negative", with `mo` the floor and
`wi` below `2^F`. -/
def Obligations.ModSplitRecomposes : Prop :=
  ∀ (c : Config) (m : Int),
    m = (modSplit c m).1 * 2 ^ c.modFracBits + ((modSplit c m).2 : Int) ∧ (modSplit c m).2 < 2 ^ c.modFracBits ∧
    (modSplit c m).1 = Int.floor ((m : Rat) / 2 ^ c.modFracBits)

/-- R90: the modulation value is `floor(y / 2^MOD_SHIFT)` with `MOD_SHIFT = TAB_W − A − F`, and its range is `±2^A / 2`
samples read with `F` fractional bits. -/
def Obligations.ModScaleValueAndRange : Prop :=
  (∀ (c : Config) (y : Int),
    modScale c y = Int.floor ((y : Rat) / 2 ^ (c.tabW - c.lfoAmplBits - c.modFracBits))) ∧
  ∀ (c : Config) (y : Int), c.wf = true → -(2 ^ (c.tabW - 1) : Int) ≤ y → y < (2 ^ (c.tabW - 1) : Int) →
    -(2 ^ (c.lfoAmplBits + c.modFracBits - 1) : Int) ≤ modScale c y ∧
    modScale c y < (2 ^ (c.lfoAmplBits + c.modFracBits - 1) : Int)

/-- R42, R111: a table lookup is the interpolation of the entry the top `TAB_BITS` bits of the phase select and the next one,
by the low bits, rounded down; the two entries exist, and the result lies between them and fits `TAB_W` bits. -/
def Obligations.LfoLookupValueStaysInTheTable : Prop :=
  (∀ (c : Config) (p : BitVec 32),
    let a := c.tab.getD (p.toNat / 2 ^ (32 - c.tabBits)) 0
    let b := c.tab.getD (p.toNat / 2 ^ (32 - c.tabBits) + 1) 0
    let frac := p.toNat % 2 ^ (32 - c.tabBits)
    lfoLookup c p = a + Int.floor (((b - a : Int) : Rat) * (frac : Rat) / 2 ^ (32 - c.tabBits))) ∧
  ∀ (c : Config) (p : BitVec 32), c.wf = true →
    let i := p.toNat / 2 ^ (32 - c.tabBits)
    i + 1 < c.tab.length ∧ min (c.tab.getD i 0) (c.tab.getD (i + 1) 0) ≤ lfoLookup c p ∧
    lfoLookup c p ≤ max (c.tab.getD i 0) (c.tab.getD (i + 1) 0) ∧
    -(2 ^ (c.tabW - 1) : Int) ≤ lfoLookup c p ∧ lfoLookup c p < (2 ^ (c.tabW - 1) : Int)

/-- 43_lfo.md section 4, R114 ("[derived: from rule R110]"): after `N` ticks the accumulator is `a0 + N·inc` modulo 2^32, and it is back at `a0` exactly after the multiples of
`2^32 / gcd(inc, 2^32)`. -/
def Obligations.LfoAccumulatorPeriod : Prop :=
  ∀ (s : State) (u : Fin 2) (n : Nat),
    (((fun t => lfoTick t u)^[n] s).lfoAcc.get u).toNat =
      ((s.lfoAcc.get u).toNat + n * (s.lfoInc.get u).toNat) % 2 ^ 32 ∧
    (((fun t => lfoTick t u)^[n] s).lfoAcc.get u = s.lfoAcc.get u ↔
      2 ^ 32 / Nat.gcd (s.lfoInc.get u).toNat (2 ^ 32) ∣ n)

/-- R92: the two words a tap reads are inside the line, at the floor modulus of the summed position, and the interpolation
is `fadd(fmul(a, fsub(ONE, w)), fmul(b, w))` in every `NUM`, which is `a·(1 − w) + b·w` in exact arithmetic. The corner
case `wi` = 0, in every `NUM`: the weight is a zero, and for finite words of the carrier the value read is the first word by
value. -/
def Obligations.TapReadInterpolatesInsideTheLine : Prop :=
  (∀ (len idx : Nat) (off mo : Int), 1 ≤ len → tapPos len idx off mo < len ∧
    (len : Int) ∣ ((idx : Int) + off + mo - (tapPos len idx off mo : Int))) ∧
  (∀ (n : NumKind) (a b w : Sample),
    interpolate n a b w = fadd n (fmul n a (fsub n .one w)) (fmul n b w)) ∧
  (∀ a b w : Rat, interpolate .exact (.fin a) (.fin b) (.fin w) = .fin (a * (1 - w) + b * w)) ∧
  (∀ (n : NumKind) (f : Nat) (a b : Sample), a.inCarrier n = true → a.isFinite = true → b.isFinite = true →
    (ofFrac n 0 f).isZero = true ∧ (interpolate n a b (ofFrac n 0 f)).isFinite = true ∧
    (interpolate n a b (ofFrac n 0 f)).val = a.val) ∧
  (∀ (s : State) (i : Fin 4) (off m : Int),
    tapRead s i off m =
      (let p0 := tapPos (s.cfg.lenLdl.get i) (s.cursor (.ldl i)) off (modSplit s.cfg m).1
       interpolate s.cfg.num (s.word (.ldl i) p0) (s.word (.ldl i) ((p0 + 1) % s.cfg.lenLdl.get i))
        (ofFrac s.cfg.num (modSplit s.cfg m).2 s.cfg.modFracBits)))

/-- R127, R128: the output of a channel is the weighted sum of its four taps, in tap order, through the master lowpass; the
updated `MLP[c]` is the output, and nothing else is written. Stated in the nesting of R9 for every `NUM`, and as rational
arithmetic. The corner case `C[MLPF]` = 0, in every `NUM`: `MLP[c]`, a finite value of the carrier, is held by value, as long
as its difference from the mix does not overflow. -/
def Obligations.OutputIsTheFilteredTapSum : Prop :=
  (∀ (cfg : Config) (c : Chan) (t : Quad Sample),
    let w := cfg.tapW.get c
    tapMix cfg c t =
      fadd cfg.num
        (fadd cfg.num
          (fadd cfg.num (fmul cfg.num t.x0 (ofConst cfg.num w.x0)) (fmul cfg.num t.x1 (ofConst cfg.num w.x1)))
          (fmul cfg.num t.x2 (ofConst cfg.num w.x2)))
        (fmul cfg.num t.x3 (ofConst cfg.num w.x3))) ∧
  (∀ (s : State) (c : Chan) (m : Sample),
    (mlpStep s c m).2 =
      fadd s.cfg.num (s.mlp.get c) (fmul s.cfg.num (fsub s.cfg.num m (s.mlp.get c)) s.coeff.mlpf)) ∧
  (∀ (s : State) (c : Chan) (t0 t1 t2 t3 old k : Rat), s.cfg.num = .exact → s.mlp.get c = .fin old → s.coeff.mlpf = .fin k →
    let w := s.cfg.tapW.get c
    let m := t0 * w.x0 + t1 * w.x1 + t2 * w.x2 + t3 * w.x3
    (mlpStep s c (tapMix s.cfg c ⟨.fin t0, .fin t1, .fin t2, .fin t3⟩)).2 = .fin (old + (m - old) * k)) ∧
  (∀ (s : State) (c : Chan) (m : Sample), s.coeff.mlpf.isZero = true → (s.mlp.get c).inCarrier s.cfg.num = true →
    (s.mlp.get c).isFinite = true → (fsub s.cfg.num m (s.mlp.get c)).isFinite = true →
    (mlpStep s c m).2.isFinite = true ∧ (mlpStep s c m).2.val = (s.mlp.get c).val) ∧
  (∀ (s : State) (c : Chan) (m : Sample), (mlpStep s c m).1 = { s with mlp := s.mlp.set c (mlpStep s c m).2 })

/-! ### The whole datapath (45_tank.md) -/

/-- R83: the chain of a channel runs its four stages in order, each on its own RAM with `C[KIN]`, each taking the output of
the one before, and touches nothing else. -/
def Obligations.InputChainIsFourStagesInSeries : Prop :=
  ∀ (s : State) (c : Chan) (x : Sample), ∃ v : Fin 5 → Sample,
    v 0 = x ∧
    (∀ i : Fin 4, apStep s.cfg.num ((s.cfg.lenIn.get c).get i) ((s.inap.get c).get i) (v i.castSucc) s.coeff.kin =
      ((((apChain c s x).1.inap.get c).get i), v i.succ)) ∧
    (apChain c s x).2 = v 4 ∧
    (apChain c s x).1 = { s with inap := s.inap.set c ((apChain c s x).1.inap.get c) }

/-- R136, R137 with the table of R138: the ring, stage by stage. Stage `i` takes the output of the stage before it (stage 0
the value `LOOP_OUT` had) plus the injected chain, runs its allpass, stores in its delay line what the allpass gives, and
filters the word the line held; the last output becomes `LOOP_OUT`, and nothing else is written. -/
def Obligations.LoopIsARingOfFourStages : Prop :=
  ∀ (s : State) (d : Stereo Sample), ∃ x y : Fin 4 → Sample,
    x 0 = fadd s.cfg.num s.loopOut d.r ∧ x 1 = fadd s.cfg.num (y 0) d.l ∧
    x 2 = fadd s.cfg.num (y 1) d.r ∧ x 3 = fadd s.cfg.num (y 2) d.l ∧
    (∀ i : Fin 4,
      let v := apStep s.cfg.num (s.cfg.lenLap.get i) (s.lap.get i) (x i) s.coeff.klp
      let f := dampFilter s.cfg.num s.coeff (s.lpfSt.get i) (s.hpfSt.get i) (s.ldl.get i).current
      (loop s d).lap.get i = v.1 ∧ (loop s d).ldl.get i = (s.ldl.get i).store (s.cfg.lenLdl.get i) v.2 ∧
      (loop s d).lpfSt.get i = f.lpf ∧ (loop s d).hpfSt.get i = f.hpf ∧ y i = f.y) ∧
    loop s d = { s with
      lap := (loop s d).lap, ldl := (loop s d).ldl, lpfSt := (loop s d).lpfSt, hpfSt := (loop s d).hpfSt, loopOut := y 3 }

/-- R141 with R93, R110, R112, R125, R129: a sample step in its order. Both accumulators tick; both inputs are attenuated and
run through their chains; the ring takes the two chain outputs; then each channel reads its four taps from the ring's new
delay lines, tap `j` moved by the cosine or the sine (a quarter period apart on the same table) of the LFO the table of R93
gives it; and the filtered sums are the outputs. -/
def Obligations.SampleStepRunsInItsOrder : Prop :=
  ∀ (s : State) (xl xr : Sample),
    let acc := fun u : Fin 2 => s.lfoAcc.get u + s.lfoInc.get u
    let s1 : State := { s with lfoAcc := ⟨acc 0, acc 1⟩ }
    let a := apChain .L s1 (fmul s.cfg.num xl s.coeff.inattn)
    let b := apChain .R a.1 (fmul s.cfg.num xr s.coeff.inattn)
    let r := loop b.1 ⟨a.2, b.2⟩
    let phase : Fin 4 → BitVec 32 := fun j =>
      if j = 0 then acc 0 + 0x40000000#32 else if j = 1 then acc 0 else if j = 2 then acc 1 + 0x40000000#32 else acc 1
    let tapOf := fun (c : Chan) (j : Fin 4) =>
      tapRead r j ((s.cfg.tapOff.get c).get j) (modScale s.cfg (lfoLookup s.cfg (phase j)))
    let out := fun c : Chan => (mlpStep r c (tapMix s.cfg c ⟨tapOf c 0, tapOf c 1, tapOf c 2, tapOf c 3⟩)).2
    sample s (xl, xr) = ({ r with mlp := ⟨out .L, out .R⟩ }, (out .L, out .R))

/-- R125, R169: in exact arithmetic the freeze setting `INATTN` = 0 cuts off the input: a sample step does not depend on
it. -/
def Obligations.FrozenSampleStepIgnoresItsInput : Prop :=
  ∀ (s : State) (a b c d : Rat), s.cfg.num = .exact → s.coeff.inattn = .zero →
    sample s (.fin a, .fin b) = sample s (.fin c, .fin d)

/-- R142, R225, corrected: when every tap of the step stands at least three words behind the newest one (`q ≤ L − 3`), the
output of a sample step does not depend on its input, whatever the input is. The spec's bound is `L − 2`
(notes/assumptions/11.md). -/
def Obligations.OutputIgnoresInputWhenTapsStandBack : Prop :=
  ∀ (s : State) (x x' : Sample × Sample), s.cursorsOk = true →
    (∀ c j, nextTapQ s c j + 2 < s.cfg.lenLdl.get j) → (sample s x).2 = (sample s x').2

/-- R142 as the spec words it, with the bound `q ≤ L − 2`: expected to fail, because such a tap interpolates toward the word
stored in the same step (R92, R94; notes/assumptions/11.md). -/
def Obligations.OutputIgnoresInputAtTheSpecsBound : Prop :=
  ∀ (s : State) (x x' : Sample × Sample), s.sound = true →
    (∀ c j, nextTapQ s c j + 2 ≤ s.cfg.lenLdl.get j) → (sample s x).2 = (sample s x').2

/-- 45_tank.md section 4 (R143, "[derived: from rules R80, R135, R92]"): with all words zero the cursor values are not observable: two states that differ in their cursors
only give the same outputs for every sequence of inputs. -/
def Obligations.CleanupHidesTheCursors : Prop :=
  ∀ (s t : State) (xs : List (Sample × Sample)), s.cursorsOk = true → t.cursorsOk = true →
    (∀ m, (s.line m).mem = [] ∧ (t.line m).mem = []) →
    t = { s with inap := t.inap, lap := t.lap, ldl := t.ldl } → (runBlock s xs).2 = (runBlock t xs).2

/-- S5, R143: from a cleared state, silence in gives silence out for ever (zeros by value), for every legal setting of the
registers, in both named instantiations of `NUM`, and in any other one whose weights and whose product of the two scaling
coefficients are finite: of such a `NUM` R8 does not say that these do not overflow, and zero times an infinity is no zero
(notes/assumptions/3.md, DESIGN CHOICE). -/
def Obligations.SilenceInGivesSilenceOutAfterCleanup : Prop :=
  ∀ (s : State) (n : Nat), s.sound = true → s.silent = true →
    (s.cfg.num.named = true ∨
      (fmul s.cfg.num s.coeff.rvtime s.coeff.rvscale).isFinite = true ∧
      ∀ w < 2 ^ s.cfg.modFracBits, (ofFrac s.cfg.num w s.cfg.modFracBits).isFinite = true ∧
        (fsub s.cfg.num .one (ofFrac s.cfg.num w s.cfg.modFracBits)).isFinite = true) →
    ∀ o ∈ (runBlock s (List.replicate n (.zero, .zero))).2, o.1.isZero = true ∧ o.2.isZero = true

/-- R8: the rounding of `NUM_F32` is round to nearest even with gradual underflow, and its carrier is the binary32 values.
A finite pattern is one whose exponent field is not 0xFF. (1) What a finite pattern is worth: its sign bit, and the
magnitude its two fields give. (2) An exact value below `2^128 − 2^103` in magnitude, the midpoint between the largest finite
value and `2^128`, rounds to the value of a finite pattern of its own sign (of the sign asked for, when it is zero); no
finite pattern is worth a value closer to it; and where another value is as close, the result is the one whose pattern is
even. (3) Any other exact value rounds to the infinity of its sign. (4) The values of the carrier are those of the finite
patterns, the two infinities and the NaN. What IEEE 754 says of binary32 is general knowledge (notes/assumptions/10.md,
PRESUMED), and that the model has one NaN is its choice (notes/assumptions/3.md, DESIGN CHOICE). -/
def Obligations.RoundingIsToNearest : Prop :=
  (∀ w : BitVec 32, w.extractLsb' 23 8 ≠ 0xFF#8 →
    (ofF32Bits .f32 w).isFinite = true ∧ (ofF32Bits .f32 w).isNeg = w.getLsbD 31 ∧
    |(ofF32Bits .f32 w).val| =
      if w.extractLsb' 23 8 = 0#8 then ((w.extractLsb' 0 23).toNat : Rat) / 2 ^ 149
      else (2 ^ 23 + ((w.extractLsb' 0 23).toNat : Rat)) * 2 ^ (((w.extractLsb' 23 8).toNat : Int) - 150)) ∧
  (∀ (neg : Bool) (q : Rat), |q| < 2 ^ 128 - 2 ^ 103 →
    ∃ v : BitVec 32, v.extractLsb' 23 8 ≠ 0xFF#8 ∧ roundF32 neg q = ofF32Bits .f32 v ∧
      v.getLsbD 31 = (if q = 0 then neg else decide (q < 0)) ∧
      ∀ w : BitVec 32, w.extractLsb' 23 8 ≠ 0xFF#8 →
        |(roundF32 neg q).val - q| ≤ |(ofF32Bits .f32 w).val - q| ∧
        (|(roundF32 neg q).val - q| = |(ofF32Bits .f32 w).val - q| →
          (ofF32Bits .f32 w).val ≠ (roundF32 neg q).val → v.getLsbD 0 = false)) ∧
  (∀ (neg : Bool) (q : Rat), 2 ^ 128 - 2 ^ 103 ≤ |q| → roundF32 neg q = .inf (decide (q < 0))) ∧
  (∀ x : Sample, x.inCarrier .f32 = true ↔
    (∃ w : BitVec 32, w.extractLsb' 23 8 ≠ 0xFF#8 ∧ x = ofF32Bits .f32 w) ∨ (∃ n, x = .inf n) ∨ x = .nan)

/-! ### Invariants (10_state.md R26) -/

/-- R30, and R26, which 10_state.md marks derived: the reset state satisfies the invariant and holds only values of `S`, under every well-formed configuration;
so does the reset state of the interface, whose configuration is the model's choice (notes/assumptions/2.md). -/
def Obligations.ResetStateIsSound : Prop :=
  (∀ c : Config, c.wf = true → (State.resetOf c).sound = true ∧ (State.resetOf c).carrierOk = true) ∧
  State.reset.sound = true ∧ State.reset.carrierOk = true

/-- R26, which 10_state.md marks derived, with R12, R23: every step keeps the invariant, from every state that has it. -/
def Obligations.StepKeepsSoundness : Prop := ∀ s t : State, s.sound = true → step s = .next t → t.sound = true

/-- R8: every step keeps the state inside the carrier of its `NUM`; what the carrier of `NUM_F32` is, `RoundingIsToNearest`
states. -/
def Obligations.StepKeepsTheCarrier : Prop :=
  ∀ s t : State, s.sound = true → s.carrierOk = true → step s = .next t → t.carrierOk = true

/-- R190, R42: no step of a state that has the invariant raises a fault, and the only thing it can decline is a cycle whose
blocks no transaction can express (notes/assumptions/6.md). -/
def Obligations.SoundStatesNeverFault : Prop :=
  ∀ s : State, s.sound = true → (∀ f, step s ≠ .fault f) ∧
    ∀ r, step s = .refused r → r = .malformedBlock ∧ ∃ cd l r, Request.cycle cd l r ∈ s.inbox

/-- R190, and R26, which 10_state.md marks derived: over every well-formed configuration, every script of requests and every length of run, the run from reset
raises no fault and every state it reaches has the invariant. -/
def Obligations.RunsFromResetAreSafeAndSound : Prop :=
  ∀ (c : Config) (qs : List Request) (n : Nat), c.wf = true →
    safeRun n { State.resetOf c with inbox := qs } ∧
    ∀ t, Host.Core.run Sys2Proof.core n { State.resetOf c with inbox := qs } = .next t → t.sound = true
end

