-- ==== Sys2Proof/Laws/Memory.lean ====
section
/-! SUPPORT. The laws of a delay RAM: a read after a write, the other words, the canonical form and the capacity that every
write keeps. -/

namespace Sys2Proof.Machine

@[simp] theorem Memory.read_nil (i : Nat) : Memory.read [] i = .zero := rfl

theorem Memory.above_trans {a b : Nat} (h : a < b) : ∀ m : Memory, Memory.above b m = true → Memory.above a m = true := by
  intro m hm
  simp only [Memory.above, List.all_eq_true, decide_eq_true_eq] at hm ⊢
  exact fun e he => lt_trans h (hm e he)

/-- An index that every listed one is above reads as unlisted. -/
theorem Memory.read_of_above {i : Nat} : ∀ m : Memory, Memory.above i m = true → Memory.read m i = .zero
  | [], _ => rfl
  | (j, v) :: m, h => by
    simp only [Memory.above, List.all_cons, Bool.and_eq_true, decide_eq_true_eq] at h
    rw [Memory.read, if_neg (by omega)]
    exact Memory.read_of_above m h.2

/-- A word other than the written one reads as before. -/
theorem Memory.read_write_other {i k : Nat} (v : Sample) (hk : k ≠ i) :
    ∀ m : Memory, Memory.read (Memory.write m i v) k = Memory.read m k
  | [] => by
    rw [Memory.write]; split
    · rfl
    · simp [Memory.read, hk, Memory.unlisted]
  | (j, w) :: m => by
    rw [Memory.write]
    split_ifs with h1 h2 h3 h4
    · rfl
    · simp [Memory.read, hk]
    · subst h3; simp [Memory.read, hk]
    · subst h3; simp [Memory.read, hk]
    · simp [Memory.read, Memory.read_write_other v hk m]

/-- The written word reads as what was written, in a memory in canonical form. -/
theorem Memory.read_write_same {i : Nat} (v : Sample) :
    ∀ m : Memory, Memory.wf m = true → Memory.read (Memory.write m i v) i = v
  | [], _ => by
    rw [Memory.write]; split
    · next h => rw [h]; rfl
    · simp [Memory.read]
  | (j, w) :: m, h => by
    simp only [Memory.wf, Bool.and_eq_true, decide_eq_true_eq] at h
    rw [Memory.write]
    split_ifs with h1 h2 h3 h4
    · rw [h2, Memory.read, if_neg (by omega)]
      exact Memory.read_of_above m (Memory.above_trans h1 m h.1.2)
    · simp [Memory.read]
    · subst h3; rw [h4]; exact Memory.read_of_above m h.1.2
    · simp [Memory.read]
    · rw [Memory.read, if_neg h3]; exact Memory.read_write_same v m h.2

/-- What a write can list: the new entry, and entries that were there. -/
theorem Memory.mem_write {i : Nat} {v : Sample} {e : Nat × Sample} :
    ∀ {m : Memory}, e ∈ Memory.write m i v → e = (i, v) ∨ e ∈ m
  | [], h => by
    rw [Memory.write] at h
    split at h
    · exact .inr h
    · exact .inl (List.mem_singleton.mp h)
  | (j, w) :: m, h => by
    rw [Memory.write] at h
    split_ifs at h with h1 h2 h3 h4
    · exact .inr h
    · exact List.mem_cons.mp h
    · exact .inr (List.mem_cons_of_mem _ h)
    · exact (List.mem_cons.mp h).imp_right (List.mem_cons_of_mem _)
    · rcases List.mem_cons.mp h with h | h
      · exact .inr (h ▸ List.mem_cons_self)
      · exact (Memory.mem_write h).imp_right (List.mem_cons_of_mem _)

theorem Memory.above_write {b i : Nat} (v : Sample) (hb : b < i) (m : Memory) (h : Memory.above b m = true) :
    Memory.above b (Memory.write m i v) = true := by
  simp only [Memory.above, List.all_eq_true, decide_eq_true_eq] at h ⊢
  intro e he
  rcases Memory.mem_write he with rfl | he
  · exact hb
  · exact h e he

/-- A write keeps the canonical form. -/
theorem Memory.wf_write (i : Nat) (v : Sample) :
    ∀ m : Memory, Memory.wf m = true → Memory.wf (Memory.write m i v) = true
  | [], _ => by rw [Memory.write]; split <;> simp_all [Memory.wf, Memory.above]
  | (j, w) :: m, h => by
    have ih := Memory.wf_write i v m
    have hw := h
    simp only [Memory.wf, Bool.and_eq_true, decide_eq_true_eq] at h
    rw [Memory.write]
    split_ifs with h1 h2 h3 h4
    · exact hw
    · simp only [Memory.wf, Memory.above, List.all_cons, Bool.and_eq_true, decide_eq_true_eq]
      exact ⟨⟨h2, h1, Memory.above_trans h1 m h.1.2⟩, h⟩
    · exact h.2
    · simp only [Memory.wf, Bool.and_eq_true, decide_eq_true_eq]
      exact ⟨⟨h4, h3 ▸ h.1.2⟩, h.2⟩
    · simp only [Memory.wf, Bool.and_eq_true, decide_eq_true_eq]
      exact ⟨⟨h.1.1, Memory.above_write v (by omega) m h.1.2⟩, ih h.2⟩

/-- A write below the capacity keeps every listed index below it. -/
theorem Memory.below_write {len i : Nat} (v : Sample) (hi : i < len) (m : Memory) (h : Memory.below len m = true) :
    Memory.below len (Memory.write m i v) = true := by
  simp only [Memory.below, List.all_eq_true, decide_eq_true_eq] at h ⊢
  intro e he
  rcases Memory.mem_write he with rfl | he
  · exact hi
  · exact h e he

/-- Storing at the cursor keeps the canonical form and the capacity. -/
theorem DelayLine.memOk_store {len : Nat} {d : DelayLine} (x : Sample) (hc : d.cursorOk len = true)
    (h : d.memOk len = true) : (d.store len x).memOk len = true := by
  simp only [DelayLine.memOk, DelayLine.cursorOk, DelayLine.store, Bool.and_eq_true, decide_eq_true_eq] at *
  exact ⟨Memory.wf_write _ _ _ h.1, Memory.below_write _ hc _ h.2⟩

/-- Storing at the cursor leaves the cursor below the capacity. -/
theorem DelayLine.cursorOk_store {len : Nat} {d : DelayLine} (x : Sample) (hc : d.cursorOk len = true) :
    (d.store len x).cursorOk len = true := by
  exact decide_eq_true (Nat.mod_lt _ (Nat.zero_lt_of_lt (of_decide_eq_true hc)))

/-- Clearing gives the canonical form. -/
@[simp] theorem DelayLine.memOk_clear (len : Nat) (d : DelayLine) : d.clear.memOk len = true := rfl

@[simp] theorem DelayLine.cursorOk_clear (len : Nat) (d : DelayLine) : d.clear.cursorOk len = d.cursorOk len := rfl

/-- A RAM after reset is in canonical form. -/
@[simp] theorem DelayLine.memOk_reset (len : Nat) : DelayLine.reset.memOk len = true := rfl

/-- Every delay RAM is in the list of sixteen. -/
theorem Ram.mem_list : ∀ m : Ram, m ∈ Ram.list
  | .inap .L i => by fin_cases i <;> decide
  | .inap .R i => by fin_cases i <;> decide
  | .lap i => by fin_cases i <;> decide
  | .ldl i => by fin_cases i <;> decide

/-- What holds of every delay RAM, one RAM at a time. -/
theorem State.everyLine_iff (s : State) (f : Nat → DelayLine → Bool) :
    s.everyLine f = true ↔ ∀ m : Ram, f (ramCap s.cfg m) (s.line m) = true := by
  simp only [State.everyLine, List.all_eq_true]
  exact ⟨fun h m => h m (Ram.mem_list m), fun h m _ => h m⟩

end Sys2Proof.Machine
end

