-- ==== Sys2Proof/Laws/State.lean ====
section
/-! SUPPORT. One lemma for each field and each shared update of the state: what the field holds afterwards. -/

namespace Sys2Proof.Machine

@[simp] theorem freezeEnter_cfg (s : State) : (freezeEnter s).cfg = s.cfg := rfl
@[simp] theorem freezeEnter_inap (s : State) : (freezeEnter s).inap = s.inap := rfl
@[simp] theorem freezeEnter_lap (s : State) : (freezeEnter s).lap = s.lap := rfl
@[simp] theorem freezeEnter_ldl (s : State) : (freezeEnter s).ldl = s.ldl := rfl
@[simp] theorem freezeEnter_lpfSt (s : State) : (freezeEnter s).lpfSt = s.lpfSt := rfl
@[simp] theorem freezeEnter_hpfSt (s : State) : (freezeEnter s).hpfSt = s.hpfSt := rfl
@[simp] theorem freezeEnter_loopOut (s : State) : (freezeEnter s).loopOut = s.loopOut := rfl
@[simp] theorem freezeEnter_mlp (s : State) : (freezeEnter s).mlp = s.mlp := rfl
@[simp] theorem freezeEnter_lfoAcc (s : State) : (freezeEnter s).lfoAcc = s.lfoAcc := rfl
@[simp] theorem freezeEnter_coeff (s : State) :
    (freezeEnter s).coeff = { s.coeff with rvtime := .one, inattn := .zero, lodamp := .zero, hidamp := .one, rvscale := .one } := rfl
@[simp] theorem freezeEnter_lfoInc (s : State) : (freezeEnter s).lfoInc = s.lfoInc := rfl
@[simp] theorem freezeEnter_snap (s : State) :
    (freezeEnter s).snap = ⟨s.coeff.rvtime, s.coeff.lodamp, s.coeff.hidamp, s.coeff.inattn, s.coeff.rvscale⟩ := rfl
@[simp] theorem freezeEnter_bypass (s : State) : (freezeEnter s).bypass = s.bypass := rfl
@[simp] theorem freezeEnter_freeze (s : State) : (freezeEnter s).freeze = true := rfl
@[simp] theorem freezeEnter_hold (s : State) : (freezeEnter s).hold = s.hold := rfl
@[simp] theorem freezeEnter_cleanupDone (s : State) : (freezeEnter s).cleanupDone = s.cleanupDone := rfl
@[simp] theorem freezeEnter_inbox (s : State) : (freezeEnter s).inbox = s.inbox := rfl
@[simp] theorem freezeEnter_audioIn (s : State) : (freezeEnter s).audioIn = s.audioIn := rfl
@[simp] theorem freezeEnter_replies (s : State) : (freezeEnter s).replies = s.replies := rfl

@[simp] theorem freezeExit_cfg (s : State) : (freezeExit s).cfg = s.cfg := rfl
@[simp] theorem freezeExit_inap (s : State) : (freezeExit s).inap = s.inap := rfl
@[simp] theorem freezeExit_lap (s : State) : (freezeExit s).lap = s.lap := rfl
@[simp] theorem freezeExit_ldl (s : State) : (freezeExit s).ldl = s.ldl := rfl
@[simp] theorem freezeExit_lpfSt (s : State) : (freezeExit s).lpfSt = s.lpfSt := rfl
@[simp] theorem freezeExit_hpfSt (s : State) : (freezeExit s).hpfSt = s.hpfSt := rfl
@[simp] theorem freezeExit_loopOut (s : State) : (freezeExit s).loopOut = s.loopOut := rfl
@[simp] theorem freezeExit_mlp (s : State) : (freezeExit s).mlp = s.mlp := rfl
@[simp] theorem freezeExit_lfoAcc (s : State) : (freezeExit s).lfoAcc = s.lfoAcc := rfl
@[simp] theorem freezeExit_coeff (s : State) :
    (freezeExit s).coeff = { s.coeff with rvtime := s.snap.rvtime, lodamp := s.snap.lodamp, hidamp := s.snap.hidamp, inattn := s.snap.inattn, rvscale := s.snap.rvscale } := rfl
@[simp] theorem freezeExit_lfoInc (s : State) : (freezeExit s).lfoInc = s.lfoInc := rfl
@[simp] theorem freezeExit_snap (s : State) : (freezeExit s).snap = s.snap := rfl
@[simp] theorem freezeExit_bypass (s : State) : (freezeExit s).bypass = s.bypass := rfl
@[simp] theorem freezeExit_freeze (s : State) : (freezeExit s).freeze = false := rfl
@[simp] theorem freezeExit_hold (s : State) : (freezeExit s).hold = s.hold := rfl
@[simp] theorem freezeExit_cleanupDone (s : State) : (freezeExit s).cleanupDone = s.cleanupDone := rfl
@[simp] theorem freezeExit_inbox (s : State) : (freezeExit s).inbox = s.inbox := rfl
@[simp] theorem freezeExit_audioIn (s : State) : (freezeExit s).audioIn = s.audioIn := rfl
@[simp] theorem freezeExit_replies (s : State) : (freezeExit s).replies = s.replies := rfl

@[simp] theorem reply_cfg (s : State) (r : Reply) : (s.reply r).cfg = s.cfg := rfl
@[simp] theorem reply_inap (s : State) (r : Reply) : (s.reply r).inap = s.inap := rfl
@[simp] theorem reply_lap (s : State) (r : Reply) : (s.reply r).lap = s.lap := rfl
@[simp] theorem reply_ldl (s : State) (r : Reply) : (s.reply r).ldl = s.ldl := rfl
@[simp] theorem reply_lpfSt (s : State) (r : Reply) : (s.reply r).lpfSt = s.lpfSt := rfl
@[simp] theorem reply_hpfSt (s : State) (r : Reply) : (s.reply r).hpfSt = s.hpfSt := rfl
@[simp] theorem reply_loopOut (s : State) (r : Reply) : (s.reply r).loopOut = s.loopOut := rfl
@[simp] theorem reply_mlp (s : State) (r : Reply) : (s.reply r).mlp = s.mlp := rfl
@[simp] theorem reply_lfoAcc (s : State) (r : Reply) : (s.reply r).lfoAcc = s.lfoAcc := rfl
@[simp] theorem reply_coeff (s : State) (r : Reply) : (s.reply r).coeff = s.coeff := rfl
@[simp] theorem reply_lfoInc (s : State) (r : Reply) : (s.reply r).lfoInc = s.lfoInc := rfl
@[simp] theorem reply_snap (s : State) (r : Reply) : (s.reply r).snap = s.snap := rfl
@[simp] theorem reply_bypass (s : State) (r : Reply) : (s.reply r).bypass = s.bypass := rfl
@[simp] theorem reply_freeze (s : State) (r : Reply) : (s.reply r).freeze = s.freeze := rfl
@[simp] theorem reply_hold (s : State) (r : Reply) : (s.reply r).hold = s.hold := rfl
@[simp] theorem reply_cleanupDone (s : State) (r : Reply) : (s.reply r).cleanupDone = s.cleanupDone := rfl
@[simp] theorem reply_inbox (s : State) (r : Reply) : (s.reply r).inbox = s.inbox := rfl
@[simp] theorem reply_audioIn (s : State) (r : Reply) : (s.reply r).audioIn = s.audioIn := rfl
@[simp] theorem reply_replies (s : State) (r : Reply) : (s.reply r).replies = s.replies ++ [r] := rfl

@[simp] theorem endCycle_cfg (s : State) (o : Option (Stereo Block)) : (s.endCycle o).cfg = s.cfg := rfl
@[simp] theorem endCycle_inap (s : State) (o : Option (Stereo Block)) : (s.endCycle o).inap = s.inap := rfl
@[simp] theorem endCycle_lap (s : State) (o : Option (Stereo Block)) : (s.endCycle o).lap = s.lap := rfl
@[simp] theorem endCycle_ldl (s : State) (o : Option (Stereo Block)) : (s.endCycle o).ldl = s.ldl := rfl
@[simp] theorem endCycle_lpfSt (s : State) (o : Option (Stereo Block)) : (s.endCycle o).lpfSt = s.lpfSt := rfl
@[simp] theorem endCycle_hpfSt (s : State) (o : Option (Stereo Block)) : (s.endCycle o).hpfSt = s.hpfSt := rfl
@[simp] theorem endCycle_loopOut (s : State) (o : Option (Stereo Block)) : (s.endCycle o).loopOut = s.loopOut := rfl
@[simp] theorem endCycle_mlp (s : State) (o : Option (Stereo Block)) : (s.endCycle o).mlp = s.mlp := rfl
@[simp] theorem endCycle_lfoAcc (s : State) (o : Option (Stereo Block)) : (s.endCycle o).lfoAcc = s.lfoAcc := rfl
@[simp] theorem endCycle_coeff (s : State) (o : Option (Stereo Block)) : (s.endCycle o).coeff = s.coeff := rfl
@[simp] theorem endCycle_lfoInc (s : State) (o : Option (Stereo Block)) : (s.endCycle o).lfoInc = s.lfoInc := rfl
@[simp] theorem endCycle_snap (s : State) (o : Option (Stereo Block)) : (s.endCycle o).snap = s.snap := rfl
@[simp] theorem endCycle_bypass (s : State) (o : Option (Stereo Block)) : (s.endCycle o).bypass = s.bypass := rfl
@[simp] theorem endCycle_freeze (s : State) (o : Option (Stereo Block)) : (s.endCycle o).freeze = s.freeze := rfl
@[simp] theorem endCycle_hold (s : State) (o : Option (Stereo Block)) : (s.endCycle o).hold = s.hold := rfl
@[simp] theorem endCycle_cleanupDone (s : State) (o : Option (Stereo Block)) :
    (s.endCycle o).cleanupDone = s.cleanupDone := rfl
@[simp] theorem endCycle_inbox (s : State) (o : Option (Stereo Block)) : (s.endCycle o).inbox = s.inbox := rfl
@[simp] theorem endCycle_audioIn (s : State) (o : Option (Stereo Block)) : (s.endCycle o).audioIn = ⟨[], []⟩ := rfl
@[simp] theorem endCycle_replies (s : State) (o : Option (Stereo Block)) :
    (s.endCycle o).replies = s.replies ++ [.audio o] := rfl

@[simp] theorem lfoTick_cfg (s : State) (u : Fin 2) : (lfoTick s u).cfg = s.cfg := rfl
@[simp] theorem lfoTick_inap (s : State) (u : Fin 2) : (lfoTick s u).inap = s.inap := rfl
@[simp] theorem lfoTick_lap (s : State) (u : Fin 2) : (lfoTick s u).lap = s.lap := rfl
@[simp] theorem lfoTick_ldl (s : State) (u : Fin 2) : (lfoTick s u).ldl = s.ldl := rfl
@[simp] theorem lfoTick_lpfSt (s : State) (u : Fin 2) : (lfoTick s u).lpfSt = s.lpfSt := rfl
@[simp] theorem lfoTick_hpfSt (s : State) (u : Fin 2) : (lfoTick s u).hpfSt = s.hpfSt := rfl
@[simp] theorem lfoTick_loopOut (s : State) (u : Fin 2) : (lfoTick s u).loopOut = s.loopOut := rfl
@[simp] theorem lfoTick_mlp (s : State) (u : Fin 2) : (lfoTick s u).mlp = s.mlp := rfl
@[simp] theorem lfoTick_lfoAcc (s : State) (u : Fin 2) :
    (lfoTick s u).lfoAcc = s.lfoAcc.set u (s.lfoAcc.get u + s.lfoInc.get u) := rfl
@[simp] theorem lfoTick_coeff (s : State) (u : Fin 2) : (lfoTick s u).coeff = s.coeff := rfl
@[simp] theorem lfoTick_lfoInc (s : State) (u : Fin 2) : (lfoTick s u).lfoInc = s.lfoInc := rfl
@[simp] theorem lfoTick_snap (s : State) (u : Fin 2) : (lfoTick s u).snap = s.snap := rfl
@[simp] theorem lfoTick_bypass (s : State) (u : Fin 2) : (lfoTick s u).bypass = s.bypass := rfl
@[simp] theorem lfoTick_freeze (s : State) (u : Fin 2) : (lfoTick s u).freeze = s.freeze := rfl
@[simp] theorem lfoTick_hold (s : State) (u : Fin 2) : (lfoTick s u).hold = s.hold := rfl
@[simp] theorem lfoTick_cleanupDone (s : State) (u : Fin 2) : (lfoTick s u).cleanupDone = s.cleanupDone := rfl
@[simp] theorem lfoTick_inbox (s : State) (u : Fin 2) : (lfoTick s u).inbox = s.inbox := rfl
@[simp] theorem lfoTick_audioIn (s : State) (u : Fin 2) : (lfoTick s u).audioIn = s.audioIn := rfl
@[simp] theorem lfoTick_replies (s : State) (u : Fin 2) : (lfoTick s u).replies = s.replies := rfl

@[simp] theorem cleanup_cfg (s : State) : (cleanup s).cfg = s.cfg := rfl
@[simp] theorem cleanup_lpfSt (s : State) : (cleanup s).lpfSt = .all .zero := rfl
@[simp] theorem cleanup_hpfSt (s : State) : (cleanup s).hpfSt = .all .zero := rfl
@[simp] theorem cleanup_loopOut (s : State) : (cleanup s).loopOut = .zero := rfl
@[simp] theorem cleanup_mlp (s : State) : (cleanup s).mlp = ⟨.zero, .zero⟩ := rfl
@[simp] theorem cleanup_lfoAcc (s : State) : (cleanup s).lfoAcc = s.lfoAcc := rfl
@[simp] theorem cleanup_coeff (s : State) : (cleanup s).coeff = s.coeff := rfl
@[simp] theorem cleanup_lfoInc (s : State) : (cleanup s).lfoInc = s.lfoInc := rfl
@[simp] theorem cleanup_snap (s : State) : (cleanup s).snap = s.snap := rfl
@[simp] theorem cleanup_bypass (s : State) : (cleanup s).bypass = s.bypass := rfl
@[simp] theorem cleanup_freeze (s : State) : (cleanup s).freeze = s.freeze := rfl
@[simp] theorem cleanup_hold (s : State) : (cleanup s).hold = s.hold := rfl
@[simp] theorem cleanup_cleanupDone (s : State) : (cleanup s).cleanupDone = s.cleanupDone := rfl
@[simp] theorem cleanup_inbox (s : State) : (cleanup s).inbox = s.inbox := rfl
@[simp] theorem cleanup_audioIn (s : State) : (cleanup s).audioIn = s.audioIn := rfl
@[simp] theorem cleanup_replies (s : State) : (cleanup s).replies = s.replies := rfl

@[simp] theorem inapStep_cfg (c : Chan) (i : Fin 4) (r : State × Sample) : (inapStep c i r).1.cfg = r.1.cfg := rfl
@[simp] theorem inapStep_lap (c : Chan) (i : Fin 4) (r : State × Sample) : (inapStep c i r).1.lap = r.1.lap := rfl
@[simp] theorem inapStep_ldl (c : Chan) (i : Fin 4) (r : State × Sample) : (inapStep c i r).1.ldl = r.1.ldl := rfl
@[simp] theorem inapStep_lpfSt (c : Chan) (i : Fin 4) (r : State × Sample) : (inapStep c i r).1.lpfSt = r.1.lpfSt := rfl
@[simp] theorem inapStep_hpfSt (c : Chan) (i : Fin 4) (r : State × Sample) : (inapStep c i r).1.hpfSt = r.1.hpfSt := rfl
@[simp] theorem inapStep_loopOut (c : Chan) (i : Fin 4) (r : State × Sample) :
    (inapStep c i r).1.loopOut = r.1.loopOut := rfl
@[simp] theorem inapStep_mlp (c : Chan) (i : Fin 4) (r : State × Sample) : (inapStep c i r).1.mlp = r.1.mlp := rfl
@[simp] theorem inapStep_lfoAcc (c : Chan) (i : Fin 4) (r : State × Sample) :
    (inapStep c i r).1.lfoAcc = r.1.lfoAcc := rfl
@[simp] theorem inapStep_coeff (c : Chan) (i : Fin 4) (r : State × Sample) : (inapStep c i r).1.coeff = r.1.coeff := rfl
@[simp] theorem inapStep_lfoInc (c : Chan) (i : Fin 4) (r : State × Sample) :
    (inapStep c i r).1.lfoInc = r.1.lfoInc := rfl
@[simp] theorem inapStep_snap (c : Chan) (i : Fin 4) (r : State × Sample) : (inapStep c i r).1.snap = r.1.snap := rfl
@[simp] theorem inapStep_bypass (c : Chan) (i : Fin 4) (r : State × Sample) :
    (inapStep c i r).1.bypass = r.1.bypass := rfl
@[simp] theorem inapStep_freeze (c : Chan) (i : Fin 4) (r : State × Sample) :
    (inapStep c i r).1.freeze = r.1.freeze := rfl
@[simp] theorem inapStep_hold (c : Chan) (i : Fin 4) (r : State × Sample) : (inapStep c i r).1.hold = r.1.hold := rfl
@[simp] theorem inapStep_cleanupDone (c : Chan) (i : Fin 4) (r : State × Sample) :
    (inapStep c i r).1.cleanupDone = r.1.cleanupDone := rfl
@[simp] theorem inapStep_inbox (c : Chan) (i : Fin 4) (r : State × Sample) : (inapStep c i r).1.inbox = r.1.inbox := rfl
@[simp] theorem inapStep_audioIn (c : Chan) (i : Fin 4) (r : State × Sample) :
    (inapStep c i r).1.audioIn = r.1.audioIn := rfl
@[simp] theorem inapStep_replies (c : Chan) (i : Fin 4) (r : State × Sample) :
    (inapStep c i r).1.replies = r.1.replies := rfl

@[simp] theorem lapStep_cfg (i : Fin 4) (r : State × Sample) : (lapStep i r).1.cfg = r.1.cfg := rfl
@[simp] theorem lapStep_inap (i : Fin 4) (r : State × Sample) : (lapStep i r).1.inap = r.1.inap := rfl
@[simp] theorem lapStep_ldl (i : Fin 4) (r : State × Sample) : (lapStep i r).1.ldl = r.1.ldl := rfl
@[simp] theorem lapStep_lpfSt (i : Fin 4) (r : State × Sample) : (lapStep i r).1.lpfSt = r.1.lpfSt := rfl
@[simp] theorem lapStep_hpfSt (i : Fin 4) (r : State × Sample) : (lapStep i r).1.hpfSt = r.1.hpfSt := rfl
@[simp] theorem lapStep_loopOut (i : Fin 4) (r : State × Sample) : (lapStep i r).1.loopOut = r.1.loopOut := rfl
@[simp] theorem lapStep_mlp (i : Fin 4) (r : State × Sample) : (lapStep i r).1.mlp = r.1.mlp := rfl
@[simp] theorem lapStep_lfoAcc (i : Fin 4) (r : State × Sample) : (lapStep i r).1.lfoAcc = r.1.lfoAcc := rfl
@[simp] theorem lapStep_coeff (i : Fin 4) (r : State × Sample) : (lapStep i r).1.coeff = r.1.coeff := rfl
@[simp] theorem lapStep_lfoInc (i : Fin 4) (r : State × Sample) : (lapStep i r).1.lfoInc = r.1.lfoInc := rfl
@[simp] theorem lapStep_snap (i : Fin 4) (r : State × Sample) : (lapStep i r).1.snap = r.1.snap := rfl
@[simp] theorem lapStep_bypass (i : Fin 4) (r : State × Sample) : (lapStep i r).1.bypass = r.1.bypass := rfl
@[simp] theorem lapStep_freeze (i : Fin 4) (r : State × Sample) : (lapStep i r).1.freeze = r.1.freeze := rfl
@[simp] theorem lapStep_hold (i : Fin 4) (r : State × Sample) : (lapStep i r).1.hold = r.1.hold := rfl
@[simp] theorem lapStep_cleanupDone (i : Fin 4) (r : State × Sample) :
    (lapStep i r).1.cleanupDone = r.1.cleanupDone := rfl
@[simp] theorem lapStep_inbox (i : Fin 4) (r : State × Sample) : (lapStep i r).1.inbox = r.1.inbox := rfl
@[simp] theorem lapStep_audioIn (i : Fin 4) (r : State × Sample) : (lapStep i r).1.audioIn = r.1.audioIn := rfl
@[simp] theorem lapStep_replies (i : Fin 4) (r : State × Sample) : (lapStep i r).1.replies = r.1.replies := rfl

@[simp] theorem dlyStep_cfg (i : Fin 4) (r : State × Sample) : (dlyStep i r).1.cfg = r.1.cfg := rfl
@[simp] theorem dlyStep_inap (i : Fin 4) (r : State × Sample) : (dlyStep i r).1.inap = r.1.inap := rfl
@[simp] theorem dlyStep_lap (i : Fin 4) (r : State × Sample) : (dlyStep i r).1.lap = r.1.lap := rfl
@[simp] theorem dlyStep_ldl (i : Fin 4) (r : State × Sample) :
    (dlyStep i r).1.ldl = r.1.ldl.set i ((r.1.ldl.get i).store (r.1.cfg.lenLdl.get i) r.2) := rfl
@[simp] theorem dlyStep_lpfSt (i : Fin 4) (r : State × Sample) : (dlyStep i r).1.lpfSt = r.1.lpfSt := rfl
@[simp] theorem dlyStep_hpfSt (i : Fin 4) (r : State × Sample) : (dlyStep i r).1.hpfSt = r.1.hpfSt := rfl
@[simp] theorem dlyStep_loopOut (i : Fin 4) (r : State × Sample) : (dlyStep i r).1.loopOut = r.1.loopOut := rfl
@[simp] theorem dlyStep_mlp (i : Fin 4) (r : State × Sample) : (dlyStep i r).1.mlp = r.1.mlp := rfl
@[simp] theorem dlyStep_lfoAcc (i : Fin 4) (r : State × Sample) : (dlyStep i r).1.lfoAcc = r.1.lfoAcc := rfl
@[simp] theorem dlyStep_coeff (i : Fin 4) (r : State × Sample) : (dlyStep i r).1.coeff = r.1.coeff := rfl
@[simp] theorem dlyStep_lfoInc (i : Fin 4) (r : State × Sample) : (dlyStep i r).1.lfoInc = r.1.lfoInc := rfl
@[simp] theorem dlyStep_snap (i : Fin 4) (r : State × Sample) : (dlyStep i r).1.snap = r.1.snap := rfl
@[simp] theorem dlyStep_bypass (i : Fin 4) (r : State × Sample) : (dlyStep i r).1.bypass = r.1.bypass := rfl
@[simp] theorem dlyStep_freeze (i : Fin 4) (r : State × Sample) : (dlyStep i r).1.freeze = r.1.freeze := rfl
@[simp] theorem dlyStep_hold (i : Fin 4) (r : State × Sample) : (dlyStep i r).1.hold = r.1.hold := rfl
@[simp] theorem dlyStep_cleanupDone (i : Fin 4) (r : State × Sample) :
    (dlyStep i r).1.cleanupDone = r.1.cleanupDone := rfl
@[simp] theorem dlyStep_inbox (i : Fin 4) (r : State × Sample) : (dlyStep i r).1.inbox = r.1.inbox := rfl
@[simp] theorem dlyStep_audioIn (i : Fin 4) (r : State × Sample) : (dlyStep i r).1.audioIn = r.1.audioIn := rfl
@[simp] theorem dlyStep_replies (i : Fin 4) (r : State × Sample) : (dlyStep i r).1.replies = r.1.replies := rfl

@[simp] theorem dampStep_cfg (i : Fin 4) (r : State × Sample) : (dampStep i r).1.cfg = r.1.cfg := rfl
@[simp] theorem dampStep_inap (i : Fin 4) (r : State × Sample) : (dampStep i r).1.inap = r.1.inap := rfl
@[simp] theorem dampStep_lap (i : Fin 4) (r : State × Sample) : (dampStep i r).1.lap = r.1.lap := rfl
@[simp] theorem dampStep_ldl (i : Fin 4) (r : State × Sample) : (dampStep i r).1.ldl = r.1.ldl := rfl
@[simp] theorem dampStep_loopOut (i : Fin 4) (r : State × Sample) : (dampStep i r).1.loopOut = r.1.loopOut := rfl
@[simp] theorem dampStep_mlp (i : Fin 4) (r : State × Sample) : (dampStep i r).1.mlp = r.1.mlp := rfl
@[simp] theorem dampStep_lfoAcc (i : Fin 4) (r : State × Sample) : (dampStep i r).1.lfoAcc = r.1.lfoAcc := rfl
@[simp] theorem dampStep_coeff (i : Fin 4) (r : State × Sample) : (dampStep i r).1.coeff = r.1.coeff := rfl
@[simp] theorem dampStep_lfoInc (i : Fin 4) (r : State × Sample) : (dampStep i r).1.lfoInc = r.1.lfoInc := rfl
@[simp] theorem dampStep_snap (i : Fin 4) (r : State × Sample) : (dampStep i r).1.snap = r.1.snap := rfl
@[simp] theorem dampStep_bypass (i : Fin 4) (r : State × Sample) : (dampStep i r).1.bypass = r.1.bypass := rfl
@[simp] theorem dampStep_freeze (i : Fin 4) (r : State × Sample) : (dampStep i r).1.freeze = r.1.freeze := rfl
@[simp] theorem dampStep_hold (i : Fin 4) (r : State × Sample) : (dampStep i r).1.hold = r.1.hold := rfl
@[simp] theorem dampStep_cleanupDone (i : Fin 4) (r : State × Sample) :
    (dampStep i r).1.cleanupDone = r.1.cleanupDone := rfl
@[simp] theorem dampStep_inbox (i : Fin 4) (r : State × Sample) : (dampStep i r).1.inbox = r.1.inbox := rfl
@[simp] theorem dampStep_audioIn (i : Fin 4) (r : State × Sample) : (dampStep i r).1.audioIn = r.1.audioIn := rfl
@[simp] theorem dampStep_replies (i : Fin 4) (r : State × Sample) : (dampStep i r).1.replies = r.1.replies := rfl

@[simp] theorem mlpStep_cfg (s : State) (c : Chan) (m : Sample) : (mlpStep s c m).1.cfg = s.cfg := rfl
@[simp] theorem mlpStep_inap (s : State) (c : Chan) (m : Sample) : (mlpStep s c m).1.inap = s.inap := rfl
@[simp] theorem mlpStep_lap (s : State) (c : Chan) (m : Sample) : (mlpStep s c m).1.lap = s.lap := rfl
@[simp] theorem mlpStep_ldl (s : State) (c : Chan) (m : Sample) : (mlpStep s c m).1.ldl = s.ldl := rfl
@[simp] theorem mlpStep_lpfSt (s : State) (c : Chan) (m : Sample) : (mlpStep s c m).1.lpfSt = s.lpfSt := rfl
@[simp] theorem mlpStep_hpfSt (s : State) (c : Chan) (m : Sample) : (mlpStep s c m).1.hpfSt = s.hpfSt := rfl
@[simp] theorem mlpStep_loopOut (s : State) (c : Chan) (m : Sample) : (mlpStep s c m).1.loopOut = s.loopOut := rfl
@[simp] theorem mlpStep_lfoAcc (s : State) (c : Chan) (m : Sample) : (mlpStep s c m).1.lfoAcc = s.lfoAcc := rfl
@[simp] theorem mlpStep_coeff (s : State) (c : Chan) (m : Sample) : (mlpStep s c m).1.coeff = s.coeff := rfl
@[simp] theorem mlpStep_lfoInc (s : State) (c : Chan) (m : Sample) : (mlpStep s c m).1.lfoInc = s.lfoInc := rfl
@[simp] theorem mlpStep_snap (s : State) (c : Chan) (m : Sample) : (mlpStep s c m).1.snap = s.snap := rfl
@[simp] theorem mlpStep_bypass (s : State) (c : Chan) (m : Sample) : (mlpStep s c m).1.bypass = s.bypass := rfl
@[simp] theorem mlpStep_freeze (s : State) (c : Chan) (m : Sample) : (mlpStep s c m).1.freeze = s.freeze := rfl
@[simp] theorem mlpStep_hold (s : State) (c : Chan) (m : Sample) : (mlpStep s c m).1.hold = s.hold := rfl
@[simp] theorem mlpStep_cleanupDone (s : State) (c : Chan) (m : Sample) :
    (mlpStep s c m).1.cleanupDone = s.cleanupDone := rfl
@[simp] theorem mlpStep_inbox (s : State) (c : Chan) (m : Sample) : (mlpStep s c m).1.inbox = s.inbox := rfl
@[simp] theorem mlpStep_audioIn (s : State) (c : Chan) (m : Sample) : (mlpStep s c m).1.audioIn = s.audioIn := rfl
@[simp] theorem mlpStep_replies (s : State) (c : Chan) (m : Sample) : (mlpStep s c m).1.replies = s.replies := rfl

@[simp] theorem resetAll_cfg (s : State) : (resetAll s).cfg = s.cfg := rfl
@[simp] theorem resetAll_inap (s : State) : (resetAll s).inap = (State.resetOf s.cfg).inap := rfl
@[simp] theorem resetAll_lap (s : State) : (resetAll s).lap = (State.resetOf s.cfg).lap := rfl
@[simp] theorem resetAll_ldl (s : State) : (resetAll s).ldl = (State.resetOf s.cfg).ldl := rfl
@[simp] theorem resetAll_lpfSt (s : State) : (resetAll s).lpfSt = (State.resetOf s.cfg).lpfSt := rfl
@[simp] theorem resetAll_hpfSt (s : State) : (resetAll s).hpfSt = (State.resetOf s.cfg).hpfSt := rfl
@[simp] theorem resetAll_loopOut (s : State) : (resetAll s).loopOut = (State.resetOf s.cfg).loopOut := rfl
@[simp] theorem resetAll_mlp (s : State) : (resetAll s).mlp = (State.resetOf s.cfg).mlp := rfl
@[simp] theorem resetAll_lfoAcc (s : State) : (resetAll s).lfoAcc = (State.resetOf s.cfg).lfoAcc := rfl
@[simp] theorem resetAll_coeff (s : State) : (resetAll s).coeff = (State.resetOf s.cfg).coeff := rfl
@[simp] theorem resetAll_lfoInc (s : State) : (resetAll s).lfoInc = (State.resetOf s.cfg).lfoInc := rfl
@[simp] theorem resetAll_snap (s : State) : (resetAll s).snap = (State.resetOf s.cfg).snap := rfl
@[simp] theorem resetAll_bypass (s : State) : (resetAll s).bypass = (State.resetOf s.cfg).bypass := rfl
@[simp] theorem resetAll_freeze (s : State) : (resetAll s).freeze = (State.resetOf s.cfg).freeze := rfl
@[simp] theorem resetAll_hold (s : State) : (resetAll s).hold = (State.resetOf s.cfg).hold := rfl
@[simp] theorem resetAll_cleanupDone (s : State) : (resetAll s).cleanupDone = (State.resetOf s.cfg).cleanupDone := rfl
@[simp] theorem resetAll_inbox (s : State) : (resetAll s).inbox = s.inbox := rfl
@[simp] theorem resetAll_audioIn (s : State) : (resetAll s).audioIn = s.audioIn := rfl
@[simp] theorem resetAll_replies (s : State) : (resetAll s).replies = s.replies := rfl

end Sys2Proof.Machine
end

