-- ==== Sys2Proof/Laws/Datapath.lean ====
section
/-! SUPPORT. What the composed datapath operations leave alone and what they keep: one lemma for each operation, from the
lemmas of its parts. -/

namespace Sys2Proof.Machine

/-! ### One lemma for each field a composed operation leaves alone -/

@[simp] theorem apChain_cfg (c : Chan) (s : State) (x : Sample) : (apChain c s x).1.cfg = s.cfg := by simp [apChain]
@[simp] theorem apChain_lap (c : Chan) (s : State) (x : Sample) : (apChain c s x).1.lap = s.lap := by simp [apChain]
@[simp] theorem apChain_ldl (c : Chan) (s : State) (x : Sample) : (apChain c s x).1.ldl = s.ldl := by simp [apChain]
@[simp] theorem apChain_lpfSt (c : Chan) (s : State) (x : Sample) : (apChain c s x).1.lpfSt = s.lpfSt :=
  by simp [apChain]
@[simp] theorem apChain_hpfSt (c : Chan) (s : State) (x : Sample) : (apChain c s x).1.hpfSt = s.hpfSt :=
  by simp [apChain]
@[simp] theorem apChain_loopOut (c : Chan) (s : State) (x : Sample) : (apChain c s x).1.loopOut = s.loopOut :=
  by simp [apChain]
@[simp] theorem apChain_mlp (c : Chan) (s : State) (x : Sample) : (apChain c s x).1.mlp = s.mlp := by simp [apChain]
@[simp] theorem apChain_lfoAcc (c : Chan) (s : State) (x : Sample) : (apChain c s x).1.lfoAcc = s.lfoAcc :=
  by simp [apChain]
@[simp] theorem apChain_coeff (c : Chan) (s : State) (x : Sample) : (apChain c s x).1.coeff = s.coeff :=
  by simp [apChain]
@[simp] theorem apChain_lfoInc (c : Chan) (s : State) (x : Sample) : (apChain c s x).1.lfoInc = s.lfoInc :=
  by simp [apChain]
@[simp] theorem apChain_snap (c : Chan) (s : State) (x : Sample) : (apChain c s x).1.snap = s.snap := by simp [apChain]
@[simp] theorem apChain_bypass (c : Chan) (s : State) (x : Sample) : (apChain c s x).1.bypass = s.bypass :=
  by simp [apChain]
@[simp] theorem apChain_freeze (c : Chan) (s : State) (x : Sample) : (apChain c s x).1.freeze = s.freeze :=
  by simp [apChain]
@[simp] theorem apChain_hold (c : Chan) (s : State) (x : Sample) : (apChain c s x).1.hold = s.hold := by simp [apChain]
@[simp] theorem apChain_cleanupDone (c : Chan) (s : State) (x : Sample) : (apChain c s x).1.cleanupDone = s.cleanupDone :=
  by simp [apChain]
@[simp] theorem apChain_inbox (c : Chan) (s : State) (x : Sample) : (apChain c s x).1.inbox = s.inbox :=
  by simp [apChain]
@[simp] theorem apChain_audioIn (c : Chan) (s : State) (x : Sample) : (apChain c s x).1.audioIn = s.audioIn :=
  by simp [apChain]
@[simp] theorem apChain_replies (c : Chan) (s : State) (x : Sample) : (apChain c s x).1.replies = s.replies :=
  by simp [apChain]

@[simp] theorem loopStage_cfg (i : Fin 4) (r : State × Sample) : (loopStage i r).1.cfg = r.1.cfg := by simp [loopStage]
@[simp] theorem loopStage_inap (i : Fin 4) (r : State × Sample) : (loopStage i r).1.inap = r.1.inap :=
  by simp [loopStage]
@[simp] theorem loopStage_loopOut (i : Fin 4) (r : State × Sample) : (loopStage i r).1.loopOut = r.1.loopOut :=
  by simp [loopStage]
@[simp] theorem loopStage_mlp (i : Fin 4) (r : State × Sample) : (loopStage i r).1.mlp = r.1.mlp := by simp [loopStage]
@[simp] theorem loopStage_lfoAcc (i : Fin 4) (r : State × Sample) : (loopStage i r).1.lfoAcc = r.1.lfoAcc :=
  by simp [loopStage]
@[simp] theorem loopStage_coeff (i : Fin 4) (r : State × Sample) : (loopStage i r).1.coeff = r.1.coeff :=
  by simp [loopStage]
@[simp] theorem loopStage_lfoInc (i : Fin 4) (r : State × Sample) : (loopStage i r).1.lfoInc = r.1.lfoInc :=
  by simp [loopStage]
@[simp] theorem loopStage_snap (i : Fin 4) (r : State × Sample) : (loopStage i r).1.snap = r.1.snap :=
  by simp [loopStage]
@[simp] theorem loopStage_bypass (i : Fin 4) (r : State × Sample) : (loopStage i r).1.bypass = r.1.bypass :=
  by simp [loopStage]
@[simp] theorem loopStage_freeze (i : Fin 4) (r : State × Sample) : (loopStage i r).1.freeze = r.1.freeze :=
  by simp [loopStage]
@[simp] theorem loopStage_hold (i : Fin 4) (r : State × Sample) : (loopStage i r).1.hold = r.1.hold :=
  by simp [loopStage]
@[simp] theorem loopStage_cleanupDone (i : Fin 4) (r : State × Sample) : (loopStage i r).1.cleanupDone = r.1.cleanupDone :=
  by simp [loopStage]
@[simp] theorem loopStage_inbox (i : Fin 4) (r : State × Sample) : (loopStage i r).1.inbox = r.1.inbox :=
  by simp [loopStage]
@[simp] theorem loopStage_audioIn (i : Fin 4) (r : State × Sample) : (loopStage i r).1.audioIn = r.1.audioIn :=
  by simp [loopStage]
@[simp] theorem loopStage_replies (i : Fin 4) (r : State × Sample) : (loopStage i r).1.replies = r.1.replies :=
  by simp [loopStage]

@[simp] theorem ringStage_cfg (d : Stereo Sample) (i : Fin 4) (r : State × Sample) : (ringStage d i r).1.cfg = r.1.cfg :=
  by simp [ringStage]
@[simp] theorem ringStage_inap (d : Stereo Sample) (i : Fin 4) (r : State × Sample) : (ringStage d i r).1.inap = r.1.inap :=
  by simp [ringStage]
@[simp] theorem ringStage_loopOut (d : Stereo Sample) (i : Fin 4) (r : State × Sample) : (ringStage d i r).1.loopOut = r.1.loopOut :=
  by simp [ringStage]
@[simp] theorem ringStage_mlp (d : Stereo Sample) (i : Fin 4) (r : State × Sample) : (ringStage d i r).1.mlp = r.1.mlp :=
  by simp [ringStage]
@[simp] theorem ringStage_lfoAcc (d : Stereo Sample) (i : Fin 4) (r : State × Sample) : (ringStage d i r).1.lfoAcc = r.1.lfoAcc :=
  by simp [ringStage]
@[simp] theorem ringStage_coeff (d : Stereo Sample) (i : Fin 4) (r : State × Sample) : (ringStage d i r).1.coeff = r.1.coeff :=
  by simp [ringStage]
@[simp] theorem ringStage_lfoInc (d : Stereo Sample) (i : Fin 4) (r : State × Sample) : (ringStage d i r).1.lfoInc = r.1.lfoInc :=
  by simp [ringStage]
@[simp] theorem ringStage_snap (d : Stereo Sample) (i : Fin 4) (r : State × Sample) : (ringStage d i r).1.snap = r.1.snap :=
  by simp [ringStage]
@[simp] theorem ringStage_bypass (d : Stereo Sample) (i : Fin 4) (r : State × Sample) : (ringStage d i r).1.bypass = r.1.bypass :=
  by simp [ringStage]
@[simp] theorem ringStage_freeze (d : Stereo Sample) (i : Fin 4) (r : State × Sample) : (ringStage d i r).1.freeze = r.1.freeze :=
  by simp [ringStage]
@[simp] theorem ringStage_hold (d : Stereo Sample) (i : Fin 4) (r : State × Sample) : (ringStage d i r).1.hold = r.1.hold :=
  by simp [ringStage]
@[simp] theorem ringStage_cleanupDone (d : Stereo Sample) (i : Fin 4) (r : State × Sample) : (ringStage d i r).1.cleanupDone = r.1.cleanupDone :=
  by simp [ringStage]
@[simp] theorem ringStage_inbox (d : Stereo Sample) (i : Fin 4) (r : State × Sample) : (ringStage d i r).1.inbox = r.1.inbox :=
  by simp [ringStage]
@[simp] theorem ringStage_audioIn (d : Stereo Sample) (i : Fin 4) (r : State × Sample) : (ringStage d i r).1.audioIn = r.1.audioIn :=
  by simp [ringStage]
@[simp] theorem ringStage_replies (d : Stereo Sample) (i : Fin 4) (r : State × Sample) : (ringStage d i r).1.replies = r.1.replies :=
  by simp [ringStage]

@[simp] theorem loop_cfg (s : State) (d : Stereo Sample) : (loop s d).cfg = s.cfg := by simp [loop]
@[simp] theorem loop_inap (s : State) (d : Stereo Sample) : (loop s d).inap = s.inap := by simp [loop]
@[simp] theorem loop_mlp (s : State) (d : Stereo Sample) : (loop s d).mlp = s.mlp := by simp [loop]
@[simp] theorem loop_lfoAcc (s : State) (d : Stereo Sample) : (loop s d).lfoAcc = s.lfoAcc := by simp [loop]
@[simp] theorem loop_coeff (s : State) (d : Stereo Sample) : (loop s d).coeff = s.coeff := by simp [loop]
@[simp] theorem loop_lfoInc (s : State) (d : Stereo Sample) : (loop s d).lfoInc = s.lfoInc := by simp [loop]
@[simp] theorem loop_snap (s : State) (d : Stereo Sample) : (loop s d).snap = s.snap := by simp [loop]
@[simp] theorem loop_bypass (s : State) (d : Stereo Sample) : (loop s d).bypass = s.bypass := by simp [loop]
@[simp] theorem loop_freeze (s : State) (d : Stereo Sample) : (loop s d).freeze = s.freeze := by simp [loop]
@[simp] theorem loop_hold (s : State) (d : Stereo Sample) : (loop s d).hold = s.hold := by simp [loop]
@[simp] theorem loop_cleanupDone (s : State) (d : Stereo Sample) : (loop s d).cleanupDone = s.cleanupDone :=
  by simp [loop]
@[simp] theorem loop_inbox (s : State) (d : Stereo Sample) : (loop s d).inbox = s.inbox := by simp [loop]
@[simp] theorem loop_audioIn (s : State) (d : Stereo Sample) : (loop s d).audioIn = s.audioIn := by simp [loop]
@[simp] theorem loop_replies (s : State) (d : Stereo Sample) : (loop s d).replies = s.replies := by simp [loop]

@[simp] theorem outStep_cfg (o : Duo LfoOut) (c : Chan) (s : State) : (outStep o c s).1.cfg = s.cfg := by simp [outStep]
@[simp] theorem outStep_inap (o : Duo LfoOut) (c : Chan) (s : State) : (outStep o c s).1.inap = s.inap :=
  by simp [outStep]
@[simp] theorem outStep_lap (o : Duo LfoOut) (c : Chan) (s : State) : (outStep o c s).1.lap = s.lap := by simp [outStep]
@[simp] theorem outStep_ldl (o : Duo LfoOut) (c : Chan) (s : State) : (outStep o c s).1.ldl = s.ldl := by simp [outStep]
@[simp] theorem outStep_lpfSt (o : Duo LfoOut) (c : Chan) (s : State) : (outStep o c s).1.lpfSt = s.lpfSt :=
  by simp [outStep]
@[simp] theorem outStep_hpfSt (o : Duo LfoOut) (c : Chan) (s : State) : (outStep o c s).1.hpfSt = s.hpfSt :=
  by simp [outStep]
@[simp] theorem outStep_loopOut (o : Duo LfoOut) (c : Chan) (s : State) : (outStep o c s).1.loopOut = s.loopOut :=
  by simp [outStep]
@[simp] theorem outStep_lfoAcc (o : Duo LfoOut) (c : Chan) (s : State) : (outStep o c s).1.lfoAcc = s.lfoAcc :=
  by simp [outStep]
@[simp] theorem outStep_coeff (o : Duo LfoOut) (c : Chan) (s : State) : (outStep o c s).1.coeff = s.coeff :=
  by simp [outStep]
@[simp] theorem outStep_lfoInc (o : Duo LfoOut) (c : Chan) (s : State) : (outStep o c s).1.lfoInc = s.lfoInc :=
  by simp [outStep]
@[simp] theorem outStep_snap (o : Duo LfoOut) (c : Chan) (s : State) : (outStep o c s).1.snap = s.snap :=
  by simp [outStep]
@[simp] theorem outStep_bypass (o : Duo LfoOut) (c : Chan) (s : State) : (outStep o c s).1.bypass = s.bypass :=
  by simp [outStep]
@[simp] theorem outStep_freeze (o : Duo LfoOut) (c : Chan) (s : State) : (outStep o c s).1.freeze = s.freeze :=
  by simp [outStep]
@[simp] theorem outStep_hold (o : Duo LfoOut) (c : Chan) (s : State) : (outStep o c s).1.hold = s.hold :=
  by simp [outStep]
@[simp] theorem outStep_cleanupDone (o : Duo LfoOut) (c : Chan) (s : State) : (outStep o c s).1.cleanupDone = s.cleanupDone :=
  by simp [outStep]
@[simp] theorem outStep_inbox (o : Duo LfoOut) (c : Chan) (s : State) : (outStep o c s).1.inbox = s.inbox :=
  by simp [outStep]
@[simp] theorem outStep_audioIn (o : Duo LfoOut) (c : Chan) (s : State) : (outStep o c s).1.audioIn = s.audioIn :=
  by simp [outStep]
@[simp] theorem outStep_replies (o : Duo LfoOut) (c : Chan) (s : State) : (outStep o c s).1.replies = s.replies :=
  by simp [outStep]

@[simp] theorem sample_cfg (s : State) (x : Sample × Sample) : (sample s x).1.cfg = s.cfg := by simp [sample]
@[simp] theorem sample_coeff (s : State) (x : Sample × Sample) : (sample s x).1.coeff = s.coeff := by simp [sample]
@[simp] theorem sample_lfoInc (s : State) (x : Sample × Sample) : (sample s x).1.lfoInc = s.lfoInc := by simp [sample]
@[simp] theorem sample_snap (s : State) (x : Sample × Sample) : (sample s x).1.snap = s.snap := by simp [sample]
@[simp] theorem sample_bypass (s : State) (x : Sample × Sample) : (sample s x).1.bypass = s.bypass := by simp [sample]
@[simp] theorem sample_freeze (s : State) (x : Sample × Sample) : (sample s x).1.freeze = s.freeze := by simp [sample]
@[simp] theorem sample_hold (s : State) (x : Sample × Sample) : (sample s x).1.hold = s.hold := by simp [sample]
@[simp] theorem sample_cleanupDone (s : State) (x : Sample × Sample) : (sample s x).1.cleanupDone = s.cleanupDone :=
  by simp [sample]
@[simp] theorem sample_inbox (s : State) (x : Sample × Sample) : (sample s x).1.inbox = s.inbox := by simp [sample]
@[simp] theorem sample_audioIn (s : State) (x : Sample × Sample) : (sample s x).1.audioIn = s.audioIn :=
  by simp [sample]
@[simp] theorem sample_replies (s : State) (x : Sample × Sample) : (sample s x).1.replies = s.replies :=
  by simp [sample]

/-- Two states agree on everything the datapath does not own: the configuration, the control registers, the flags and the
ports (10_state.md R10). -/
structure SameControl (s t : State) : Prop where
  cfg : t.cfg = s.cfg
  coeff : t.coeff = s.coeff
  lfoInc : t.lfoInc = s.lfoInc
  snap : t.snap = s.snap
  bypass : t.bypass = s.bypass
  freeze : t.freeze = s.freeze
  hold : t.hold = s.hold
  cleanupDone : t.cleanupDone = s.cleanupDone
  inbox : t.inbox = s.inbox
  audioIn : t.audioIn = s.audioIn
  replies : t.replies = s.replies

theorem SameControl.refl (s : State) : SameControl s s := ⟨rfl, rfl, rfl, rfl, rfl, rfl, rfl, rfl, rfl, rfl, rfl⟩

theorem SameControl.trans {s t u : State} (h : SameControl s t) (g : SameControl t u) : SameControl s u :=
  ⟨g.cfg.trans h.cfg, g.coeff.trans h.coeff, g.lfoInc.trans h.lfoInc, g.snap.trans h.snap, g.bypass.trans h.bypass,
   g.freeze.trans h.freeze, g.hold.trans h.hold, g.cleanupDone.trans h.cleanupDone, g.inbox.trans h.inbox,
   g.audioIn.trans h.audioIn, g.replies.trans h.replies⟩

/-- A sample step writes only datapath state (45_tank.md R141). -/
theorem sample_sameControl (s : State) (x : Sample × Sample) : SameControl s (sample s x).1 := by
  constructor <;> simp

/-- A block of sample steps, one at a time. -/
theorem runBlock_cons (s : State) (x : Sample × Sample) (xs : List (Sample × Sample)) :
    runBlock s (x :: xs) = ((runBlock (sample s x).1 xs).1, (sample s x).2 :: (runBlock (sample s x).1 xs).2) := by
  simp only [runBlock]

/-- A block of sample steps writes only datapath state (45_tank.md R147). -/
theorem runBlock_sameControl (xs : List (Sample × Sample)) (s : State) : SameControl s (runBlock s xs).1 := by
  induction xs generalizing s with
  | nil => exact .refl s
  | cons x xs ih =>
    simp only [runBlock_cons]
    exact (sample_sameControl s x).trans (ih _)

/-- A block of sample steps gives one output pair for each input pair. -/
@[simp] theorem runBlock_length : ∀ (xs : List (Sample × Sample)) (s : State), (runBlock s xs).2.length = xs.length
  | [], _ => rfl
  | x :: xs, s => by simp [runBlock, runBlock_length xs]

/-- A sample step advances each accumulator by its increment once (43_lfo.md R110, R116). -/
theorem sample_lfoAcc (s : State) (x : Sample × Sample) :
    (sample s x).1.lfoAcc = ⟨s.lfoAcc.x0 + s.lfoInc.x0, s.lfoAcc.x1 + s.lfoInc.x1⟩ := by
  simp [sample, Duo.set, Duo.get]

/-- The control registers and flags a cycle leaves alone, whichever case it takes (10_state.md R29). -/
theorem processingCycle_control (rp lp : Bool) (s : State) :
    (processingCycle rp lp s).cfg = s.cfg ∧ (processingCycle rp lp s).coeff = s.coeff ∧
      (processingCycle rp lp s).lfoInc = s.lfoInc ∧ (processingCycle rp lp s).snap = s.snap ∧
      (processingCycle rp lp s).bypass = s.bypass ∧ (processingCycle rp lp s).freeze = s.freeze ∧
      (processingCycle rp lp s).hold = s.hold ∧ (processingCycle rp lp s).inbox = s.inbox ∧
      (processingCycle rp lp s).cleanupDone = false := by
  have h := runBlock_sameControl
    ((effective s.cfg lp s.audioIn.l).zip (effective s.cfg rp s.audioIn.r)) { s with cleanupDone := false }
  simp only [processingCycle, endCycle_cfg, endCycle_coeff, endCycle_lfoInc, endCycle_snap, endCycle_bypass,
    endCycle_freeze, endCycle_hold, endCycle_inbox, endCycle_cleanupDone]
  exact ⟨h.cfg, h.coeff, h.lfoInc, h.snap, h.bypass, h.freeze, h.hold, h.inbox, h.cleanupDone⟩

/-- A coefficient write reaches the coefficient registers and the snapshot only (46_control.md R170). -/
theorem setCoeff_other (r : Reg) (v : BitVec 32) (s : State) :
    ∃ c p, setCoeff r v s = { s with coeff := c, snap := p } := by
  unfold setCoeff writeCoeff
  split
  · exact ⟨s.coeff, s.snap, rfl⟩
  · split
    · exact ⟨s.coeff, _, rfl⟩
    · exact ⟨_, s.snap, rfl⟩

/-- `FREEZE b` is `FREEZE_ENTER`, `FREEZE_EXIT` or nothing (46_control.md R166). -/
theorem freezeTo_cases (b : Bool) (s : State) :
    (b = true ∧ s.freeze = false ∧ s.bypass = false ∧ freezeTo b s = freezeEnter s) ∨
    (b = false ∧ s.freeze = true ∧ freezeTo b s = freezeExit s) ∨
    ((b = true → s.freeze = true ∨ s.bypass = true) ∧ (b = false → s.freeze = false) ∧ freezeTo b s = s) := by
  unfold freezeTo
  cases b <;> cases hf : s.freeze <;> cases hb : s.bypass <;> simp

end Sys2Proof.Machine
end

