-- ==== Sys2Proof/Laws/Lines.lean ====
section
/-! SUPPORT. What a sample step does to the sixteen delay RAMs: it stores one word at the cursor of each and advances that
cursor (45_tank.md R141, 20_memory.md R43), and what follows for cursors, other words and the canonical form. -/

namespace Sys2Proof.Machine

@[simp] theorem Quad.get_set {α : Type} (p : Quad α) (i j : Fin 4) (x : α) :
    (p.set i x).get j = if j = i then x else p.get j := by
  fin_cases i <;> fin_cases j <;> rfl

@[simp] theorem Stereo.get_set {α : Type} (p : Stereo α) (c e : Chan) (x : α) :
    (p.set c x).get e = if e = c then x else p.get e := by
  cases c <;> cases e <;> rfl

@[simp] theorem Duo.get_set {α : Type} (p : Duo α) (u w : Fin 2) (x : α) :
    (p.set u x).get w = if w = u then x else p.get w := by
  fin_cases u <;> fin_cases w <;> rfl

@[simp] theorem Regs.get_set {α : Type} (p : Regs α) (r q : Reg) (x : α) :
    (p.set r x).get q = if q = r then x else p.get q := by
  cases r <;> cases q <;> rfl

@[simp] theorem Snap.get_set {α : Type} (p : Snap α) (r q : SnapReg) (x : α) :
    (p.set r x).get q = if q = r then x else p.get q := by
  cases r <;> cases q <;> rfl

/-- From state `s`, state `t` has the same configuration, has stored one word at the cursor of each of the RAMs `ms`, and
has left the other RAMs alone. -/
def Stores (ms : List Ram) (s t : State) : Prop :=
  t.cfg = s.cfg ∧ ∃ v : Ram → Sample, ∀ m, t.line m = if m ∈ ms then (s.line m).store (ramCap s.cfg m) (v m) else s.line m

theorem Stores.refl (s : State) : Stores [] s s := ⟨rfl, fun _ => .zero, by simp⟩

/-- Storing in disjoint sets of RAMs, one after the other. -/
theorem Stores.trans {ms ns : List Ram} {s t u : State} (h : Stores ms s t) (g : Stores ns t u)
    (d : ∀ m ∈ ms, m ∉ ns) : Stores (ms ++ ns) s u := by
  obtain ⟨hc, v, hv⟩ := h
  obtain ⟨gc, w, gw⟩ := g
  refine ⟨gc.trans hc, fun m => if m ∈ ns then w m else v m, fun m => ?_⟩
  rw [gw m, hv m, hc]
  by_cases h1 : m ∈ ms <;> by_cases h2 : m ∈ ns <;> simp_all

/-- Updates that touch no RAM, before or after. -/
theorem Stores.of_line {s t : State} (hc : t.cfg = s.cfg) (hl : ∀ m, t.line m = s.line m) : Stores [] s t :=
  ⟨hc, fun _ => .zero, by simpa using hl⟩

theorem inapStep_stores (c : Chan) (i : Fin 4) (r : State × Sample) : Stores [.inap c i] r.1 (inapStep c i r).1 := by
  refine ⟨rfl, fun _ => fsub r.1.cfg.num r.2 (fmul r.1.cfg.num r.1.coeff.kin (inapStep c i r).2), fun m => ?_⟩
  cases m with
  | inap e j =>
    simp only [State.line, inapStep, Stereo.get_set, List.mem_singleton, Ram.inap.injEq, ramCap]
    by_cases he : e = c
    · subst he
      by_cases hj : j = i
      · subst hj; simp [apStep]
      · simp [hj]
    · simp [he]
  | lap j => simp [State.line]
  | ldl j => simp [State.line]

theorem lapStep_stores (i : Fin 4) (r : State × Sample) : Stores [.lap i] r.1 (lapStep i r).1 := by
  refine ⟨rfl, fun _ => fsub r.1.cfg.num r.2 (fmul r.1.cfg.num r.1.coeff.klp (lapStep i r).2), fun m => ?_⟩
  cases m with
  | inap e j => simp [State.line]
  | lap j =>
    simp only [State.line, lapStep, Quad.get_set, List.mem_singleton, Ram.lap.injEq, ramCap]
    by_cases hj : j = i
    · subst hj; simp [apStep]
    · simp [hj]
  | ldl j => simp [State.line]

theorem dlyStep_stores (i : Fin 4) (r : State × Sample) : Stores [.ldl i] r.1 (dlyStep i r).1 := by
  refine ⟨rfl, fun _ => r.2, fun m => ?_⟩
  cases m with
  | inap e j => simp [State.line]
  | lap j => simp [State.line]
  | ldl j =>
    simp only [State.line, dlyStep, Quad.get_set, List.mem_singleton, Ram.ldl.injEq, ramCap]
    by_cases hj : j = i
    · subst hj; simp
    · simp [hj]

theorem loopStage_stores (i : Fin 4) (r : State × Sample) : Stores [.lap i, .ldl i] r.1 (loopStage i r).1 := by
  have h := ((lapStep_stores i r).trans (dlyStep_stores i (lapStep i r)) (by simp)).trans
    (Stores.of_line (t := (loopStage i r).1) (by simp [loopStage]) (fun m => by cases m <;> simp [State.line, loopStage]))
    (by simp)
  simpa using h

theorem apChain_stores (c : Chan) (s : State) (x : Sample) :
    Stores [.inap c 0, .inap c 1, .inap c 2, .inap c 3] s (apChain c s x).1 := by
  have h0 := inapStep_stores c 0 (s, x)
  have h1 := inapStep_stores c 1 (inapStep c 0 (s, x))
  have h2 := inapStep_stores c 2 (inapStep c 1 (inapStep c 0 (s, x)))
  have h3 := inapStep_stores c 3 (inapStep c 2 (inapStep c 1 (inapStep c 0 (s, x))))
  simpa [apChain] using ((h0.trans h1 (by simp)).trans h2 (by simp)).trans h3 (by simp)

theorem loop_stores (s : State) (d : Stereo Sample) :
    Stores [.lap 0, .ldl 0, .lap 1, .ldl 1, .lap 2, .ldl 2, .lap 3, .ldl 3] s (loop s d) := by
  have step (i : Fin 4) (r : State × Sample) : Stores [.lap i, .ldl i] r.1 (ringStage d i r).1 :=
    loopStage_stores i _
  have h0 := step 0 (s, s.loopOut)
  have h1 := step 1 (ringStage d 0 (s, s.loopOut))
  have h2 := step 2 (ringStage d 1 (ringStage d 0 (s, s.loopOut)))
  have h3 := step 3 (ringStage d 2 (ringStage d 1 (ringStage d 0 (s, s.loopOut))))
  have h := ((h0.trans h1 (by simp)).trans h2 (by simp)).trans h3 (by simp)
  exact ⟨by simp, h.2⟩

/-- A sample step stores one word at the cursor of every delay RAM and advances it (45_tank.md R141). -/
theorem sample_stores (s : State) (x : Sample × Sample) (m : Ram) :
    ∃ v, (sample s x).1.line m = (s.line m).store (ramCap s.cfg m) v := by
  have t : Stores [] s (lfoTick (lfoTick s 0) 1) := .of_line (by simp) (fun m => by cases m <;> simp [State.line])
  have l := apChain_stores .L (lfoTick (lfoTick s 0) 1) (inputAttn (lfoTick (lfoTick s 0) 1) x.1)
  have r := apChain_stores .R (apChain .L (lfoTick (lfoTick s 0) 1) (inputAttn (lfoTick (lfoTick s 0) 1) x.1)).1
    (inputAttn (apChain .L (lfoTick (lfoTick s 0) 1) (inputAttn (lfoTick (lfoTick s 0) 1) x.1)).1 x.2)
  have p := loop_stores
    (apChain .R (apChain .L (lfoTick (lfoTick s 0) 1) (inputAttn (lfoTick (lfoTick s 0) 1) x.1)).1
      (inputAttn (apChain .L (lfoTick (lfoTick s 0) 1) (inputAttn (lfoTick (lfoTick s 0) 1) x.1)).1 x.2)).1
    ⟨(apChain .L (lfoTick (lfoTick s 0) 1) (inputAttn (lfoTick (lfoTick s 0) 1) x.1)).2,
     (apChain .R (apChain .L (lfoTick (lfoTick s 0) 1) (inputAttn (lfoTick (lfoTick s 0) 1) x.1)).1
      (inputAttn (apChain .L (lfoTick (lfoTick s 0) 1) (inputAttn (lfoTick (lfoTick s 0) 1) x.1)).1 x.2)).2⟩
  have h := ((t.trans l (by simp)).trans r (by simp)).trans p (by simp)
  obtain ⟨-, v, hv⟩ := h
  refine ⟨v m, ?_⟩
  have hm := hv m
  rw [if_pos (by
    cases m with
    | inap c i => cases c <;> fin_cases i <;> simp
    | lap i => fin_cases i <;> simp
    | ldl i => fin_cases i <;> simp)] at hm
  rw [← hm]
  cases m <;> simp [State.line, sample]

/-- A sample step keeps every cursor below its capacity (10_state.md R12). -/
theorem sample_cursorsOk {s : State} (x : Sample × Sample) (h : s.cursorsOk = true) : (sample s x).1.cursorsOk = true := by
  unfold State.cursorsOk at h ⊢
  rw [State.everyLine_iff] at h ⊢
  intro m
  obtain ⟨v, hv⟩ := sample_stores s x m
  rw [hv, sample_cfg]
  exact DelayLine.cursorOk_store v (h m)

/-- A sample step keeps every memory in canonical form. -/
theorem sample_ramsOk {s : State} (x : Sample × Sample) (hc : s.cursorsOk = true) (h : s.ramsOk = true) :
    (sample s x).1.ramsOk = true := by
  unfold State.ramsOk State.cursorsOk at *
  rw [State.everyLine_iff] at h hc ⊢
  intro m
  obtain ⟨v, hv⟩ := sample_stores s x m
  rw [hv, sample_cfg]
  exact DelayLine.memOk_store v (hc m) (h m)

/-- A block keeps every cursor below its capacity and every memory in canonical form. -/
theorem runBlock_linesOk (xs : List (Sample × Sample)) {s : State} (hc : s.cursorsOk = true) (h : s.ramsOk = true) :
    (runBlock s xs).1.cursorsOk = true ∧ (runBlock s xs).1.ramsOk = true := by
  induction xs generalizing s with
  | nil => exact ⟨hc, h⟩
  | cons x xs ih =>
    simp only [runBlock_cons]
    exact ih (sample_cursorsOk x hc) (sample_ramsOk x hc h)

end Sys2Proof.Machine
end

