-- ==== Sys2Proof/Laws/Num.lean ====
section
/-! SUPPORT. The arithmetic of `NUM`: over exact rationals the primitives are the field operations; the constants of the
register ranges; what holds of every comparison; in every `NUM`, that an exact value of the carrier is delivered as it is, and
what follows for zeros. -/

namespace Sys2Proof

@[simp] theorem fadd_exact (a b : Rat) : fadd .exact (.fin a) (.fin b) = .fin (a + b) := rfl

@[simp] theorem fmul_exact (a b : Rat) : fmul .exact (.fin a) (.fin b) = .fin (a * b) := rfl

@[simp] theorem fsub_exact (a b : Rat) : fsub .exact (.fin a) (.fin b) = .fin (a - b) := by
  by_cases h : b = 0
  · subst h; simp [fsub, sumAs, Sample.neg, NumKind.deliver, Sample.val]
  · simp [fsub, sumAs, Sample.neg, NumKind.deliver, Sample.val, h, sub_eq_add_neg]

/-- Both named instantiations hold `n / 2^F` exactly (00_scope.md R8). -/
theorem ofFrac_named {k : NumKind} (h : k.named = true) (n f : Nat) : ofFrac k n f = .fin (mkRat n (2 ^ f)) := by
  cases k
  · rfl
  · rfl
  · cases h

/-- Exact arithmetic delivers every value as it is. -/
theorem deliver_exact (p : Primitive) (neg : Bool) (q : Rat) : NumKind.exact.deliver p neg q = .fin q := rfl

/-- The zero of another `NUM` is one of the two zeros. -/
theorem otherZero_cases (id : Nat) (p : Primitive) (neg : Bool) :
    otherZero id p neg = .zero ∨ otherZero id p neg = .negZero := by
  have hz : ∀ b, Sample.zeroOf b = .zero ∨ Sample.zeroOf b = .negZero := fun b => by cases b; exacts [.inl rfl, .inr rfl]
  cases p
  case ofFrac => exact .inl rfl
  case ofConst => exact .inl rfl
  all_goals exact hz _

/-- The rounding of another `NUM` answers a number of its carrier. -/
theorem Number.sample_spec (id : Nat) (n : Number) :
    (n.sample id).inCarrier (.other id) = true ∧ n.sample id ≠ .nan := by
  cases n with
  | fin r =>
    by_cases h : otherCarrier id r = true
    · rw [Number.sample, if_pos h]; exact ⟨h, nofun⟩
    · rw [Number.sample, if_neg h]; exact ⟨rfl, nofun⟩
  | negZero => exact ⟨rfl, nofun⟩
  | inf m => exact ⟨rfl, nofun⟩

/-- Another `NUM` delivers a number of its own carrier. -/
theorem deliver_other_spec (id : Nat) (p : Primitive) (neg : Bool) (q : Rat) :
    ((NumKind.other id).deliver p neg q).inCarrier (.other id) = true ∧ (NumKind.other id).deliver p neg q ≠ .nan := by
  simp only [NumKind.deliver, otherDeliver]
  split
  · rcases otherZero_cases id p neg with h | h <;> rw [h] <;> exact ⟨rfl, nofun⟩
  · split
    · next h => exact ⟨h, nofun⟩
    · exact Number.sample_spec id _

/-- What a primitive delivers for an exact value is a number, in every `NUM`. -/
theorem deliver_ne_nan (k : NumKind) (p : Primitive) (neg : Bool) (q : Rat) : k.deliver p neg q ≠ .nan := by
  cases k with
  | f32 =>
    simp only [NumKind.deliver, roundF32, Sample.zeroOf, Sample.ofMag]
    split_ifs <;> simp
  | exact => simp [NumKind.deliver]
  | other id => exact (deliver_other_spec id p neg q).2

/-- Nothing is less than itself. -/
@[simp] theorem flt_self (a : Sample) : flt a a = false := by
  cases a <;> simp [flt, Sample.val]

@[simp] theorem flt_nan_left (a : Sample) : flt .nan a = false := rfl

@[simp] theorem flt_nan_right (a : Sample) : flt a .nan = false := by cases a <;> rfl

/-- Of finite values the comparison is that of their values. -/
theorem flt_finite {a b : Sample} (ha : a.isFinite = true) (hb : b.isFinite = true) :
    flt a b = decide (a.val < b.val) := by
  cases a <;> cases b <;> first | rfl | simp [Sample.isFinite] at ha hb

/-- An infinity against a finite value. -/
theorem flt_inf_left {a : Sample} (ha : a.isFinite = true) (m : Bool) : flt (.inf m) a = m := by
  cases a <;> first | rfl | simp [Sample.isFinite] at ha

theorem flt_inf_right {a : Sample} (ha : a.isFinite = true) (m : Bool) : flt a (.inf m) = !m := by
  cases a <;> first | rfl | simp [Sample.isFinite] at ha

/-- A value between two finite ones is finite, and lies between them. -/
theorem finite_of_between {a b x : Sample} (ha : a.isFinite = true) (hb : b.isFinite = true) (hx : x ≠ .nan)
    (h1 : flt x a = false) (h2 : flt b x = false) : x.isFinite = true ∧ a.val ≤ x.val ∧ x.val ≤ b.val := by
  cases x with
  | nan => exact absurd rfl hx
  | inf m =>
    rw [flt_inf_left ha] at h1
    rw [flt_inf_right hb, h1] at h2
    cases h2
  | fin q =>
    rw [flt_finite rfl ha, decide_eq_false_iff_not, not_lt] at h1
    rw [flt_finite hb rfl, decide_eq_false_iff_not, not_lt] at h2
    exact ⟨rfl, h1, h2⟩
  | negZero =>
    rw [flt_finite rfl ha, decide_eq_false_iff_not, not_lt] at h1
    rw [flt_finite hb rfl, decide_eq_false_iff_not, not_lt] at h2
    exact ⟨rfl, h1, h2⟩

/-- A legal value of a register whose range has finite ends is finite, and lies between them (10_state.md R16). -/
theorem finite_of_inRange {c : Config} {r : Reg} {x : Sample} (h : c.inRange r x = true)
    (hl : (c.lo r).isFinite = true) (hh : (c.hi r).isFinite = true) :
    x.isFinite = true ∧ (c.lo r).val ≤ x.val ∧ x.val ≤ (c.hi r).val := by
  simp only [Config.inRange, Bool.and_eq_true, decide_eq_true_eq, Bool.not_eq_true'] at h
  exact finite_of_between hl hh h.1.1 h.1.2 h.2

/-- The lower end of the range of `LODAMP`: `fsub(ZERO, ONE)` is −1 (46_control.md R170, R177), in every `NUM`. -/
theorem fsub_zero_one (k : NumKind) : fsub k .zero .one = .minusOne := by
  cases k with
  | f32 => decide +kernel
  | exact => decide +kernel
  | other id =>
    norm_num [fsub, sumAs, Sample.zero, Sample.one, Sample.neg, Sample.val, Sample.isNeg, NumKind.deliver, otherDeliver,
      otherCarrier, Sample.minusOne]

/-! ### Exact results that are values of the carrier -/

/-- An exact result of zero is delivered as a zero, in every `NUM` (40_allpass.md R81 (d)). -/
theorem deliver_zero (k : NumKind) (p : Primitive) (neg : Bool) : (k.deliver p neg 0).isZero = true := by
  cases k with
  | f32 => cases neg <;> rfl
  | exact => rfl
  | other id =>
    simp only [NumKind.deliver, otherDeliver, if_true]
    rcases otherZero_cases id p neg with h | h <;> rw [h] <;> rfl

/-- `ZERO`, `ONE` and −1 are values of the carrier, in every `NUM`. -/
theorem zero_inCarrier (k : NumKind) : Sample.zero.inCarrier k = true := by
  cases k <;> rfl

theorem one_inCarrier (k : NumKind) : Sample.one.inCarrier k = true := by
  cases k with
  | f32 => decide +kernel
  | exact => rfl
  | other id => simp [Sample.one, Sample.inCarrier, otherCarrier]

theorem minusOne_inCarrier (k : NumKind) : Sample.minusOne.inCarrier k = true := by
  cases k with
  | f32 => decide +kernel
  | exact => rfl
  | other id => simp [Sample.minusOne, Sample.inCarrier, otherCarrier]

/-- An exact result other than zero that the carrier holds is delivered as it is, in every `NUM`. -/
theorem deliver_held {k : NumKind} (p : Primitive) (neg : Bool) {q : Rat} (hq : q ≠ 0)
    (h : (Sample.fin q).inCarrier k = true) : k.deliver p neg q = .fin q := by
  cases k with
  | f32 =>
    simp only [Sample.inCarrier, decide_eq_true_eq, roundF32, hq, if_false] at h
    simpa only [NumKind.deliver, roundF32, hq, if_false] using h
  | exact => rfl
  | other id =>
    simp only [Sample.inCarrier] at h
    simp [NumKind.deliver, otherDeliver, hq, h]

/-- An exact result that the carrier holds is delivered by value, in every `NUM`. -/
theorem deliver_held_val {k : NumKind} (p : Primitive) (neg : Bool) {q : Rat} (h : (Sample.fin q).inCarrier k = true) :
    (k.deliver p neg q).isFinite = true ∧ (k.deliver p neg q).val = q := by
  by_cases hq : q = 0
  · subst hq
    have hz := deliver_zero k p neg
    cases hx : k.deliver p neg 0 <;> simp_all [Sample.isZero, Sample.isFinite, Sample.val]
  · rw [deliver_held p neg hq h]
    exact ⟨rfl, rfl⟩

/-! ### Zeros -/

/-- A zero is finite and its value is 0. -/
theorem Sample.isZero_iff {a : Sample} : a.isZero = true ↔ a.isFinite = true ∧ a.val = 0 := by
  cases a <;> simp [Sample.isZero, Sample.isFinite, Sample.val]

/-- A zero with its sign changed is a zero. -/
theorem Sample.isZero_neg {a : Sample} (h : a.isZero = true) : a.neg.isZero = true := by
  cases a <;> simp_all [Sample.isZero, Sample.neg]

/-- Of finite operands every sum is one exact sum, delivered. -/
theorem sumAs_finite {k : NumKind} {p : Primitive} {a b : Sample} (ha : a.isFinite = true) (hb : b.isFinite = true) :
    sumAs k p a b = k.deliver p (a.isNeg && b.isNeg) (a.val + b.val) := by
  cases a <;> cases b <;> simp_all [Sample.isFinite, sumAs]

/-- Of finite operands every product is one exact product, delivered. -/
theorem fmul_finite {k : NumKind} {a b : Sample} (ha : a.isFinite = true) (hb : b.isFinite = true) :
    fmul k a b = k.deliver .fmul (a.isNeg != b.isNeg) (a.val * b.val) := by
  cases a <;> cases b <;> simp_all [Sample.isFinite, fmul]

/-- The sum of two zeros is a zero, in every `NUM`. -/
theorem fadd_isZero {k : NumKind} {a b : Sample} (ha : a.isZero = true) (hb : b.isZero = true) :
    (fadd k a b).isZero = true := by
  rw [Sample.isZero_iff] at ha hb
  rw [fadd, sumAs_finite ha.1 hb.1, ha.2, hb.2, add_zero]
  exact deliver_zero ..

/-- The difference of two zeros is a zero, in every `NUM`. -/
theorem fsub_isZero {k : NumKind} {a b : Sample} (ha : a.isZero = true) (hb : b.isZero = true) :
    (fsub k a b).isZero = true := by
  have hn := Sample.isZero_neg hb
  rw [Sample.isZero_iff] at ha hn
  rw [fsub, sumAs_finite ha.1 hn.1, ha.2, hn.2, add_zero]
  exact deliver_zero ..

/-- A zero times a finite value is a zero, in every `NUM`. -/
theorem fmul_isZero {k : NumKind} {a b : Sample} (ha : a.isZero = true) (hb : b.isFinite = true) :
    (fmul k a b).isZero = true := by
  rw [Sample.isZero_iff] at ha
  rw [fmul_finite ha.1 hb, ha.2, zero_mul]
  exact deliver_zero ..

/-- A finite value times a zero is a zero, in every `NUM`. -/
theorem fmul_isZero_right {k : NumKind} {a b : Sample} (ha : a.isFinite = true) (hb : b.isZero = true) :
    (fmul k a b).isZero = true := by
  rw [Sample.isZero_iff] at hb
  rw [fmul_finite ha hb.1, hb.2, mul_zero]
  exact deliver_zero ..

/-! ### Numbers -/

/-- A finite operand is a number, in every `NUM`. -/
theorem ofF32Bits_ne_nan (k : NumKind) (w : BitVec 32) : ofF32Bits k w ≠ .nan := by
  cases k <;> simp only [ofF32Bits]
  · split_ifs <;> simp [deliver_ne_nan]
  · split_ifs <;> simp [deliver_ne_nan]
  · exact deliver_ne_nan _ _ _ _

/-- A configuration constant is a number. -/
theorem ofConst_ne_nan (k : NumKind) (q : Rat) : ofConst k q ≠ .nan := deliver_ne_nan k _ _ q

end Sys2Proof
end

