-- ==== Sys2Proof/Laws/PerInstr.lean ====
section
/-! SUPPORT. The per-instruction family `MatchesRow`: the encoding of every instruction is a word of the spec's tables, a
command word that matches a row of the opcode map (30_encoding.md R61, R63) or a cycle descriptor (R65). -/

namespace Sys2Proof

/-- A V or U word under its mask keeps its opcode and nothing else. -/
theorem commandWord_and_mask (op : BitVec 8) (v : BitVec 32) :
    commandWord op v &&& 0xFF00000000#40 = op ++ 0#32 := by
  have e : (0xFF00000000#40) = (0xFF#8 ++ 0#32) := by decide
  have a : op &&& 0xFF#8 = op := BitVec.and_allOnes
  rw [commandWord, e, BitVec.and_append, a, BitVec.and_zero]

/-- Some row of the opcode map matches a word. -/
def matchesSomeRow : PortWord → Bool
  | .command cw => opcodeRows.any (fun r => r.matched cw)
  | .descriptor _ => true

/-- A V or U word matches the row of its opcode. -/
theorem matchesSomeRow_value {op : BitVec 8} (v : BitVec 32) (h : ⟨op ++ 0#32, 0xFF00000000#40⟩ ∈ opcodeRows) :
    matchesSomeRow (.command (commandWord op v)) = true := by
  simp only [matchesSomeRow, List.any_eq_true]
  exact ⟨_, h, by simp [OpcodeRow.matched, commandWord_and_mask]⟩

namespace Laws.MatchesRow

def Statement (i : Instr) : Prop := matchesSomeRow (encode i) = true

theorem nop : Statement .nop := by unfold Statement; decide
theorem reset : Statement .reset := by unfold Statement; decide
theorem lock : Statement .lock := by unfold Statement; decide
theorem unlock : Statement .unlock := by unfold Statement; decide
theorem bypass (b : Bool) : Statement (.bypass b) := by unfold Statement; cases b <;> decide
theorem freeze (b : Bool) : Statement (.freeze b) := by unfold Statement; cases b <;> decide
theorem frztgl : Statement .frztgl := by unfold Statement; decide
theorem rdstat : Statement .rdstat := by unfold Statement; decide
theorem setInattn (v : BitVec 32) : Statement (.setInattn v) := matchesSomeRow_value v (by decide)
theorem setKin (v : BitVec 32) : Statement (.setKin v) := matchesSomeRow_value v (by decide)
theorem setKlp (v : BitVec 32) : Statement (.setKlp v) := matchesSomeRow_value v (by decide)
theorem setRvtime (v : BitVec 32) : Statement (.setRvtime v) := matchesSomeRow_value v (by decide)
theorem setRvscale (v : BitVec 32) : Statement (.setRvscale v) := matchesSomeRow_value v (by decide)
theorem setHidamp (v : BitVec 32) : Statement (.setHidamp v) := matchesSomeRow_value v (by decide)
theorem setLodamp (v : BitVec 32) : Statement (.setLodamp v) := matchesSomeRow_value v (by decide)
theorem setLpf (v : BitVec 32) : Statement (.setLpf v) := matchesSomeRow_value v (by decide)
theorem setHpf (v : BitVec 32) : Statement (.setHpf v) := matchesSomeRow_value v (by decide)
theorem setMlpf (v : BitVec 32) : Statement (.setMlpf v) := matchesSomeRow_value v (by decide)
theorem setLfo0inc (u : BitVec 32) : Statement (.setLfo0inc u) := matchesSomeRow_value u (by decide)
theorem setLfo1inc (u : BitVec 32) : Statement (.setLfo1inc u) := matchesSomeRow_value u (by decide)
theorem cycle (ok rp lp : Bool) : Statement (.cycle ok rp lp) := rfl

end Laws.MatchesRow

end Sys2Proof
end

