-- ==== Sys2Proof/Laws/Rounding.lean ====
section
/-! SUPPORT. What each operation of the rounding of `NUM_F32` does (00_scope.md R8), said once: the power of two, the nearest
natural number, the leading exponent and the unit in the last place of a rational, the rounded magnitude. -/

namespace Sys2Proof

/-- `pow2` is the power of two. -/
theorem pow2_eq (e : Int) : pow2 e = (2 : Rat) ^ e := by
  cases e with
  | ofNat n => simp [pow2]
  | negSucc n => simp [pow2, zpow_negSucc, Rat.mkRat_eq_div]

/-- `roundHalfEven` gives a natural number nearest to the quotient, the even one of two that are equally near. -/
theorem roundHalfEven_nearest {n d : Nat} (hd : 0 < d) :
    |(roundHalfEven n d : Rat) - (n : Rat) / d| ≤ 1 / 2 ∧
    (|(roundHalfEven n d : Rat) - (n : Rat) / d| = 1 / 2 → roundHalfEven n d % 2 = 0) := by
  have hdq : (0 : Rat) < d := by exact_mod_cast hd
  have hr : n % d < d := Nat.mod_lt _ hd
  have hn : (n : Rat) / d = (n / d : Nat) + ((n % d : Nat) : Rat) / d := by
    rw [div_eq_iff hdq.ne', add_mul, div_mul_cancel₀ _ hdq.ne']
    exact_mod_cast (by rw [Nat.mul_comm, Nat.div_add_mod] : n = n / d * d + n % d)
  rw [hn]
  set t : Rat := ((n % d : Nat) : Rat) / d with ht
  have ht0 : 0 ≤ t := by positivity
  unfold roundHalfEven
  split_ifs with h1 h2 h3
  · have : 2 * t < 1 := by
      rw [ht, ← mul_div_assoc, div_lt_one hdq]; exact_mod_cast h1
    rw [show ((n / d : Nat) : Rat) - ((n / d : Nat) + t) = -t by ring, abs_neg, abs_of_nonneg ht0]
    exact ⟨by linarith, fun h => by linarith⟩
  · have h2' : 1 < 2 * t := by
      rw [ht, ← mul_div_assoc, lt_div_iff₀ hdq, one_mul]; exact_mod_cast h2
    have ht1 : t < 1 := by rw [ht, div_lt_one hdq]; exact_mod_cast hr
    rw [show ((n / d + 1 : Nat) : Rat) - ((n / d : Nat) + t) = 1 - t by push_cast; ring, abs_of_pos (by linarith)]
    exact ⟨by linarith, fun h => by linarith⟩
  all_goals
    have ht2 : t = 1 / 2 := by
      have : 2 * (n % d) = d := by omega
      have : (2 : Rat) * (n % d : Nat) = d := by exact_mod_cast this
      rw [ht, div_eq_iff hdq.ne']; linarith
  · rw [show ((n / d : Nat) : Rat) - ((n / d : Nat) + t) = -t by ring, ht2]
    exact ⟨by norm_num, fun _ => h3⟩
  · rw [show ((n / d + 1 : Nat) : Rat) - ((n / d : Nat) + t) = 1 - t by push_cast; ring, ht2]
    exact ⟨by norm_num, fun _ => by omega⟩

/-- A positive rational from its numerator and its denominator. -/
theorem natAbs_num_div_den {a : Rat} (h : 0 < a) : (a.num.natAbs : Rat) / a.den = a := by
  rw [Nat.cast_natAbs, abs_of_nonneg (Rat.num_nonneg.mpr h.le), Rat.num_div_den]

/-- `Nat.log2` of a positive number is the exponent of its leading bit. -/
theorem log2_bounds {n : Nat} (h : n ≠ 0) :
    (2 : Rat) ^ (n.log2 : Int) ≤ n ∧ (n : Rat) < 2 ^ ((n.log2 : Int) + 1) := by
  refine ⟨?_, ?_⟩
  · exact_mod_cast Nat.log2_self_le h
  · exact_mod_cast (Nat.lt_log2_self (n := n))

/-- `floorLog2` is the exponent of the leading bit of a positive rational. -/
theorem floorLog2_bounds {a : Rat} (h : 0 < a) :
    (2 : Rat) ^ floorLog2 a ≤ a ∧ a < 2 ^ (floorLog2 a + 1) := by
  have hnum : a.num.natAbs ≠ 0 := by simpa using h.ne'
  obtain ⟨n1, n2⟩ := log2_bounds hnum
  obtain ⟨d1, d2⟩ := log2_bounds a.den_ne_zero
  have ha := (natAbs_num_div_den h).symm
  have hd : (0 : Rat) < a.den := by exact_mod_cast a.den_pos
  set p : Int := (a.num.natAbs.log2 : Int)
  set q : Int := (a.den.log2 : Int)
  have two : (2 : Rat) ≠ 0 := two_ne_zero
  have up : a < 2 ^ (p - q + 1) := by
    conv_lhs => rw [ha]
    rw [div_lt_iff₀ hd]
    calc _ < (2 : Rat) ^ (p + 1) := n2
      _ = 2 ^ (p - q + 1) * 2 ^ q := by rw [← zpow_add₀ two]; congr 1; ring
      _ ≤ _ := by gcongr
  have lo : 2 ^ (p - q - 1) ≤ a := by
    conv_rhs => rw [ha]
    rw [le_div_iff₀ hd]
    calc (2 : Rat) ^ (p - q - 1) * a.den ≤ 2 ^ (p - q - 1) * 2 ^ (q + 1) := by gcongr
      _ = 2 ^ p := by rw [← zpow_add₀ two]; congr 1; ring
      _ ≤ _ := n1
  unfold floorLog2
  dsimp only
  rw [pow2_eq]
  split_ifs with hle
  · exact ⟨hle, up⟩
  · refine ⟨lo, ?_⟩
    rw [sub_add_cancel]; exact not_le.mp hle

/-- The unit in the last place is never below that of the subnormal range. -/
theorem ulpExp_ge (a : Rat) : -149 ≤ ulpExp a := le_max_right _ _

/-- A positive rational is below 2^24 units in its last place. -/
theorem lt_ulpExp {a : Rat} (h : 0 < a) : a < 2 ^ (ulpExp a + 24) := by
  refine (floorLog2_bounds h).2.trans_le (zpow_le_zpow_right₀ (by norm_num) ?_)
  have := le_max_left (floorLog2 a - 23) (-149)
  unfold ulpExp
  omega

/-- Outside the subnormal range it is at least 2^23 of them. -/
theorem ulpExp_le {a : Rat} (h : 0 < a) (hu : ulpExp a ≠ -149) : 2 ^ (ulpExp a + 23) ≤ a := by
  refine le_trans (zpow_le_zpow_right₀ (by norm_num) ?_) (floorLog2_bounds h).1
  have h1 : ulpExp a = max (floorLog2 a - 23) (-149) := rfl
  rcases max_choice (floorLog2 a - 23) (-149 : Int) with hm | hm <;> omega

/-- `roundMag` gives a multiple of the unit in the last place that is nearest to a positive rational, the even multiple of
two that are equally near. -/
theorem roundMag_spec {a : Rat} (h : 0 < a) :
    ∃ m : Nat, roundMag a = m * (2 : Rat) ^ ulpExp a ∧ |(m : Rat) - a / 2 ^ ulpExp a| ≤ 1 / 2 ∧
      (|(m : Rat) - a / 2 ^ ulpExp a| = 1 / 2 → m % 2 = 0) := by
  have ha := natAbs_num_div_den h
  have hd : (a.den : Rat) ≠ 0 := by exact_mod_cast a.den_ne_zero
  unfold roundMag
  cases hu : ulpExp a with
  | ofNat n =>
    have hx : a / 2 ^ (Int.ofNat n) = (a.num.natAbs : Rat) / (a.den * 2 ^ n : Nat) := by
      conv_lhs => rw [← ha]
      rw [Int.ofNat_eq_natCast, zpow_natCast]; push_cast; rw [div_div]
    refine ⟨roundHalfEven a.num.natAbs (a.den * 2 ^ n), by simp, ?_⟩
    rw [hx]
    exact roundHalfEven_nearest (Nat.mul_pos a.den_pos (by positivity))
  | negSucc n =>
    have hx : a / 2 ^ (Int.negSucc n) = (a.num.natAbs * 2 ^ (n + 1) : Nat) / (a.den : Rat) := by
      conv_lhs => rw [← ha]
      rw [zpow_negSucc]; push_cast; field_simp
    refine ⟨roundHalfEven (a.num.natAbs * 2 ^ (n + 1)) a.den, ?_, ?_⟩
    · simp [zpow_negSucc, Rat.mkRat_eq_div, div_eq_mul_inv]
    · rw [hx]
      exact roundHalfEven_nearest a.den_pos

end Sys2Proof
end

