-- ==== Sys2Proof/Laws/Step.lean ====
section
/-! SUPPORT. What one step can do, said once (20_memory.md R50): the request it serves, the cases of a cycle, the cases of
the step. -/

namespace Sys2Proof.Machine

/-- The request that is served: the first that can be, taken out of its place (20_memory.md R51, R53). -/
theorem nextRequest_some {hold : Bool} {q : Request} {rest : List Request} :
    ∀ {qs : List Request}, nextRequest hold qs = some (q, rest) →
      ∃ pre post, qs = pre ++ q :: post ∧ rest = pre ++ post ∧ q.enabled hold = true ∧
        ∀ p ∈ pre, p.enabled hold = false
  | [], h => by simp [nextRequest] at h
  | p :: ps, h => by
    rw [nextRequest] at h
    split at h
    · next hp =>
      obtain ⟨rfl, rfl⟩ : p = q ∧ ps = rest := by simpa using h
      exact ⟨[], ps, rfl, rfl, hp, by simp⟩
    · next hp =>
      split at h
      · simp at h
      · next p' rest' h' =>
        obtain ⟨rfl, rfl⟩ : p' = q ∧ p :: rest' = rest := by simpa using h
        obtain ⟨pre, post, e1, e2, hq, hpre⟩ := nextRequest_some h'
        refine ⟨p :: pre, post, by simp [e1], by simp [e2], hq, ?_⟩
        intro x hx
        rcases List.mem_cons.mp hx with rfl | hx
        · simpa using hp
        · exact hpre x hx

/-- The served request found again from its place. -/
theorem nextRequest_append {hold : Bool} {q : Request} {post : List Request} (hq : q.enabled hold = true) :
    ∀ {pre : List Request}, (∀ p ∈ pre, p.enabled hold = false) →
      nextRequest hold (pre ++ q :: post) = some (q, pre ++ post)
  | [], _ => by simp [nextRequest, hq]
  | p :: ps, h => by
    have hp : p.enabled hold = false := h p List.mem_cons_self
    have ih := nextRequest_append (post := post) hq fun x hx => h x (List.mem_cons_of_mem _ hx)
    simp [nextRequest, hp, ih]

/-- Nothing is served exactly when nothing can be. -/
theorem nextRequest_none {hold : Bool} :
    ∀ {qs : List Request}, nextRequest hold qs = none ↔ ∀ q ∈ qs, q.enabled hold = false
  | [] => by simp [nextRequest]
  | p :: ps => by
    have ih := nextRequest_none (hold := hold) (qs := ps)
    cases hp : p.enabled hold
    · cases h : nextRequest hold ps
      · simp only [nextRequest, hp, h]; simpa [hp] using ih.mp h
      · simp only [nextRequest, hp, h]
        simp only [h, reduceCtorEq, false_iff] at ih
        simpa [hp] using ih
    · simp [nextRequest, hp]

/-- While no hold is on, the head of the inbox is served. -/
@[simp] theorem nextRequest_free (q : Request) (qs : List Request) : nextRequest false (q :: qs) = some (q, qs) := by
  cases q <;> rfl

/-- A command is served whatever `HOLD` is. -/
@[simp] theorem nextRequest_command (hold : Bool) (cw : CommandWord) (qs : List Request) :
    nextRequest hold (.command cw :: qs) = some (.command cw, qs) := rfl

/-- What a step that answers a next state did: nothing, reset, an ignored word, or one instruction. -/
theorem step_cases {s t : State} (h : step s = .next t) :
    s.cfg.wf = true ∧
      ((nextRequest s.hold s.inbox = none ∧ t = s) ∨
       ∃ q rest, nextRequest s.hold s.inbox = some (q, rest) ∧
        ((fetched q = .reset ∧ t = resetAll (s.accept q rest)) ∨
         (fetched q = .ignored ∧ t = s.accept q rest) ∨
         ∃ i, fetched q = .run i ∧ exec i (s.accept q rest) = .next t)) := by
  unfold step at h
  split at h
  · next hw =>
    refine ⟨hw, ?_⟩
    split at h
    · next hn => cases h; exact .inl ⟨hn, rfl⟩
    · next q rest hn =>
      refine .inr ⟨q, rest, hn, ?_⟩
      dsimp only at h
      split at h
      · next hf => cases h; exact .inl ⟨hf, rfl⟩
      · next hf => cases h; exact .inr (.inl ⟨hf, rfl⟩)
      · next i hf => exact .inr (.inr ⟨i, hf, h⟩)
  · cases h

/-- What a cycle that answers a next state did: it waited, was bypassed, was dropped, or processed. -/
theorem execCycle_cases {ok rp lp : Bool} {s t : State} (h : execCycle ok rp lp s = .next t) :
    (s.hold = true ∧ t = s) ∨
    (s.hold = false ∧ s.bypass = true ∧ t = bypassedCycle s) ∨
    (s.hold = false ∧ s.bypass = false ∧ ok = false ∧ t = droppedCycle s) ∨
    (s.hold = false ∧ s.bypass = false ∧ ok = true ∧ s.portOk rp lp = true ∧ s.cursorsOk = true ∧
      t = processingCycle rp lp s) := by
  unfold execCycle at h
  cases hh : s.hold <;> cases hb : s.bypass <;> cases ok <;> simp_all
  split at h
  · cases h
  · split at h
    · cases h
    · next h1 h2 =>
      cases h
      refine ⟨?_, ?_, rfl⟩ <;> simp_all

/-- Accepting a request changes what waits at the ports and nothing else. -/
theorem accept_eq (s : State) (q : Request) (rest : List Request) :
    ∃ a, s.accept q rest = { s with inbox := rest, audioIn := a } := by
  cases q
  · exact ⟨s.audioIn, rfl⟩
  · exact ⟨_, rfl⟩
  · exact ⟨s.audioIn, rfl⟩

end Sys2Proof.Machine
end

