-- ==== Sys2Proof/Tests/Slice0.lean ====
section
/-! SUPPORT. The model's own tests: the decoding of written-out words, the checks of the configuration and of a block, one
step of every instruction against the values the spec gives (95_test_vectors.md), and, for every statement with hypotheses,
a state and operands that meet them all (`witness_…`). The theorems are elaborated one after the other: the many kernel
evaluations would otherwise all wait at once, each with a thread of its own. -/

set_option Elab.async false

namespace Sys2Proof.Machine.Tests

/-! ### Helpers -/

/-- The next state of an outcome has a property. -/
def after (o : Host.Outcome State Fault Refusal) (f : State → Bool) : Bool :=
  match o with
  | .next t => f t
  | _ => false

/-- The reset state, out of bypass. -/
def active : State := { State.reset with bypass := false }

/-- The coefficients after SETUP (95_test_vectors.md, part 3). -/
def setupCoeff : Regs Sample :=
  ⟨.fin (mkRat 1 2), .fin (mkRat 1 2), .fin (mkRat 1 2), .fin (mkRat 1 2), .one, .fin (mkRat 1 2), .fin (mkRat (-1) 2),
   .fin (mkRat 1 2), .fin (mkRat 1 4), .fin (mkRat 1 2)⟩

/-- The state after SETUP. -/
def ready : State := { active with coeff := setupCoeff, lfoInc := ⟨0x10000000#32, 0x08000000#32⟩ }

/-- The same, frozen, with `SNAP` as FREEZE 1 leaves it. -/
def frozen : State := freezeEnter ready

/-- A state in which a cycle has left something to clean. -/
def dirty : State :=
  { ready with
    cleanupDone := false, loopOut := .one, mlp := ⟨.one, .zero⟩
    lap := ⟨⟨[(0, .one)], 0⟩, ⟨[(1, .one)], 1⟩, .reset, .reset⟩ }

/-- The left input of program P1 on the port. -/
def impulse : Block := [.one, .zero, .zero, .zero]

def onPort (s : State) (l r : Block) : State := { s with audioIn := ⟨l, r⟩ }

/-! ### Decoding: one word of every instruction, from 30_encoding.md R61, R63, R65 -/

theorem test_decode_nop : decode (.command 0b0000000000000000000000000000000000000000#40) = .ok .nop := by rfl
theorem test_decode_reset : decode (.command 0b0000000100000000000000000000000000000000#40) = .ok .reset := by rfl
theorem test_decode_lock : decode (.command 0x0200000000#40) = .ok .lock := by rfl
theorem test_decode_unlock : decode (.command 0x0300000000#40) = .ok .unlock := by rfl
theorem test_decode_bypass_on : decode (.command 0b0000010000000000000000000000000000000001#40) = .ok (.bypass true) := by rfl
theorem test_decode_bypass_off : decode (.command 0x0400000000#40) = .ok (.bypass false) := by rfl
theorem test_decode_freeze_on : decode (.command 0x0500000001#40) = .ok (.freeze true) := by rfl
theorem test_decode_freeze_off : decode (.command 0x0500000000#40) = .ok (.freeze false) := by rfl
theorem test_decode_frztgl : decode (.command 0x0600000000#40) = .ok .frztgl := by rfl
theorem test_decode_rdstat : decode (.command 0b0000011100000000000000000000000000000000#40) = .ok .rdstat := by rfl
theorem test_decode_setInattn : decode (.command 0x103F000000#40) = .ok (.setInattn 0x3F000000#32) := by rfl
theorem test_decode_setKin : decode (.command 0x11BF000000#40) = .ok (.setKin 0xBF000000#32) := by rfl
theorem test_decode_setKlp : decode (.command 0x123E800000#40) = .ok (.setKlp 0x3E800000#32) := by rfl
theorem test_decode_setRvtime : decode (.command 0b0001001100111111000000000000000000000000#40) = .ok (.setRvtime 0x3F000000#32) := by
  rfl
theorem test_decode_setRvscale : decode (.command 0x143F400000#40) = .ok (.setRvscale 0x3F400000#32) := by rfl
theorem test_decode_setHidamp : decode (.command 0x15C0A00000#40) = .ok (.setHidamp 0xC0A00000#32) := by rfl
theorem test_decode_setLodamp : decode (.command 0x16BF000000#40) = .ok (.setLodamp 0xBF000000#32) := by rfl
theorem test_decode_setLpf : decode (.command 0x173F000000#40) = .ok (.setLpf 0x3F000000#32) := by rfl
theorem test_decode_setHpf : decode (.command 0x183E800000#40) = .ok (.setHpf 0x3E800000#32) := by rfl
theorem test_decode_setMlpf : decode (.command 0x193F000000#40) = .ok (.setMlpf 0x3F000000#32) := by rfl
theorem test_decode_setLfo0inc : decode (.command 0b0010000000010000000000000000000000000001#40) = .ok (.setLfo0inc 0x10000001#32) := by
  rfl
theorem test_decode_setLfo1inc : decode (.command 0x2180000001#40) = .ok (.setLfo1inc 0x80000001#32) := by rfl
theorem test_decode_cycle_left : decode (.descriptor 0b101#3) = .ok (.cycle true false true) := by rfl
theorem test_decode_cycle_dropped : decode (.descriptor 0b011#3) = .ok (.cycle false true true) := by rfl

/-- The reserved words of V10. -/
theorem test_decode_reserved :
    decode (.command 0x0000000001#40) = .error .operandNotZero ∧ decode (.command 0x0400000002#40) = .error .operandNotBoolean ∧
    decode (.command 0x0580000001#40) = .error .operandNotBoolean ∧
    decode (.command 0x0800000000#40) = .error (.reservedOpcode 0x08#8) ∧
    decode (.command 0x1A3F000000#40) = .error (.reservedOpcode 0x1A#8) ∧
    decode (.command 0x2200000000#40) = .error (.reservedOpcode 0x22#8) ∧
    decode (.command 0xFF00000000#40) = .error (.reservedOpcode 0xFF#8) := by
  refine ⟨rfl, rfl, rfl, rfl, rfl, rfl, rfl⟩

/-! ### Well-formedness: each check refuses an ill-formed term -/

theorem test_wf_tc : Config.tc.wf = true ∧ ({ Config.tc with num := .exact } : Config).wf = true := by decide +kernel
theorem test_wf_block_length : ({ Config.tc with blockLen := 0 } : Config).sizesOk = false := by decide
theorem test_wf_capacity : ({ Config.tc with lenLdl := ⟨3, 4, 0, 4⟩ } : Config).sizesOk = false := by decide
theorem test_wf_weight :
    ({ Config.tc with tapW := ⟨⟨1, 1, 1, 1⟩, ⟨1, 1, 1, pow2 128⟩⟩ } : Config).weightsOk = false := by decide +kernel
theorem test_wf_table_last : ({ Config.tc with tab := [0, 16384, 0, -16384, 1] } : Config).tableOk = false := by decide
theorem test_wf_table_range : ({ Config.tc with tab := [0, 32768, 0, -16384, 0] } : Config).tableOk = false := by decide
theorem test_wf_table_length : ({ Config.tc with tab := [0, 0] } : Config).tableOk = false := by decide
theorem test_wf_table_bits : ({ Config.tc with tabBits := 0, tab := [0, 0] } : Config).tableOk = false := by decide
theorem test_wf_modulation : ({ Config.tc with lfoAmplBits := 15 } : Config).modulationOk = false := by decide
theorem test_wf_fraction : ({ Config.tc with tabW := 40, modFracBits := 25 } : Config).modulationOk = false := by decide
theorem test_wf_clamp_order : ({ Config.tc with kLo := mkRat 3 4 } : Config).clampOk = false := by decide +kernel
theorem test_wf_clamp_unity : ({ Config.tc with kHi := 1 } : Config).clampOk = false := by decide +kernel
theorem test_wf_range : ({ Config.tc with kLo := mkRat 3 4 } : Config).rangesOk = false := by decide +kernel
theorem test_wf_reset_value : ({ Config.tc with rst := { Config.tc.rst with kin := 0 } } : Config).rstOk = false := by
  decide +kernel
/-- The check is of the value the register takes: 1 + 2^-30 is 1 in binary32 and above 1 exactly (log entry 4). -/
theorem test_wf_reset_value_rounds :
    (let c : Config := { Config.tc with rst := { Config.tc.rst with inattn := 1 + pow2 (-30) } }
     c.rstOk = true ∧ ({ c with num := .exact } : Config).rstOk = false) := by decide +kernel
theorem test_wf_whole : ({ Config.tc with blockLen := 0 } : Config).wf = false := by decide +kernel
theorem test_block_too_short : Config.tc.transactionOk false true [.zero] [] = false := by decide +kernel
/-- One third is no binary32 value. -/
theorem test_block_value : Config.tc.transactionOk true false [] [.zero, .zero, .zero, .fin (mkRat 1 3)] = false := by
  decide +kernel
theorem test_block_fits : Config.tc.transactionOk false true impulse [] = true := by decide +kernel

/-! ### Reset and the memories -/

theorem test_reset_memory : State.reset.ramsOk = true := by decide
/-- R168: the reset state reads 0x00000009. -/
theorem test_reset_status : statusWord State.reset = 9#32 := by decide
/-- V1 (a), step 0 and the stored word. -/
theorem test_apStep : apStep .exact 2 ⟨[], 0⟩ .one (.fin (mkRat 1 2)) = (⟨[(0, .fin (mkRat 3 4))], 1⟩, .fin (mkRat 1 2)) := by
  decide +kernel
/-- V1 (c), step 0: cursor 2 wraps, nonzero words. -/
theorem test_apStep_wrap :
    apStep .exact 3 ⟨[(0, .fin 1), (1, .fin (-2)), (2, .fin 4)], 2⟩ (.fin 2) (.fin (mkRat 5 8)) =
      (⟨[(0, .fin 1), (1, .fin (-2)), (2, .fin (mkRat (-41) 32))], 0⟩, .fin (mkRat 21 4)) := by
  decide +kernel
/-- R81 (d): zeros of either sign in, a zero out, and the RAM stays zero by value (IEEE 754 gives −0 and +0 here). -/
theorem test_apStep_zero :
    apStep .f32 2 ⟨[(0, .negZero)], 0⟩ .negZero (.fin (mkRat 1 2)) = (⟨[], 1⟩, .negZero) := by
  decide +kernel
/-- V3, two rows. -/
theorem test_modSplit :
    modScale Config.tc (-4097) = -2 ∧ modSplit Config.tc (-2) = (-1, 2) ∧ modScale Config.tc 32767 = 7 ∧
    modSplit Config.tc 7 = (1, 3) := by
  decide
/-- V4, the first row and the row in which `p1` wraps. -/
theorem test_tapRead :
    (let s : State := { active with ldl := { active.ldl with x1 := ⟨[(0, .fin 8), (1, .fin 4), (2, .fin 2), (3, .fin 1)], 1⟩ } }
     tapRead s 1 1 (-1) = .fin (mkRat 5 2)) ∧
    (let s : State := { active with ldl := { active.ldl with x1 := ⟨[(0, .fin 8), (1, .fin 4), (2, .fin 2), (3, .fin 1)], 2⟩ } }
     tapRead s 1 1 2 = .fin (mkRat 9 2)) := by
  decide +kernel
/-- V5 (a), the first row. -/
theorem test_damp :
    dampFilter .f32 setupCoeff .zero .zero .one = ⟨.fin (mkRat 1 2), .fin (mkRat 1 8), .fin (mkRat 11 32)⟩ := by
  decide +kernel
/-- V7, four rows. -/
theorem test_lfo :
    lfoLookup Config.tc 0x10000000#32 = 4096 ∧ lfoLookup Config.tc 0x3FFFFFFF#32 = 16383 ∧
    lfoLookup Config.tc 0x7FFFFFFF#32 = 0 ∧ lfoLookup Config.tc 0xFFFFFFFF#32 = -1 := by
  decide
/-- V8: TC weights, taps (1, −2, 4, 8). -/
theorem test_tapMix :
    tapMix Config.tc .L ⟨.one, .fin (-2), .fin 4, .fin 8⟩ = .fin 4 ∧
    tapMix Config.tc .R ⟨.one, .fin (-2), .fin 4, .fin 8⟩ = .fin (mkRat 7 2) := by
  decide +kernel
/-- R8: an addition that rounds a tie to even, one that underflows gradually, one that overflows. -/
theorem test_f32 :
    fadd .f32 (.fin (pow2 24)) .one = .fin (pow2 24) ∧ fmul .f32 (.fin (pow2 (-149))) (.fin (mkRat 3 4)) = .fin (pow2 (-149)) ∧
    fmul .f32 (.fin (-pow2 127)) (.fin 2) = .inf true := by
  decide +kernel

/-- R69, as far as it says: the value −0.5 is the pattern 0xBF000000 (R177). A point alone is no literal (log entry 19). -/
theorem test_value :
    (value ['-', '0', '.', '5']).map ScriptValue.opd = some 0xBF000000#32 ∧ value ['.'] = none ∧ value ['-', '.'] = none := by
  decide +kernel

/-! ### One step of every instruction -/

/-- What a command word does to a state, as one step. -/
def run1 (s : State) (cw : CommandWord) (f : State → Bool) : Bool := after (step { s with inbox := [.command cw] }) f

theorem test_nop : run1 dirty 0x0000000000#40 (fun t => decide (t = dirty)) = true := by decide +kernel
/-- V10: a reserved word is taken and ignored. -/
theorem test_reserved : run1 dirty 0x0400000002#40 (fun t => decide (t = dirty)) = true := by decide +kernel
/-- R162: RESET inside a LOCK bracket releases the hold, and everything is at its reset value. -/
theorem test_reset : run1 { dirty with hold := true } 0x0100000000#40 (fun t => decide (t = State.reset)) = true := by
  decide +kernel
/-- V11, steps 5 and 6. -/
theorem test_lock : run1 { ready with cleanupDone := false } 0x0200000000#40 (fun t => statusWord t = 4#32) = true := by
  decide +kernel
theorem test_lock_twice :
    run1 { ready with cleanupDone := false, hold := true } 0x0200000000#40 (fun t => statusWord t = 4#32) = true := by
  decide +kernel
/-- V11, step 8. -/
theorem test_unlock :
    run1 { frozen with cleanupDone := false, hold := true } 0x0300000000#40 (fun t => statusWord t = 2#32) = true := by
  decide +kernel
/-- P3: BYPASS 1 out of freeze restores the coefficients and clears no buffer. -/
theorem test_bypass_from_freeze :
    run1 (freezeEnter dirty) 0x0400000001#40
      (fun t => statusWord t = 1#32 && decide (t.coeff = setupCoeff) && decide (t.lap = dirty.lap)) = true := by
  decide +kernel
/-- V11, step 3. -/
theorem test_bypass_off : run1 State.reset 0x0400000000#40 (fun t => statusWord t = 8#32) = true := by decide +kernel
/-- P2: the substituted registers and the snapshot after FREEZE 1. -/
theorem test_freeze :
    run1 ready 0x0500000001#40 (fun t => decide (t.coeff = { setupCoeff with
        inattn := .zero, rvtime := .one, rvscale := .one, hidamp := .one, lodamp := .zero }) &&
      decide (t.snap = ⟨.fin (mkRat 1 2), .fin (mkRat (-1) 2), .fin (mkRat 1 2), .fin (mkRat 1 2), .one⟩) && t.freeze) = true := by
  decide +kernel
/-- R166 (a): FREEZE 1 while frozen does not overwrite the snapshot. -/
theorem test_freeze_twice : run1 frozen 0x0500000001#40 (fun t => decide (t.snap = frozen.snap)) = true := by decide +kernel
/-- R167: FRZTGL leaves freeze with the coefficients restored. -/
theorem test_frztgl_exit : run1 frozen 0x0600000000#40 (fun t => decide (t.coeff = setupCoeff) && !t.freeze) = true := by
  decide +kernel
/-- R144: FRZTGL while bypassed is ignored. -/
theorem test_frztgl_bypassed : run1 State.reset 0x0600000000#40 (fun t => decide (t = State.reset)) = true := by
  decide +kernel
/-- V11, steps 7 and 12: held and frozen, then cleaned. -/
theorem test_rdstat :
    run1 { frozen with cleanupDone := false, hold := true } 0x0700000000#40 (fun t => decide (t.replies = [.read 6#32])) = true := by
  decide +kernel
theorem test_rdstat_reset : run1 State.reset 0x0700000000#40 (fun t => decide (t.replies = [.read 9#32])) = true := by
  decide +kernel
/-- R171: 2.3 gives 1; in `Frozen`, 0.5 goes to the snapshot. -/
theorem test_setInattn : run1 ready 0x1040133333#40 (fun t => decide (t.coeff.inattn = .one)) = true := by decide +kernel
theorem test_setInattn_frozen :
    run1 frozen 0x103F000000#40
      (fun t => decide (t.snap.inattn = .fin (mkRat 1 2)) && decide (t.coeff.inattn = .zero)) = true := by
  decide +kernel
/-- The default clamp range of 00_scope.md R5. -/
def defaultK : State := { ready with cfg := { Config.tc with kLo := mkRat 5 1000, kHi := mkRat 65 100 } }
/-- V10: 2.3 and −5.0 with the default range. -/
theorem test_setKin_hi : after (execSetKin 0x40133333#32 defaultK) (fun t => toF32Bits t.coeff.kin = 0x3F266666#32) = true := by
  decide +kernel
theorem test_setKin_lo : after (execSetKin 0xC0A00000#32 defaultK) (fun t => toF32Bits t.coeff.kin = 0x3BA3D70A#32) = true := by
  decide +kernel
/-- V10: 1.0 cannot be reached; 0.5 is kept, also while frozen (never routed). -/
theorem test_setKlp_one : after (execSetKlp 0x3F800000#32 defaultK) (fun t => toF32Bits t.coeff.klp = 0x3F266666#32) = true := by
  decide +kernel
theorem test_setKlp_frozen : run1 frozen 0x123E800000#40 (fun t => decide (t.coeff.klp = .fin (mkRat 1 4))) = true := by
  decide +kernel
/-- V10: −infinity gives 0; a signalling NaN writes nothing. -/
theorem test_setRvtime_inf : run1 ready 0x13FF800000#40 (fun t => decide (t.coeff.rvtime = .zero)) = true := by decide +kernel
theorem test_setRvtime_nan : run1 ready 0x137F800001#40 (fun t => decide (t = ready)) = true := by decide +kernel
/-- R175; V10: −0.0 is kept under `NUM_F32`. -/
theorem test_setRvscale : run1 ready 0x143F400000#40 (fun t => decide (t.coeff.rvscale = .fin (mkRat 3 4))) = true := by
  decide +kernel
theorem test_setRvscale_negZero : run1 ready 0x1480000000#40 (fun t => decide (t.coeff.rvscale = .negZero)) = true := by
  decide +kernel
/-- V10, S6: −5.0 gives 0; in `Frozen` 2.3 is clamped, then routed. -/
theorem test_setHidamp : run1 ready 0x15C0A00000#40 (fun t => decide (t.coeff.hidamp = .zero)) = true := by decide +kernel
theorem test_setHidamp_frozen : run1 frozen 0x1540133333#40 (fun t => decide (t.snap.hidamp = .one)) = true := by decide +kernel
/-- R177: −5.0 gives −1, 0.5 gives 0. -/
theorem test_setLodamp_lo : run1 ready 0x16C0A00000#40 (fun t => decide (t.coeff.lodamp = .fin (-1))) = true := by decide +kernel
theorem test_setLodamp_hi : run1 ready 0x163F000000#40 (fun t => decide (t.coeff.lodamp = .zero)) = true := by decide +kernel
/-- P2: written directly in `Frozen`. V10: the smallest subnormal is kept. -/
theorem test_setLpf_frozen : run1 frozen 0x173E800000#40 (fun t => decide (t.coeff.lpf = .fin (mkRat 1 4))) = true := by
  decide +kernel
theorem test_setLpf_subnormal : run1 ready 0x1700000001#40 (fun t => decide (t.coeff.lpf = .fin (pow2 (-149)))) = true := by
  decide +kernel
theorem test_setHpf : run1 ready 0x183E800000#40 (fun t => decide (t.coeff.hpf = .fin (mkRat 1 4))) = true := by decide +kernel
theorem test_setMlpf : run1 ready 0x193F800000#40 (fun t => decide (t.coeff.mlpf = .one)) = true := by decide +kernel
/-- R181: the accumulator stays. -/
theorem test_setLfo0inc :
    run1 { ready with lfoAcc := ⟨5#32, 6#32⟩ } 0x2080000000#40
      (fun t => decide (t.lfoInc = ⟨0x80000000#32, 0x08000000#32⟩) && decide (t.lfoAcc = ⟨5#32, 6#32⟩)) = true := by
  decide +kernel
theorem test_setLfo1inc :
    run1 frozen 0x21FFFFFFFF#40 (fun t => decide (t.lfoInc = ⟨0x10000000#32, 0xFFFFFFFF#32⟩)) = true := by
  decide +kernel

/-- P1, cycle 1: the two output blocks. -/
theorem test_cycle_output :
    after (step { ready with inbox := [.cycle 0b101#3 impulse []] }) (fun t => decide (t.replies = [.audio (some
      ⟨[.fin 0, .fin (mkRat 5 2048), .fin (mkRat 57 4096), .fin (mkRat 291 8192)],
       [.fin 0, .fin (mkRat 3 512), .fin (mkRat 93 4096), .fin (mkRat 561 8192)]⟩)])) = true := by
  decide +kernel
/-- P1, state S1: a memory of each kind, the cursors of the lines, the accumulators, the status. -/
theorem test_cycle_state :
    after (step { ready with inbox := [.cycle 0b101#3 impulse []] }) (fun t =>
      decide (t.inap.l.x1 = ⟨[(0, .fin (mkRat (-15) 64)), (1, .fin (mkRat (-9) 128))], 0⟩) &&
      decide (t.lap.x3 = ⟨[(0, .fin (mkRat 39 512)), (1, .fin (mkRat 9 64))], 0⟩) &&
      decide (t.ldl.x1 = ⟨[(0, .fin (mkRat 1 64)), (1, .fin (mkRat 3 64)), (2, .fin (mkRat 21 256)), (3, .fin (mkRat 3 16))], 0⟩) &&
      decide (t.ldl.x0.idx = 1) && decide (t.lfoAcc = ⟨0x40000000#32, 0x20000000#32⟩) && statusWord t = 0#32) = true := by
  decide +kernel

/-! ### Witnesses: the hypotheses of each statement are met together -/

/-- The outcome is a next state. -/
theorem next_of_after {o : Host.Outcome State Fault Refusal} (h : after o (fun _ => true) = true) : ∃ t, o = .next t := by
  cases o with
  | next t => exact ⟨t, rfl⟩
  | fault f => cases h
  | refused r => cases h

theorem witness_DecodeOfEncodeIsIdentity : (Instr.cycle true false true).wf = true ∧ (Instr.setKin 0xFFFFFFFF#32).wf = true := by
  decide
theorem witness_EncodeOfDecodeIsIdentity :
    decode (.command 0x0500000001#40) = .ok (.freeze true) ∧ decode (.descriptor 0b111#3) = .ok (.cycle true true true) := ⟨rfl, rfl⟩
theorem witness_StepRunsTheDecodedRequest :
    (let s : State := { active with inbox := [.command 0x133F000000#40, .resetInput] }
     s.cfg.wf = true ∧ s.inbox = .command 0x133F000000#40 :: [.resetInput] ∧
      decode (.command 0x133F000000#40) = .ok (.setRvtime 0x3F000000#32) ∧ (Instr.setRvtime 0x3F000000#32).wf = true) ∧
    (let s : State := { active with inbox := [.cycle 0b101#3 impulse []] }
     s.cfg.wf = true ∧ s.hold = false ∧ s.inbox = .cycle 0b101#3 impulse [] :: [] ∧
      decode (.descriptor 0b101#3) = .ok (.cycle true false true) ∧ (Instr.cycle true false true).wf = true) := by
  refine ⟨⟨by decide +kernel, rfl, rfl, rfl⟩, ⟨by decide +kernel, rfl, rfl, rfl, rfl⟩⟩
/-- A reserved opcode at the edge of a group, and a format-N word with the least and a format-B word with the least wrong
operand. -/
theorem witness_NopAndReservedWordsChangeNothing :
    active.cfg.wf = true ∧ ({ active with inbox := [.command 0x0800000000#40] } : State).inbox = .command 0x0800000000#40 :: [] ∧
    (∀ r ∈ opcodeRows, 0x0800000000#40 &&& r.mask ≠ r.pattern) ∧ (∀ r ∈ opcodeRows, 0x0000000001#40 &&& r.mask ≠ r.pattern) ∧
    (∀ r ∈ opcodeRows, 0x0400000002#40 &&& r.mask ≠ r.pattern) := by
  refine ⟨by decide +kernel, rfl, by decide, by decide, by decide⟩
/-- A command, a reserved word and the reset input behind a waiting cycle; a reset input with no cycle in front; cycles
only. -/
theorem witness_HeldStepServesTheFirstCommand :
    (∀ q ∈ [Request.cycle 0b100#3 [] []], q.isCycle = true) ∧
    (let s : State := { active with hold := true, inbox := [.cycle 0b100#3 [] [], .command 0x0300000000#40, .resetInput] }
     s.cfg.wf = true ∧ s.hold = true ∧
      s.inbox = [.cycle 0b100#3 [] []] ++ .command 0x0300000000#40 :: [.resetInput] ∧
      decode (.command 0x0300000000#40) = .ok .unlock) ∧
    (let s : State := { active with hold := true, inbox := [.cycle 0b100#3 [] [], .command 0x0400000002#40] }
     s.cfg.wf = true ∧ s.hold = true ∧ s.inbox = [.cycle 0b100#3 [] []] ++ .command 0x0400000002#40 :: [] ∧
      ∀ r ∈ opcodeRows, 0x0400000002#40 &&& r.mask ≠ r.pattern) ∧
    (let s : State := { dirty with hold := true, inbox := [.cycle 0b100#3 [] [], .resetInput, .command 0#40] }
     s.cfg.wf = true ∧ s.hold = true ∧ s.inbox = [.cycle 0b100#3 [] []] ++ .resetInput :: [.command 0#40]) ∧
    (let s : State := { active with hold := true, inbox := [.resetInput] }
     s.cfg.wf = true ∧ s.hold = true ∧ s.inbox = [] ++ .resetInput :: []) ∧
    (let s : State := { active with hold := true, inbox := [.cycle 0b100#3 [] [], .cycle 0b000#3 [] []] }
     s.cfg.wf = true ∧ s.hold = true ∧ ∀ q ∈ s.inbox, q.isCycle = true) := by
  refine ⟨by decide, ⟨by decide +kernel, rfl, rfl, rfl⟩, ⟨by decide +kernel, rfl, rfl, by decide⟩, ⟨by decide +kernel, rfl, rfl⟩,
    ⟨by decide +kernel, rfl, rfl⟩, ⟨by decide +kernel, rfl, by decide⟩⟩
theorem witness_HeldStepStartsNoCycle :
    ∃ s t : State, s.hold = true ∧ step s = .next t :=
  ⟨{ active with hold := true, inbox := [.cycle 0b100#3 [] [], .command 0x0700000000#40] }, _, rfl, (next_of_after (by decide +kernel)).choose_spec⟩
/-- A group of two, and the two ends of the range of `n`. -/
theorem witness_GroupIsSeenWholeOrNotAtAll :
    (let s : State :=
      { active with
        hold := true
        inbox := [.command 0x133E800000#40, .cycle 0b100#3 [] [], .command 0x123E800000#40, .command 0x0300000000#40] }
     s.cfg.wf = true ∧ s.hold = true ∧
      othersOf s.inbox = [0x133E800000#40, 0x123E800000#40].map Request.command ++ [.command 0x0300000000#40] ∧
      (∀ cw ∈ [0x133E800000#40, 0x123E800000#40], decodeCommand cw ≠ .ok .unlock ∧ decodeCommand cw ≠ .ok .reset) ∧
      0 ≤ [0x133E800000#40, 0x123E800000#40].length ∧ 2 ≤ [0x133E800000#40, 0x123E800000#40].length) := by
  refine ⟨by decide +kernel, rfl, rfl, ?_, by decide, by decide⟩
  intro cw h
  simp only [List.mem_cons, List.not_mem_nil, or_false] at h
  rcases h with rfl | rfl
  · exact ⟨nofun, nofun⟩
  · exact ⟨nofun, nofun⟩
theorem witness_IllFormedConfigurationIsRefused :
    ({ active with cfg := { Config.tc with blockLen := 0 } } : State).cfg.wf = false := by decide +kernel
theorem witness_StepKeepsTheConfiguration : ∃ s t : State, step s = .next t :=
  ⟨{ active with inbox := [.command 0x0100000000#40] }, next_of_after (by decide +kernel)⟩
theorem witness_ResetLeavesTheListedValues :
    (let s : State := { dirty with inbox := [.resetInput, .command 0#40] }
     s.cfg.wf = true ∧ s.inbox = .resetInput :: [.command 0#40]) := ⟨by decide +kernel, rfl⟩
theorem witness_LockAndUnlockWriteOnlyHold :
    ({ active with hold := true } : State).hold = true ∧ active.hold = false ∧
    exec .lock active = .next { active with hold := true } ∧
    (let s : State := { active with hold := true, inbox := [.cycle 0b100#3 [] []] }
     exec .unlock s = .next { s with hold := false } ∧ s.inbox = .cycle 0b100#3 [] [] :: []) := ⟨rfl, rfl, rfl, rfl, rfl⟩
theorem witness_BypassCommand :
    State.reset.bypass = true ∧ (active.bypass = false ∧ active.freeze = false) ∧ (frozen.bypass = false ∧ frozen.freeze = true) := by
  decide
theorem witness_FreezeCommand :
    (active.freeze = false ∧ active.bypass = false) ∧ (frozen.freeze = true ∨ frozen.bypass = true) ∧
    (State.reset.freeze = true ∨ State.reset.bypass = true) ∧ frozen.freeze = true ∧ active.freeze = false := by
  decide
theorem witness_FreezeRoundTripsAcrossCycles :
    ∃ (s u v : State) (is : List Instr), s.bypass = false ∧ s.freeze = false ∧ is ≠ [] ∧
      (∀ i ∈ is, i = .nop ∨ i = .lock ∨ i = .unlock ∨ i = .rdstat ∨ i = .freeze true ∨ ∃ ok rp lp, i = .cycle ok rp lp) ∧
      exec (.freeze true) s = .next u ∧ execAll is u = .next v := by
  refine ⟨ready, frozen, _, [.rdstat, .freeze true, .cycle true false false], rfl, rfl, by decide, ?_, rfl,
    (next_of_after (by decide +kernel)).choose_spec⟩
  intro i h
  simp only [List.mem_cons, List.not_mem_nil, or_false] at h
  rcases h with rfl | rfl | rfl <;> simp
theorem witness_ModeTransitions :
    State.reset.mode = some .bypassed ∧ active.mode = some .active ∧ frozen.mode = some .frozen ∧
    exec .frztgl active = .next (freezeEnter active) ∧ exec (.bypass true) State.reset = .next State.reset ∧
    exec (.freeze false) frozen = .next (freezeExit frozen) := ⟨rfl, rfl, rfl, rfl, rfl, rfl⟩
theorem witness_CommandsLeaveTheDatapath :
    Instr.lock ≠ .reset ∧ (∀ ok rp lp, Instr.lock ≠ .cycle ok rp lp) ∧ exec .lock dirty = .next { dirty with hold := true } :=
  ⟨by decide, nofun, rfl⟩
/-- A NaN; each infinity; a finite operand below, inside and above a range; each destination. -/
theorem witness_CoefficientWrite :
    ((0x7FC00000#32).extractLsb' 23 8 = 0xFF#8 ∧ (0x7FC00000#32).extractLsb' 0 23 ≠ 0#23) ∧
    ((0xFF800000#32).extractLsb' 23 8 = 0xFF#8 ∧ (0xFF800000#32).extractLsb' 0 23 = 0#23 ∧ (0xFF800000#32).getLsbD 31 = true) ∧
    ((0x7F800000#32).extractLsb' 23 8 = 0xFF#8 ∧ (0x7F800000#32).extractLsb' 0 23 = 0#23 ∧ (0x7F800000#32).getLsbD 31 = false) ∧
    ((0xC0A00000#32).extractLsb' 23 8 ≠ 0xFF#8 ∧ (0x3F000000#32).extractLsb' 23 8 ≠ 0xFF#8 ∧
      (0x40133333#32).extractLsb' 23 8 ≠ 0xFF#8) ∧
    (active.freeze = false) ∧ (frozen.freeze = true ∧ ∀ q : SnapReg, q.reg ≠ .kin) ∧
    (frozen.freeze = true ∧ SnapReg.lodamp.reg = .lodamp) := by
  refine ⟨by decide, by decide, by decide, by decide, rfl, ⟨rfl, fun q => by cases q <;> decide⟩, rfl, rfl⟩
theorem witness_CoefficientWritesStayLegal :
    frozen.cfg.wf = true ∧ frozen.coeffsOk = true ∧ frozen.frozenOk = true ∧
    exec (setInstr .rvtime 0x3E800000#32) frozen = .next (setCoeff .rvtime 0x3E800000#32 frozen) := by
  refine ⟨by decide +kernel, by decide +kernel, by decide +kernel, rfl⟩
theorem witness_FiniteOperandKeepsItsPattern :
    (0x7F7FFFFF#32).extractLsb' 23 8 ≠ 0xFF#8 ∧ (0x80000000#32).extractLsb' 23 8 ≠ 0xFF#8 ∧ (0x00000001#32).extractLsb' 23 8 ≠ 0xFF#8 := by
  decide
theorem witness_HeldCycleWaits : ({ dirty with hold := true } : State).hold = true := rfl
theorem witness_DroppedCycleChangesNothing : dirty.hold = false ∧ dirty.bypass = false := by decide
theorem witness_BypassedCycleCleansOnce :
    (let s : State := { dirty with bypass := true }
     s.hold = false ∧ s.bypass = true ∧ s.cleanupDone = false) ∧
    (State.reset.hold = false ∧ State.reset.bypass = true ∧ State.reset.cleanupDone = true) := by
  decide
theorem witness_ProcessingCycleRunsTheSampleSteps :
    (let s := onPort dirty impulse []
     s.hold = false ∧ s.bypass = false ∧ s.portOk false true = true ∧ s.cursorsOk = true) := by
  decide +kernel
theorem witness_ProcessingCycleAdvances :
    (let s := onPort frozen impulse impulse
     s.hold = false ∧ s.bypass = false ∧ s.portOk true true = true ∧ s.cursorsOk = true) ∧
    (ready.hold = false ∧ ready.bypass = false ∧ ready.portOk false false = true ∧ ready.cursorsOk = true) := by
  decide +kernel
theorem witness_ProcessingCycleMemoryFrame :
    (let s := { onPort dirty impulse [] with cfg := { Config.tc with blockLen := 4, lenLap := ⟨7, 7, 7, 7⟩ } }
     s.hold = false ∧ s.bypass = false ∧ (∃ t, exec (.cycle true false true) s = .next t) ∧
      (∀ n < s.cfg.blockLen, 0 ≠ (s.cursor (.lap 1) + n) % ramCap s.cfg (.lap 1)) ∧
      (∀ n < s.cfg.blockLen, 5 ≠ (s.cursor (.lap 1) + n) % ramCap s.cfg (.lap 1))) := by
  refine ⟨rfl, rfl, next_of_after (by decide +kernel), by decide, by decide⟩
theorem witness_CyclesLeaveTheControlRegisters : ∃ t, exec (.cycle true false true) (onPort frozen impulse []) = .next t :=
  next_of_after (by decide +kernel)
theorem witness_ProcessingCycleStopsOutsideTheSpec :
    (let s := onPort active [.zero] []
     s.hold = false ∧ s.bypass = false ∧ s.portOk false true = false) ∧
    (let s : State := { active with lap := { active.lap with x2 := ⟨[], 1⟩ } }
     s.hold = false ∧ s.bypass = false ∧ s.portOk false false = true ∧ s.cursorsOk = false) := by
  decide +kernel
theorem witness_AllpassStepEffect :
    (let d : DelayLine := ⟨[(0, .one), (2, .negZero)], 2⟩
     d.idx < 3 ∧ d.memOk 3 = true ∧ 0 ≠ d.idx) ∧ ((⟨[], 0⟩ : DelayLine).idx < 1 ∧ (⟨[], 0⟩ : DelayLine).memOk 1 = true) ∧
    (Config.tc.wf = true ∧ Config.tc.inRange .kin (.fin (mkRat 1 256)) = true ∧ Config.tc.inRange .klp (.fin (mkRat 5 8)) = true) ∧
    (let d : DelayLine := ⟨[(1, .negZero)], 1⟩
     d.idx < 2 ∧ d.memOk 2 = true ∧ (∀ a, (Memory.read d.mem a).isZero = true) ∧ Sample.negZero.isZero = true ∧
      (Sample.fin (mkRat 1 2)).isFinite = true) := by
  refine ⟨by decide, by decide, by decide +kernel, by decide, by decide, fun a => ?_, rfl, rfl⟩
  simp only [Memory.read]
  split <;> rfl
theorem witness_AllpassDifferenceEquation : 1 < 2 ∧ (0 < [(1 : Rat), 2, 3].length ∧ 2 < [(1 : Rat), 2, 3].length) := by decide
theorem witness_AllpassImpulseResponse : 0 < 1 ∧ 2 < 3 := by decide
theorem witness_DelayLineDelaysByItsLength : 0 < 1 ∧ 2 < 3 := by decide
theorem witness_TapWordsAreTheLastStored :
    (let d : DelayLine := ⟨[(1, .one)], 2⟩
     d.idx < 3 ∧ d.memOk 3 = true ∧ 3 ≤ [Sample.one, .negZero, .one].length ∧ 0 < 3 ∧ 2 < 3) := by
  decide
theorem witness_DampFilterValue :
    setupCoeff.lpf = .fin (mkRat 1 2) ∧ setupCoeff.hpf = .fin (mkRat 1 4) ∧ setupCoeff.hidamp = .fin (mkRat 1 2) ∧
    setupCoeff.lodamp = .fin (mkRat (-1) 2) ∧ setupCoeff.rvtime = .fin (mkRat 1 2) ∧ setupCoeff.rvscale = .fin 1 :=
  ⟨rfl, rfl, rfl, rfl, rfl, rfl⟩
theorem witness_FrozenDampFilterIsTransparent :
    (∀ q : SnapReg, frozen.coeff.get q.reg = frozenValue q) ∧ frozen.coeff.lpf = .fin (mkRat 1 2) ∧
    frozen.coeff.hpf = .fin (mkRat 1 4) :=
  ⟨fun q => by cases q <;> rfl, rfl, rfl⟩
theorem witness_ModScaleValueAndRange :
    Config.tc.wf = true ∧ -(2 ^ (Config.tc.tabW - 1) : Int) ≤ -32768 ∧ (-32768 : Int) < 2 ^ (Config.tc.tabW - 1) ∧
    -(2 ^ (Config.tc.tabW - 1) : Int) ≤ 32767 ∧ (32767 : Int) < 2 ^ (Config.tc.tabW - 1) := by
  decide +kernel
theorem witness_LfoLookupValueStaysInTheTable : Config.tc.wf = true := by decide +kernel
theorem witness_TapReadInterpolatesInsideTheLine :
    (1 ≤ 1 ∧ 1 ≤ 4) ∧ Sample.negZero.inCarrier .f32 = true ∧ Sample.negZero.isFinite = true ∧ Sample.one.isFinite = true := by
  decide
theorem witness_OutputIsTheFilteredTapSum :
    (let s : State := { ready with cfg := { Config.tc with num := .exact } }
     s.cfg.num = .exact ∧ s.mlp.get .R = .fin 0 ∧ s.coeff.mlpf = .fin (mkRat 1 2)) ∧
    (let s : State := { dirty with coeff := { setupCoeff with mlpf := .zero } }
     s.coeff.mlpf.isZero = true ∧ (s.mlp.get .L).inCarrier s.cfg.num = true ∧ (s.mlp.get .L).isFinite = true ∧
      (fsub s.cfg.num (.fin (mkRat 1 2)) (s.mlp.get .L)).isFinite = true) := by
  exact ⟨⟨rfl, rfl, rfl⟩, by decide +kernel⟩
theorem witness_FrozenSampleStepIgnoresItsInput :
    (let s : State := { frozen with cfg := { Config.tc with num := .exact } }
     s.cfg.num = .exact ∧ s.coeff.inattn = .zero) := ⟨rfl, rfl⟩

/-- TC with longer lines and all taps at one static offset, in a phase where every tap has a fractional weight. -/
def offsets (off : Int) : State :=
  { ready with
    cfg := { Config.tc with lenLdl := ⟨8, 8, 8, 8⟩, tapOff := ⟨⟨off, off, off, off⟩, ⟨off, off, off, off⟩⟩ }
    lfoInc := ⟨0x10000000#32, 0x10000000#32⟩ }

/-- Taps at `q` = 5, the last distance the corrected bound allows for `L` = 8. -/
theorem witness_OutputIgnoresInputWhenTapsStandBack :
    (offsets 5).cursorsOk = true ∧ ∀ c j, nextTapQ (offsets 5) c j + 2 < (offsets 5).cfg.lenLdl.get j := by
  refine ⟨by decide +kernel, fun c j => ?_⟩
  cases c <;> fin_cases j <;> decide
/-- Taps at `q` = 6, the last distance the spec's bound allows for `L` = 8. -/
theorem witness_OutputIgnoresInputAtTheSpecsBound :
    (offsets 6).sound = true ∧ ∀ c j, nextTapQ (offsets 6) c j + 2 ≤ (offsets 6).cfg.lenLdl.get j := by
  refine ⟨by decide +kernel, fun c j => ?_⟩
  cases c <;> fin_cases j <;> decide
theorem witness_CleanupHidesTheCursors :
    (let s : State := ready
     let t : State := { ready with ldl := ⟨⟨[], 2⟩, ⟨[], 3⟩, ⟨[], 0⟩, ⟨[], 1⟩⟩ }
     s.cursorsOk = true ∧ t.cursorsOk = true ∧ (∀ m, (s.line m).mem = [] ∧ (t.line m).mem = []) ∧
      t = { s with inap := t.inap, lap := t.lap, ldl := t.ldl }) := by
  refine ⟨by decide, by decide, fun m => ?_, rfl⟩
  rcases m with ⟨c, i⟩ | i | i
  · cases c <;> fin_cases i <;> exact ⟨rfl, rfl⟩
  · fin_cases i <;> exact ⟨rfl, rfl⟩
  · fin_cases i <;> exact ⟨rfl, rfl⟩
theorem witness_SilenceInGivesSilenceOutAfterCleanup :
    (ready.sound = true ∧ ready.silent = true ∧ ready.cfg.num.named = true) ∧
    ((fmul ready.cfg.num ready.coeff.rvtime ready.coeff.rvscale).isFinite = true ∧
      ∀ w < 2 ^ ready.cfg.modFracBits, (ofFrac ready.cfg.num w ready.cfg.modFracBits).isFinite = true ∧
        (fsub ready.cfg.num .one (ofFrac ready.cfg.num w ready.cfg.modFracBits)).isFinite = true) := by
  decide +kernel
/-- The least and the largest finite pattern; exact values just below and at the two ends of the finite range; a tie between
two patterns; a value of the carrier. -/
theorem witness_RoundingIsToNearest :
    ((0x00000000#32).extractLsb' 23 8 ≠ 0xFF#8 ∧ (0xFF7FFFFF#32).extractLsb' 23 8 ≠ 0xFF#8) ∧
    (|(2 ^ 128 - 2 ^ 103 - 1 : Rat)| < 2 ^ 128 - 2 ^ 103 ∧ |(0 : Rat)| < 2 ^ 128 - 2 ^ 103) ∧
    (2 ^ 128 - 2 ^ 103 ≤ |(2 ^ 128 - 2 ^ 103 : Rat)| ∧ 2 ^ 128 - 2 ^ 103 ≤ |(2 ^ 103 - 2 ^ 128 : Rat)|) ∧
    (let q : Rat := 2 ^ 24 + 1
     |q| < 2 ^ 128 - 2 ^ 103 ∧ (0x4B800001#32).extractLsb' 23 8 ≠ 0xFF#8 ∧
      |(roundF32 false q).val - q| = |(ofF32Bits .f32 0x4B800001#32).val - q| ∧
      (ofF32Bits .f32 0x4B800001#32).val ≠ (roundF32 false q).val) ∧
    (Sample.fin (mkRat 1 2)).inCarrier .f32 = true := by
  decide +kernel
theorem witness_ResetStateIsSound : Config.tc.wf = true := by decide +kernel
theorem witness_StepKeepsSoundness :
    ∃ s t : State, s.sound = true ∧ s.inbox ≠ [] ∧ step s = .next t :=
  ⟨{ frozen with inbox := [.cycle 0b101#3 impulse []] }, _, by decide +kernel, by decide,
    (next_of_after (by decide +kernel)).choose_spec⟩
theorem witness_StepKeepsTheCarrier :
    ∃ s t : State, s.sound = true ∧ s.carrierOk = true ∧ s.inbox ≠ [] ∧ step s = .next t :=
  ⟨{ ready with inbox := [.cycle 0b101#3 impulse []] }, _, by decide +kernel, by decide +kernel, by decide,
    (next_of_after (by decide +kernel)).choose_spec⟩
theorem witness_SoundStatesNeverFault :
    (let s : State := { ready with inbox := [.cycle 0b101#3 [] []] }
     s.sound = true ∧ step s = .refused .malformedBlock) := ⟨by decide +kernel, rfl⟩
theorem witness_RunsFromResetAreSafeAndSound :
    Config.tc.wf = true ∧ ∃ t, Host.Core.run Sys2Proof.core 1 { State.resetOf Config.tc with inbox := [.command 0x0400000000#40] } = .next t :=
  ⟨by decide +kernel, next_of_after (by decide +kernel)⟩

end Sys2Proof.Machine.Tests
end

section
/-! The rounding of `NUM_F32` on magnitudes (00_scope.md R8): the unit in the last place from both sides, which magnitudes
it leaves alone, that no rational with a 24-bit significand is nearer, and where it passes `2^128`. -/

namespace Sys2Proof

/-! ### The unit in the last place, bounded from both sides -/

theorem ulpExp_le_of_lt {a : Rat} {u : Int} (h : 0 < a) (hu : -149 ≤ u) (ha : a < 2 ^ (u + 24)) : ulpExp a ≤ u := by
  by_contra hc
  have := (zpow_lt_zpow_iff_right₀ (one_lt_two : (1 : Rat) < 2)).mp ((ulpExp_le h (by omega)).trans_lt ha)
  omega

theorem le_ulpExp_of_le {a : Rat} {u : Int} (h : 0 < a) (ha : 2 ^ (u + 23) ≤ a) : u ≤ ulpExp a := by
  have := (zpow_lt_zpow_iff_right₀ (one_lt_two : (1 : Rat) < 2)).mp (ha.trans_lt (lt_ulpExp h))
  omega

/-- A positive rational counted in units of its last place is below `2^24`. -/
theorem div_ulp_lt {a : Rat} (h : 0 < a) : a / 2 ^ ulpExp a < 2 ^ 24 := by
  rw [div_lt_iff₀ (by positivity), ← zpow_natCast, ← zpow_add₀ two_ne_zero, add_comm]
  exact lt_ulpExp h

/-- Outside the subnormal range it is at least `2^23`. -/
theorem le_div_ulp {a : Rat} (h : 0 < a) (hu : ulpExp a ≠ -149) : 2 ^ 23 ≤ a / 2 ^ ulpExp a := by
  rw [le_div_iff₀ (by positivity), ← zpow_natCast, ← zpow_add₀ two_ne_zero, add_comm]
  exact ulpExp_le h hu

/-! ### What the rounding leaves alone -/

/-- A positive rational that is a whole number of units of its last place is already rounded. -/
theorem roundMag_of_multiple {a : Rat} (h : 0 < a) {k : Nat} (hk : a = k * 2 ^ ulpExp a) : roundMag a = a := by
  obtain ⟨m, hm, near, -⟩ := roundMag_spec h
  have hx : a / 2 ^ ulpExp a = k := by rw [div_eq_iff (by positivity)]; exact hk
  rw [hx, abs_le] at near
  have h1 : m < k + 1 := by exact_mod_cast (by linarith : (m : Rat) < k + 1)
  have h2 : k < m + 1 := by exact_mod_cast (by linarith : (k : Rat) < m + 1)
  rw [hm, show m = k by omega]
  exact hk.symm

/-- A positive rational with a significand of at most 24 bits and an exponent of at least −149 is already rounded. -/
theorem roundMag_of_significand {a : Rat} (h : 0 < a) {k : Nat} {u : Int} (hk : k < 2 ^ 24) (hu : -149 ≤ u)
    (ha : a = k * 2 ^ u) : roundMag a = a := by
  have lt : a < 2 ^ (u + 24) := by
    rw [ha, add_comm, zpow_add₀ two_ne_zero]
    gcongr
    exact_mod_cast hk
  obtain ⟨n, hn⟩ := Int.eq_ofNat_of_zero_le (sub_nonneg.mpr (ulpExp_le_of_lt h hu lt))
  refine roundMag_of_multiple h (k := k * 2 ^ n) ?_
  rw [Nat.cast_mul, Nat.cast_pow, Nat.cast_ofNat, mul_assoc, ← zpow_natCast, ← zpow_add₀ two_ne_zero, ← hn,
    sub_add_cancel]
  exact ha

/-! ### The rounded magnitude -/

/-- The significand of a rounded magnitude has at most 24 bits or is `2^24`, and is normal outside the subnormal range;
the rounded magnitude is nearest among the whole numbers of units, the even one of two. -/
theorem roundMag_significand {a : Rat} (h : 0 < a) :
    ∃ m : Nat, roundMag a = m * (2 : Rat) ^ ulpExp a ∧ m ≤ 2 ^ 24 ∧ (ulpExp a = -149 ∨ 2 ^ 23 ≤ m) ∧
      |(m : Rat) - a / 2 ^ ulpExp a| ≤ 1 / 2 ∧ (|(m : Rat) - a / 2 ^ ulpExp a| = 1 / 2 → m % 2 = 0) := by
  obtain ⟨m, hm, near, even⟩ := roundMag_spec h
  have hn := abs_le.mp near
  refine ⟨m, hm, ?_, ?_, near, even⟩
  · have := div_ulp_lt h
    exact Nat.lt_succ_iff.mp (by exact_mod_cast (by linarith : (m : Rat) < 2 ^ 24 + 1))
  · refine or_iff_not_imp_left.mpr fun hu => ?_
    have := le_div_ulp h hu
    exact Nat.lt_succ_iff.mp (by exact_mod_cast (by linarith : (2 : Rat) ^ 23 < m + 1))

/-- The significand of the rounded magnitude is even. -/
def RoundsToEven (a : Rat) : Prop := ∃ m : Nat, roundMag a = m * (2 : Rat) ^ ulpExp a ∧ m % 2 = 0

/-- A rational is a signed significand of at most 24 bits times a power of two not below `2^-149`. -/
def HasSignificand (y : Rat) : Prop := ∃ (k u : Int), |k| < 2 ^ 24 ∧ -149 ≤ u ∧ y = k * 2 ^ u

theorem HasSignificand.neg {y : Rat} (h : HasSignificand y) : HasSignificand (-y) := by
  obtain ⟨k, u, hk, hu, rfl⟩ := h
  exact ⟨-k, u, by rwa [abs_neg], hu, by push_cast; ring⟩

/-- Counted in units of the last place of `a`, a rational with a 24-bit significand is a whole number, or it is at most
`2^23` while `a` is at least that. -/
theorem HasSignificand.div_ulp {a y : Rat} (h : 0 < a) (hy : HasSignificand y) :
    (∃ n : Int, y / 2 ^ ulpExp a = n) ∨ (y / 2 ^ ulpExp a ≤ 2 ^ 23 ∧ 2 ^ 23 ≤ a / 2 ^ ulpExp a) := by
  obtain ⟨k, u, hk, hu, rfl⟩ := hy
  have hdiv : (k : Rat) * 2 ^ u / 2 ^ ulpExp a = k * 2 ^ (u - ulpExp a) := by
    rw [zpow_sub₀ two_ne_zero, mul_div_assoc]
  rw [hdiv]
  rcases le_or_gt (ulpExp a) u with hle | hlt
  · obtain ⟨n, hn⟩ := Int.eq_ofNat_of_zero_le (sub_nonneg.mpr hle)
    exact .inl ⟨k * 2 ^ n, by rw [hn]; push_cast; rfl⟩
  · refine .inr ⟨?_, le_div_ulp h (by omega)⟩
    have k24 : (k : Rat) ≤ 2 ^ 24 := by exact_mod_cast ((le_abs_self k).trans_lt hk).le
    calc (k : Rat) * 2 ^ (u - ulpExp a) ≤ 2 ^ 24 * 2 ^ (-1 : Int) := by
          gcongr
          · norm_num
          · omega
      _ = 2 ^ 23 := by norm_num

/-- A whole number within one half of `x` is at least as near as a whole number or as what is separated from `x` by one; if
another is as near, the distance is one half. -/
theorem nearest_whole {x y : Rat} {m : Nat} (near : |(m : Rat) - x| ≤ 1 / 2)
    (hy : (∃ n : Int, y = n) ∨ (y ≤ 2 ^ 23 ∧ 2 ^ 23 ≤ x)) :
    |(m : Rat) - x| ≤ |y - x| ∧ (|(m : Rat) - x| = |y - x| → y ≠ m → |(m : Rat) - x| = 1 / 2) := by
  have whole (n : Int) : |(m : Rat) - x| ≤ |(n : Rat) - x| ∧
      (|(m : Rat) - x| = |(n : Rat) - x| → (n : Rat) ≠ m → |(m : Rat) - x| = 1 / 2) := by
    by_cases hn : n = m
    · subst hn; simp
    · have apart : (1 : Rat) ≤ |(n : Rat) - m| := by
        exact_mod_cast Int.one_le_abs (sub_ne_zero.mpr hn)
      have tri : |(n : Rat) - m| ≤ |(n : Rat) - x| + |(m : Rat) - x| := by
        rw [abs_sub_comm (m : Rat) x]; exact abs_sub_le ..
      exact ⟨by linarith, fun e _ => by linarith⟩
  rcases hy with ⟨n, rfl⟩ | ⟨hle, hge⟩
  · exact whole n
  · obtain ⟨le, tie⟩ := whole (2 ^ 23)
    rw [Int.cast_pow, Int.cast_ofNat] at le tie
    rw [abs_sub_comm (2 ^ 23) x, abs_of_nonneg (sub_nonneg.mpr hge)] at le tie
    rw [abs_sub_comm y x, abs_of_nonneg (sub_nonneg.mpr (hle.trans hge))]
    refine ⟨by linarith, fun e hne => tie (by linarith) fun h => hne ?_⟩
    rw [← h]; linarith

/-- No rational with a 24-bit significand is nearer to `a` than the rounded magnitude, and where another is as near the
rounded one is even. -/
theorem roundMag_nearest {a y : Rat} (h : 0 < a) (hy : HasSignificand y) :
    |roundMag a - a| ≤ |y - a| ∧ (|roundMag a - a| = |y - a| → y ≠ roundMag a → RoundsToEven a) := by
  obtain ⟨m, hm, -, -, near, even⟩ := roundMag_significand h
  have hp : (0 : Rat) < 2 ^ ulpExp a := by positivity
  have scale (z : Rat) : |z - a| = |z / 2 ^ ulpExp a - a / 2 ^ ulpExp a| * 2 ^ ulpExp a := by
    rw [← sub_div, abs_div, abs_of_pos hp, div_mul_cancel₀ _ hp.ne']
  have hmx : roundMag a / 2 ^ ulpExp a = m := by rw [hm, mul_div_cancel_right₀ _ hp.ne']
  obtain ⟨le, tie⟩ := nearest_whole near (hy.div_ulp h)
  rw [scale (roundMag a), scale y, hmx]
  refine ⟨by gcongr, fun e hne => ⟨m, hm, even (tie (mul_right_cancel₀ hp.ne' e) fun he => hne ?_)⟩⟩
  rw [hm, ← he, div_mul_cancel₀ _ hp.ne']

/-- What rounds, ties to even, stays below an even whole number when it lies below that number by more than one half. -/
theorem lt_even_iff {x : Rat} {m k : Nat} (near : |(m : Rat) - x| ≤ 1 / 2)
    (even : |(m : Rat) - x| = 1 / 2 → m % 2 = 0) (hk : k % 2 = 0) : m < k ↔ x < k - 1 / 2 := by
  have hn := abs_le.mp near
  constructor
  · intro h
    have h1 : (m : Rat) + 1 ≤ k := by exact_mod_cast h
    refine lt_of_le_of_ne (by linarith) fun e => ?_
    have hmk : (m : Rat) + 1 = k := by linarith
    have hodd : m % 2 = 0 := even (by rw [e, ← hmk, show (m : Rat) - (m + 1 - 1 / 2) = -(1 / 2) by ring]; norm_num)
    have : m + 1 = k := by exact_mod_cast hmk
    omega
  · intro h
    exact_mod_cast (by linarith : (m : Rat) < k)

/-- A magnitude below the midpoint of the largest finite value and `2^128` rounds below `2^128`; any other rounds to `2^128`
or above. -/
theorem roundMag_lt_iff {a : Rat} (h : 0 < a) : roundMag a < 2 ^ 128 ↔ a < 2 ^ 128 - 2 ^ 103 := by
  obtain ⟨m, hm, le24, normal, near, even⟩ := roundMag_significand h
  have hp : (0 : Rat) < 2 ^ ulpExp a := by positivity
  have ha : a = a / 2 ^ ulpExp a * 2 ^ ulpExp a := (div_mul_cancel₀ _ hp.ne').symm
  have hx := div_ulp_lt h
  rcases lt_trichotomy (ulpExp a) 104 with hu | hu | hu
  · have hle : (2 : Rat) ^ ulpExp a ≤ 2 ^ 103 := by
      rw [← zpow_natCast]; exact zpow_le_zpow_right₀ one_le_two (by push_cast; omega)
    refine iff_of_true ?_ ?_
    · calc roundMag a ≤ 2 ^ 24 * 2 ^ 103 := by rw [hm]; gcongr; exact_mod_cast le24
        _ < _ := by norm_num
    · calc a ≤ 2 ^ 24 * 2 ^ 103 := by rw [ha]; gcongr
        _ < _ := by norm_num
  · have e104 : (2 : Rat) ^ ulpExp a = 2 ^ 104 := by rw [hu]; norm_cast
    have hlow : roundMag a < 2 ^ 128 ↔ m < 2 ^ 24 := by
      rw [hm, e104, show (2 : Rat) ^ 128 = 2 ^ 24 * 2 ^ 104 by norm_num, mul_lt_mul_iff_left₀ (by norm_num)]
      exact_mod_cast Iff.rfl
    have hmid : a < 2 ^ 128 - 2 ^ 103 ↔ a / 2 ^ ulpExp a < 2 ^ 24 - 1 / 2 := by
      rw [e104, div_lt_iff₀ (by norm_num)]; norm_num
    rw [hlow, hmid]
    exact lt_even_iff near even (by norm_num)
  · have hge : (2 : Rat) ^ 105 ≤ 2 ^ ulpExp a := by
      rw [← zpow_natCast]; exact zpow_le_zpow_right₀ one_le_two (by push_cast; omega)
    refine iff_of_false (not_lt.mpr ?_) (not_lt.mpr ?_)
    · calc (2 : Rat) ^ 128 = 2 ^ 23 * 2 ^ 105 := by norm_num
        _ ≤ roundMag a := by rw [hm]; gcongr; exact_mod_cast normal.resolve_left (by omega)
    · calc (2 : Rat) ^ 128 - 2 ^ 103 ≤ 2 ^ 23 * 2 ^ 105 := by norm_num
        _ ≤ a := by rw [ha]; gcongr; exact le_div_ulp h (by omega)

end Sys2Proof
end

section
/-! The words of binary32 (30_encoding.md R62) and the three statements about them: a finite pattern is worth what its fields
say, it comes back from its value, and rounding delivers the nearest one. -/

namespace Sys2Proof

/-! ### The three fields of a word -/

/-- The biased exponent of a word. -/
def expField (v : BitVec 32) : Nat := (v.extractLsb' 23 8).toNat

/-- The fraction of a word. -/
def fracField (v : BitVec 32) : Nat := (v.extractLsb' 0 23).toNat

/-- A word from its three fields. -/
def f32Word (s : Bool) (e f : Nat) : BitVec 32 := BitVec.ofBool s ++ BitVec.ofNat 8 e ++ BitVec.ofNat 23 f

theorem fracField_lt (v : BitVec 32) : fracField v < 2 ^ 23 := (v.extractLsb' 0 23).isLt

/-- A finite pattern is one whose exponent field is below 255. -/
theorem finite_pattern_iff {v : BitVec 32} : v.extractLsb' 23 8 ≠ 0xFF#8 ↔ expField v < 255 := by
  have := (v.extractLsb' 23 8).isLt
  rw [Ne, ← BitVec.toNat_inj, BitVec.toNat_ofNat, expField]
  omega

/-- A word is made of its fields. -/
theorem f32Word_of_fields (v : BitVec 32) : f32Word (v.getLsbD 31) (expField v) (fracField v) = v := by
  rw [f32Word, expField, fracField, BitVec.ofNat_toNat, BitVec.ofNat_toNat, BitVec.setWidth_eq, BitVec.setWidth_eq]
  ext i hi
  simp only [BitVec.getElem_append, BitVec.getElem_extractLsb', BitVec.getElem_ofBool]
  split_ifs with h1 h2
  · simp [BitVec.getLsbD_eq_getElem hi]
  · rw [show 23 + (i - 23) = i by omega, BitVec.getLsbD_eq_getElem hi]
  · rw [← BitVec.getLsbD_eq_getElem hi, show i = 31 by omega]

theorem getLsbD_31_f32Word (s : Bool) (e f : Nat) : (f32Word s e f).getLsbD 31 = s := by
  simp only [f32Word, BitVec.getLsbD_append]; simp

theorem expField_f32Word (s : Bool) {e : Nat} (f : Nat) (he : e < 2 ^ 8) : expField (f32Word s e f) = e := by
  rw [expField, f32Word, BitVec.extractLsb'_append_eq_of_le le_rfl, Nat.sub_self, BitVec.extractLsb'_append_eq_right,
    BitVec.toNat_ofNat, Nat.mod_eq_of_lt he]

theorem fracField_f32Word (s : Bool) (e : Nat) {f : Nat} (hf : f < 2 ^ 23) : fracField (f32Word s e f) = f := by
  rw [fracField, f32Word, BitVec.extractLsb'_append_eq_right, BitVec.toNat_ofNat, Nat.mod_eq_of_lt hf]

/-- The lowest bit of a word is that of its fraction. -/
theorem getLsbD_0_f32Word (s : Bool) (e f : Nat) : (f32Word s e f).getLsbD 0 = decide (f % 2 = 1) := by
  rw [f32Word, BitVec.getLsbD_append, if_pos (by decide), BitVec.getLsbD_ofNat, Nat.testBit_zero]
  simp

/-! ### What a finite pattern is worth -/

/-- The significand of a pattern, from its biased exponent and its fraction. -/
def f32Sig (e f : Nat) : Nat := if e = 0 then f else 2 ^ 23 + f

/-- The exponent of the last place of a pattern, from its biased exponent. -/
def f32Exp (e : Nat) : Int := max (e : Int) 1 - 150

theorem f32Sig_lt {f : Nat} (e : Nat) (hf : f < 2 ^ 23) : f32Sig e f < 2 ^ 24 := by
  unfold f32Sig; split <;> omega

theorem f32Exp_ge (e : Nat) : -149 ≤ f32Exp e := by unfold f32Exp; omega

/-- The magnitude of a pattern is its significand in units of its last place. -/
theorem f32Mag_eq (e f : Nat) : f32Mag e f = f32Sig e f * (2 : Rat) ^ f32Exp e := by
  unfold f32Mag f32Sig f32Exp
  split_ifs with h0 h1
  · subst h0
    rw [Rat.mkRat_eq_div, show max ((0 : Nat) : Int) 1 - 150 = -149 by decide]
    norm_num [zpow_neg, div_eq_mul_inv]
  · rw [Rat.mkRat_eq_div, show max (e : Int) 1 - 150 = -((150 - e : Nat) : Int) by omega, zpow_neg, zpow_natCast,
      div_eq_mul_inv]
    push_cast; rfl
  · rw [show max (e : Int) 1 - 150 = ((e - 150 : Nat) : Int) by omega, zpow_natCast]
    push_cast; rfl

theorem f32Mag_nonneg (e f : Nat) : 0 ≤ f32Mag e f := by rw [f32Mag_eq]; positivity

/-- The magnitude of a finite pattern is below `2^128`. -/
theorem f32Mag_lt {e f : Nat} (he : e < 255) (hf : f < 2 ^ 23) : f32Mag e f < 2 ^ 128 := by
  rw [f32Mag_eq]
  calc (f32Sig e f : Rat) * 2 ^ f32Exp e < 2 ^ 24 * 2 ^ f32Exp e := by
        gcongr
        exact_mod_cast f32Sig_lt e hf
    _ ≤ 2 ^ 24 * 2 ^ (104 : Int) := by
        gcongr
        · norm_num
        · unfold f32Exp; omega
    _ = 2 ^ 128 := by norm_num

/-- The magnitude of a pattern is already rounded. -/
theorem roundMag_f32Mag {e f : Nat} (hf : f < 2 ^ 23) (h : f32Mag e f ≠ 0) : roundMag (f32Mag e f) = f32Mag e f :=
  roundMag_of_significand (lt_of_le_of_ne (f32Mag_nonneg e f) h.symm) (f32Sig_lt e hf) (f32Exp_ge e) (f32Mag_eq e f)

/-- The unit in the last place of the magnitude of a pattern. -/
theorem ulpExp_f32Mag {e f : Nat} (hf : f < 2 ^ 23) (h : f32Mag e f ≠ 0) : ulpExp (f32Mag e f) = f32Exp e := by
  have hpos := lt_of_le_of_ne (f32Mag_nonneg e f) h.symm
  have split24 (n : Nat) : (2 : Rat) ^ (f32Exp e + n) = 2 ^ n * 2 ^ f32Exp e := by
    rw [add_comm, zpow_add₀ two_ne_zero, zpow_natCast]
  refine le_antisymm (ulpExp_le_of_lt hpos (f32Exp_ge e) ?_) ?_
  · rw [f32Mag_eq, show (24 : Int) = (24 : Nat) from rfl, split24]
    gcongr
    exact_mod_cast f32Sig_lt e hf
  · by_cases he : e = 0
    · subst he; exact ulpExp_ge _
    · refine le_ulpExp_of_le hpos ?_
      rw [f32Mag_eq, show (23 : Int) = (23 : Nat) from rfl, split24]
      gcongr
      rw [f32Sig, if_neg he]
      exact_mod_cast (by omega : 2 ^ 23 ≤ 2 ^ 23 + f)

/-- A significand that fits, in units of a last place that fits, is the magnitude of a finite pattern when it is below
`2^128`; an even significand gives an even pattern. -/
theorem exists_f32Mag {m : Nat} {u : Int} (hm : m ≤ 2 ^ 24) (hu : -149 ≤ u) (normal : u = -149 ∨ 2 ^ 23 ≤ m)
    (hlt : (m : Rat) * 2 ^ u < 2 ^ 128) :
    ∃ e f, e < 255 ∧ f < 2 ^ 23 ∧ f32Mag e f = m * 2 ^ u ∧ (m % 2 = 0 → f % 2 = 0) := by
  have bound (n : Nat) (hn : 2 ^ n ≤ m) : u + n < 128 := by
    have h1 : (2 : Rat) ^ (u + n) ≤ m * 2 ^ u := by
      rw [add_comm, zpow_add₀ two_ne_zero, zpow_natCast]
      gcongr
      exact_mod_cast hn
    exact (zpow_lt_zpow_iff_right₀ (one_lt_two : (1 : Rat) < 2)).mp (h1.trans_lt (by exact_mod_cast hlt))
  rcases lt_or_ge m (2 ^ 23) with small | big
  · refine ⟨0, m, by omega, small, ?_, id⟩
    rw [f32Mag_eq, normal.resolve_right (by omega)]
    rfl
  · have hb := bound 23 big
    obtain ⟨n, hn⟩ := Int.eq_ofNat_of_zero_le (by omega : 0 ≤ u + 149)
    rcases hm.lt_or_eq with lt | rfl
    · refine ⟨n + 1, m - 2 ^ 23, by omega, by omega, ?_, by omega⟩
      rw [f32Mag_eq, f32Sig, if_neg (by omega), f32Exp, show 2 ^ 23 + (m - 2 ^ 23) = m by omega,
        show max ((n + 1 : Nat) : Int) 1 - 150 = u by omega]
    · have hb' := bound 24 le_rfl
      refine ⟨n + 2, 0, by omega, by omega, ?_, by omega⟩
      rw [f32Mag_eq, f32Sig, if_neg (by omega), f32Exp, show max ((n + 2 : Nat) : Int) 1 - 150 = u + 1 by omega,
        zpow_add₀ two_ne_zero]
      push_cast; ring

/-! ### Signed magnitudes -/

/-- A magnitude with a sign. -/
def signed (neg : Bool) (m : Rat) : Rat := if neg then -m else m

theorem abs_signed (neg : Bool) (m : Rat) : |signed neg m| = |m| := by
  cases neg
  · rfl
  · exact abs_neg m

theorem signed_signed (neg : Bool) (m : Rat) : signed neg (signed neg m) = m := by
  cases neg
  · rfl
  · exact neg_neg m

/-- Moving a sign from one side of a distance to the other. -/
theorem abs_signed_sub (neg : Bool) (m q : Rat) : |signed neg m - q| = |m - signed neg q| := by
  cases neg
  · rfl
  · rw [signed, signed, if_pos rfl, if_pos rfl, ← abs_neg]; congr 1; ring

/-- A rational is its magnitude with its sign. -/
theorem signed_abs (q : Rat) : signed (decide (q < 0)) |q| = q := by
  by_cases h : q < 0
  · simp [signed, h, abs_of_neg h]
  · simp [signed, h, abs_of_nonneg (not_lt.mp h)]

theorem HasSignificand.signed {y : Rat} (h : HasSignificand y) (neg : Bool) : HasSignificand (signed neg y) := by
  cases neg
  · exact h
  · exact h.neg

/-- What `Sample.ofMag` makes of a magnitude in the finite range. -/
theorem ofMag_finite (neg : Bool) {m : Rat} (h0 : 0 ≤ m) (h : m < 2 ^ 128) :
    (Sample.ofMag neg m).isFinite = true ∧ (Sample.ofMag neg m).isNeg = neg ∧
      (Sample.ofMag neg m).val = signed neg m := by
  have hp : ¬ pow2 128 ≤ m := by rw [pow2_eq]; exact not_le.mpr h
  unfold Sample.ofMag
  rw [if_neg hp]
  rcases h0.eq_or_lt with rfl | hpos
  · rw [if_pos rfl]
    cases neg <;> simp [Sample.zeroOf, Sample.isFinite, Sample.isNeg, Sample.val, signed]
  · rw [if_neg hpos.ne']
    refine ⟨rfl, ?_, rfl⟩
    cases neg <;> simp [Sample.isNeg, hpos, h0]

/-- Past the finite range it is an infinity. -/
theorem ofMag_overflow (neg : Bool) {m : Rat} (h : 2 ^ 128 ≤ m) : Sample.ofMag neg m = .inf neg := by
  have hp : pow2 128 ≤ m := by rw [pow2_eq]; exact h
  rw [Sample.ofMag, if_neg (by rintro rfl; norm_num at h), if_pos hp]

/-- The value of a finite pattern is its magnitude with its sign bit. -/
theorem ofF32Bits_f32 {v : BitVec 32} (hv : expField v < 255) :
    ofF32Bits .f32 v = Sample.ofMag (v.getLsbD 31) (f32Mag (expField v) (fracField v)) := by
  have hp : ¬ pow2 128 ≤ f32Mag (expField v) (fracField v) := by
    rw [pow2_eq]; exact not_le.mpr (f32Mag_lt hv (fracField_lt v))
  change (if f32Mag (expField v) (fracField v) = 0 then roundF32 (v.getLsbD 31) 0 else _) = _
  rw [Sample.ofMag, if_neg hp]
  rfl

/-- A finite pattern is worth its magnitude with its sign bit. -/
theorem ofF32Bits_f32_val {v : BitVec 32} (hv : expField v < 255) :
    (ofF32Bits .f32 v).isFinite = true ∧ (ofF32Bits .f32 v).isNeg = v.getLsbD 31 ∧
      (ofF32Bits .f32 v).val = signed (v.getLsbD 31) (f32Mag (expField v) (fracField v)) := by
  rw [ofF32Bits_f32 hv]
  exact ofMag_finite _ (f32Mag_nonneg _ _) (f32Mag_lt hv (fracField_lt v))

/-- The value of a finite pattern has a 24-bit significand. -/
theorem ofF32Bits_hasSignificand {v : BitVec 32} (hv : expField v < 255) : HasSignificand (ofF32Bits .f32 v).val := by
  rw [(ofF32Bits_f32_val hv).2.2]
  refine HasSignificand.signed ⟨f32Sig (expField v) (fracField v), _, ?_, f32Exp_ge _, f32Mag_eq _ _⟩ _
  rw [Nat.abs_cast]
  exact_mod_cast f32Sig_lt _ (fracField_lt v)

/-! ### Rounding as a signed magnitude -/

theorem roundMag_zero : roundMag 0 = 0 := by decide +kernel

/-- The sign a rounded value takes: that of the exact value, or the one asked for when that is zero. -/
def roundSign (neg : Bool) (q : Rat) : Bool := if q = 0 then neg else decide (q < 0)

theorem roundF32_eq (neg : Bool) (q : Rat) : roundF32 neg q = Sample.ofMag (roundSign neg q) (roundMag |q|) := by
  unfold roundF32 roundSign
  split_ifs with h0 hn
  · rw [h0, abs_zero, roundMag_zero, Sample.ofMag, if_pos rfl]
  · rw [abs_of_neg hn, decide_eq_true hn]
  · rw [abs_of_nonneg (not_lt.mp hn), decide_eq_false hn]

/-- A magnitude that rounds below `2^128` rounds to that of a finite pattern of any sign asked for, an even one where the
rounding went to the even side. -/
theorem exists_pattern_roundMag (s : Bool) {a : Rat} (h : 0 ≤ a) (hlt : a < 2 ^ 128 - 2 ^ 103) :
    ∃ v : BitVec 32, expField v < 255 ∧ v.getLsbD 31 = s ∧ f32Mag (expField v) (fracField v) = roundMag a ∧
      (RoundsToEven a → v.getLsbD 0 = false) := by
  rcases h.eq_or_lt with rfl | hpos
  · refine ⟨f32Word s 0 0, ?_, getLsbD_31_f32Word .., ?_, fun _ => by rw [getLsbD_0_f32Word]; rfl⟩
    · rw [expField_f32Word s 0 (by norm_num)]; norm_num
    · rw [expField_f32Word s 0 (by norm_num), fracField_f32Word s 0 (by norm_num), roundMag_zero]; decide +kernel
  · have hr := (roundMag_lt_iff hpos).mpr hlt
    obtain ⟨m, hm, le24, normal, -, -⟩ := roundMag_significand hpos
    rw [hm] at hr ⊢
    obtain ⟨e, f, he, hf, hmag, heven⟩ := exists_f32Mag le24 (ulpExp_ge a) normal hr
    refine ⟨f32Word s e f, ?_, getLsbD_31_f32Word .., ?_, ?_⟩
    · rwa [expField_f32Word s f (by omega)]
    · rw [expField_f32Word s f (by omega), fracField_f32Word s e hf, hmag]
    · rintro ⟨n, hn, even⟩
      have hmn : m = n := by
        have := mul_right_cancel₀ (by positivity) (hm.symm.trans hn)
        exact_mod_cast this
      have := heven (hmn ▸ even)
      rw [getLsbD_0_f32Word, decide_eq_false_iff_not]
      omega

/-- An exact value below the midpoint of the largest finite value and `2^128` rounds to the value of a finite pattern of
its sign, an even one where the rounding went to the even side. -/
theorem exists_pattern_roundF32 (neg : Bool) {q : Rat} (h : |q| < 2 ^ 128 - 2 ^ 103) :
    ∃ v : BitVec 32, expField v < 255 ∧ roundF32 neg q = ofF32Bits .f32 v ∧ v.getLsbD 31 = roundSign neg q ∧
      (RoundsToEven |q| → v.getLsbD 0 = false) := by
  obtain ⟨v, hv, hs, hmag, heven⟩ := exists_pattern_roundMag (roundSign neg q) (abs_nonneg q) h
  exact ⟨v, hv, by rw [ofF32Bits_f32 hv, hs, hmag, roundF32_eq], hs, heven⟩

theorem roundF32_overflow (neg : Bool) {q : Rat} (h : 2 ^ 128 - 2 ^ 103 ≤ |q|) : roundF32 neg q = .inf (decide (q < 0)) := by
  have hpos : 0 < |q| := lt_of_lt_of_le (by norm_num) h
  rw [roundF32_eq, ofMag_overflow _ (not_lt.mp fun hr => not_lt.mpr h ((roundMag_lt_iff hpos).mp hr)), roundSign,
    if_neg (abs_pos.mp hpos)]

/-- No finite pattern is worth a value nearer to `q` than the rounded one, and where another value is as near the rounding
went to the even side. -/
theorem roundF32_nearest (neg : Bool) {q : Rat} (h : |q| < 2 ^ 128 - 2 ^ 103) {w : BitVec 32} (hw : expField w < 255) :
    |(roundF32 neg q).val - q| ≤ |(ofF32Bits .f32 w).val - q| ∧
      (|(roundF32 neg q).val - q| = |(ofF32Bits .f32 w).val - q| → (ofF32Bits .f32 w).val ≠ (roundF32 neg q).val →
        RoundsToEven |q|) := by
  rcases eq_or_ne q 0 with rfl | hq
  · have hz : (roundF32 neg 0).val = 0 := by cases neg <;> rfl
    rw [hz, sub_zero, sub_zero, abs_zero]
    exact ⟨abs_nonneg _, fun e hne => absurd (abs_eq_zero.mp e.symm) hne⟩
  · have hpos := abs_pos.mpr hq
    have hval : (roundF32 neg q).val = signed (decide (q < 0)) (roundMag |q|) := by
      obtain ⟨v, hv, -, hmag, -⟩ := exists_pattern_roundMag false (abs_nonneg q) h
      rw [roundF32_eq, roundSign, if_neg hq, ← hmag]
      exact (ofMag_finite _ (f32Mag_nonneg _ _) (f32Mag_lt hv (fracField_lt v))).2.2
    set s := decide (q < 0) with hs
    set y := (ofF32Bits .f32 w).val
    have hq' : signed s q = |q| := by
      conv_lhs => rw [← signed_abs q, ← hs, signed_signed]
    have hy : |y - q| = |signed s y - (|q|)| := by
      rw [← hq', ← abs_signed_sub, signed_signed]
    rw [hval, hy, abs_signed_sub, hq']
    obtain ⟨near, tie⟩ := roundMag_nearest hpos ((ofF32Bits_hasSignificand hw).signed s)
    refine ⟨near, fun e hne => tie e fun he => hne ?_⟩
    rw [← he, signed_signed]

/-! ### From a value back to its pattern -/

/-- The significand `toF32Bits` reads off a magnitude, in units of its last place. -/
def readSig (a : Rat) : Nat := (a / pow2 (ulpExp a)).floor.toNat

/-- The biased exponent it reads off. -/
def readExp (a : Rat) : Nat := if readSig a < 2 ^ 23 then 0 else (ulpExp a + 150).toNat

theorem toF32Bits_fin {q : Rat} (hq : q ≠ 0) :
    toF32Bits (.fin q) = f32Word (decide (q < 0)) (readExp |q|) (readSig |q|) := by
  have ha : (if q < 0 then -q else q) = |q| := by
    split_ifs with h
    · rw [abs_of_neg h]
    · rw [abs_of_nonneg (not_lt.mp h)]
  simp only [toF32Bits, if_neg hq, ha]
  rfl

theorem readSig_f32Mag {e f : Nat} (hf : f < 2 ^ 23) (h : f32Mag e f ≠ 0) : readSig (f32Mag e f) = f32Sig e f := by
  rw [readSig, ulpExp_f32Mag hf h, pow2_eq, f32Mag_eq, mul_div_cancel_right₀ _ (by positivity),
    ← Int.cast_natCast, Rat.floor_intCast, Int.toNat_natCast]

theorem readExp_f32Mag {e f : Nat} (hf : f < 2 ^ 23) (h : f32Mag e f ≠ 0) : readExp (f32Mag e f) = e := by
  rw [readExp, readSig_f32Mag hf h, ulpExp_f32Mag hf h, f32Sig, f32Exp]
  by_cases he : e = 0
  · rw [if_pos he, if_pos hf, he]
  · rw [if_neg he, if_neg (by omega)]; omega

/-- The leading bit of the significand is not stored. -/
theorem f32Word_f32Sig (s : Bool) (e f : Nat) : f32Word s e (f32Sig e f) = f32Word s e f := by
  unfold f32Word f32Sig
  split
  · rfl
  · congr 1
    apply BitVec.eq_of_toNat_eq
    simp only [BitVec.toNat_ofNat]
    omega

/-- `toF32Bits` gives a finite pattern back from its sign and its magnitude. -/
theorem toF32Bits_ofMag (s : Bool) {e f : Nat} (he : e < 255) (hf : f < 2 ^ 23) :
    toF32Bits (Sample.ofMag s (f32Mag e f)) = f32Word s e f := by
  by_cases h0 : f32Mag e f = 0
  · have hsig : f32Sig e f = 0 := by
      rw [f32Mag_eq] at h0
      exact_mod_cast (mul_eq_zero.mp h0).resolve_right (by positivity)
    obtain ⟨rfl, rfl⟩ : e = 0 ∧ f = 0 := by
      unfold f32Sig at hsig; split at hsig <;> omega
    rw [h0, Sample.ofMag, if_pos rfl]
    cases s <;> decide
  · have hp : ¬ pow2 128 ≤ f32Mag e f := by rw [pow2_eq]; exact not_le.mpr (f32Mag_lt he hf)
    have hpos := lt_of_le_of_ne (f32Mag_nonneg e f) (Ne.symm h0)
    have hsign : decide (signed s (f32Mag e f) < 0) = s := by
      cases s <;> simp [signed, hpos, hpos.le]
    have hne : signed s (f32Mag e f) ≠ 0 := by
      cases s <;> simp [signed, h0]
    rw [Sample.ofMag, if_neg h0, if_neg hp]
    change toF32Bits (.fin (signed s (f32Mag e f))) = _
    rw [toF32Bits_fin hne, abs_signed, abs_of_pos hpos, readSig_f32Mag hf h0, readExp_f32Mag hf h0, f32Word_f32Sig, hsign]

/-! ### The carrier of `NUM_F32` -/

/-- A finite rational with an already rounded magnitude below `2^128` is a value of the carrier. -/
theorem fin_inCarrier_f32 {q : Rat} (hr : roundMag |q| = |q|) (hlt : |q| < 2 ^ 128) :
    (Sample.fin q).inCarrier .f32 = true := by
  have hp : ¬ pow2 128 ≤ |q| := by rw [pow2_eq]; exact not_le.mpr hlt
  rw [Sample.inCarrier, decide_eq_true_eq, roundF32_eq, hr, Sample.ofMag, roundSign, if_neg hp]
  by_cases h0 : q = 0
  · subst h0; rfl
  · rw [if_neg (by simpa using h0), if_neg h0]
    exact congrArg Sample.fin (signed_abs q)

/-- The value of a finite pattern is a value of the carrier. -/
theorem ofF32Bits_inCarrier_f32 {v : BitVec 32} (hv : expField v < 255) : (ofF32Bits .f32 v).inCarrier .f32 = true := by
  obtain ⟨hfin, -, hval⟩ := ofF32Bits_f32_val hv
  have habs : |(ofF32Bits .f32 v).val| = f32Mag (expField v) (fracField v) := by
    rw [hval, abs_signed, abs_of_nonneg (f32Mag_nonneg _ _)]
  cases hx : ofF32Bits .f32 v with
  | fin q =>
    rw [hx] at habs
    have habs : |q| = f32Mag (expField v) (fracField v) := habs
    refine fin_inCarrier_f32 ?_ (habs ▸ f32Mag_lt hv (fracField_lt v))
    by_cases h0 : f32Mag (expField v) (fracField v) = 0
    · rw [habs, h0, roundMag_zero]
    · rw [habs, roundMag_f32Mag (fracField_lt v) h0]
  | negZero => rfl
  | inf n => rw [hx] at hfin; cases hfin
  | nan => rw [hx] at hfin; cases hfin

/-- Rounding gives the value of a finite pattern or an infinity. -/
theorem roundF32_cases (neg : Bool) (q : Rat) :
    (∃ v : BitVec 32, expField v < 255 ∧ roundF32 neg q = ofF32Bits .f32 v) ∨ ∃ n, roundF32 neg q = .inf n := by
  rcases lt_or_ge |q| (2 ^ 128 - 2 ^ 103) with h | h
  · obtain ⟨v, hv, e, -⟩ := exists_pattern_roundF32 neg h
    exact .inl ⟨v, hv, e⟩
  · exact .inr ⟨_, roundF32_overflow neg h⟩

/-- The carrier of `NUM_F32`: the values of the finite patterns, the infinities, the NaN. -/
theorem inCarrier_f32_iff (x : Sample) : x.inCarrier .f32 = true ↔
    (∃ w : BitVec 32, expField w < 255 ∧ x = ofF32Bits .f32 w) ∨ (∃ n, x = .inf n) ∨ x = .nan := by
  constructor
  · intro h
    cases x with
    | fin q =>
      have hq : roundF32 false q = .fin q := of_decide_eq_true h
      rcases roundF32_cases false q with ⟨v, hv, e⟩ | ⟨n, e⟩
      · exact .inl ⟨v, hv, hq.symm.trans e⟩
      · rw [hq] at e; cases e
    | negZero => exact .inl ⟨0x80000000#32, by decide, by decide +kernel⟩
    | inf n => exact .inr (.inl ⟨n, rfl⟩)
    | nan => exact .inr (.inr rfl)
  · rintro (⟨w, hw, rfl⟩ | ⟨n, rfl⟩ | rfl)
    · exact ofF32Bits_inCarrier_f32 hw
    · rfl
    · rfl

/-- The magnitude of a finite pattern, written with its two fields. -/
theorem f32Mag_fields (v : BitVec 32) : f32Mag (expField v) (fracField v) =
    if v.extractLsb' 23 8 = 0#8 then ((v.extractLsb' 0 23).toNat : Rat) / 2 ^ 149
    else (2 ^ 23 + ((v.extractLsb' 0 23).toNat : Rat)) * 2 ^ (((v.extractLsb' 23 8).toNat : Int) - 150) := by
  have hz : v.extractLsb' 23 8 = 0#8 ↔ expField v = 0 := by rw [← BitVec.toNat_inj]; rfl
  rw [f32Mag_eq, f32Sig, f32Exp]
  by_cases h : expField v = 0
  · rw [if_pos h, if_pos (hz.mpr h), h, div_eq_mul_inv]
    rfl
  · rw [if_neg h, if_neg (mt hz.mp h), max_eq_left (by omega)]
    push_cast
    rfl

/-! ### The statements -/

/-- Settles O24: the pattern and the carrier, each by the lemma about the signed magnitude of a word. -/
theorem finiteOperandKeepsItsPattern : Obligations.FiniteOperandKeepsItsPattern := by
  intro v hv
  have he := finite_pattern_iff.mp hv
  refine ⟨?_, ofF32Bits_inCarrier_f32 he⟩
  rw [ofF32Bits_f32 he, toF32Bits_ofMag _ he (fracField_lt v), f32Word_of_fields]

/-- Settles O55: what a finite pattern is worth, the nearest pattern, the overflow, the carrier. -/
theorem roundingIsToNearest : Obligations.RoundingIsToNearest := by
  unfold Obligations.RoundingIsToNearest
  simp only [finite_pattern_iff]
  refine ⟨fun w hw => ?_, fun neg q hq => ?_, fun neg q hq => roundF32_overflow neg hq, inCarrier_f32_iff⟩
  · obtain ⟨hfin, hneg, hval⟩ := ofF32Bits_f32_val hw
    refine ⟨hfin, hneg, ?_⟩
    rw [hval, abs_signed, abs_of_nonneg (f32Mag_nonneg _ _), f32Mag_fields]
  · obtain ⟨v, hv, hround, hsign, heven⟩ := exists_pattern_roundF32 neg hq
    refine ⟨v, hv, hround, hsign, fun w hw => ?_⟩
    obtain ⟨near, tie⟩ := roundF32_nearest neg hq hw
    exact ⟨near, fun e hne => heven (tie e hne)⟩

end Sys2Proof
end

section
/-! The configuration check of a step (00_scope.md R6). -/

namespace Sys2Proof.Machine

/-- Settles O11: `step` asks the configuration first. -/
theorem illFormedConfigurationIsRefused : Obligations.IllFormedConfigurationIsRefused := by
  intro s hwf
  rw [step, if_neg (by rw [hwf]; exact Bool.false_ne_true)]

end Sys2Proof.Machine
end

section
/-! The carrier of `NUM` (00_scope.md R8): every primitive delivers a value of it, and every operation of the machine keeps
the samples of the state inside it. -/

namespace Sys2Proof

/-! ### The primitives -/

theorem finite_of_inCarrier_exact {x : Sample} (h : x.inCarrier .exact = true) : x.isFinite = true := by
  cases x with
  | fin q => rfl
  | negZero => cases h
  | inf n => cases h
  | nan => cases h

/-- What a primitive delivers for an exact value is a value of the carrier, in every `NUM`. -/
theorem deliver_inCarrier (k : NumKind) (p : Primitive) (neg : Bool) (q : Rat) : (k.deliver p neg q).inCarrier k = true := by
  cases k with
  | f32 =>
    rw [NumKind.deliver, inCarrier_f32_iff]
    exact (roundF32_cases neg q).imp_right .inl
  | exact => rfl
  | other id => exact (deliver_other_spec id p neg q).1

/-- A NaN or an infinity is a value of the carrier of every `NUM` but the exact one. -/
theorem inCarrier_of_not_finite {k : NumKind} (hk : k ≠ .exact) {x : Sample} (h : x.isFinite = false) :
    x.inCarrier k = true := by
  cases x with
  | fin q => cases h
  | negZero => cases h
  | inf n => exact decide_eq_true hk
  | nan => exact decide_eq_true hk

/-- A sum is finite only of finite operands. -/
theorem sumAs_not_finite {k : NumKind} {p : Primitive} {a b : Sample} (h : ¬(a.isFinite = true ∧ b.isFinite = true)) :
    (sumAs k p a b).isFinite = false := by
  cases a <;> cases b <;> simp only [Sample.isFinite, and_self, not_true_eq_false] at h
  case inf.inf =>
    simp only [sumAs]
    split <;> rfl
  all_goals rfl

/-- A product is finite only of finite operands. -/
theorem fmul_not_finite {k : NumKind} {a b : Sample} (h : ¬(a.isFinite = true ∧ b.isFinite = true)) :
    (fmul k a b).isFinite = false := by
  cases a <;> cases b <;> simp only [Sample.isFinite, and_self, not_true_eq_false] at h
  case inf.fin | inf.negZero | inf.inf | fin.inf | negZero.inf =>
    simp only [fmul]
    split <;> rfl
  all_goals rfl

/-- A sum is a value of the carrier; under exact arithmetic, whose carrier has finite values only, that needs finite
operands. -/
theorem sumAs_inCarrier {k : NumKind} (p : Primitive) {a b : Sample}
    (h : k = .exact → a.isFinite = true ∧ b.isFinite = true) : (sumAs k p a b).inCarrier k = true := by
  by_cases hf : a.isFinite = true ∧ b.isFinite = true
  · rw [sumAs_finite hf.1 hf.2]; exact deliver_inCarrier ..
  · exact inCarrier_of_not_finite (fun hk => hf (h hk)) (sumAs_not_finite hf)

theorem fadd_inCarrier {k : NumKind} {a b : Sample} (ha : a.inCarrier k = true) (hb : b.inCarrier k = true) :
    (fadd k a b).inCarrier k = true :=
  sumAs_inCarrier _ fun hk => by
    subst hk; exact ⟨finite_of_inCarrier_exact ha, finite_of_inCarrier_exact hb⟩

theorem Sample.isFinite_neg (x : Sample) : x.neg.isFinite = x.isFinite := by
  cases x with
  | fin q => rw [Sample.neg]; split <;> rfl
  | negZero => rfl
  | inf n => rfl
  | nan => rfl

theorem fsub_inCarrier {k : NumKind} {a b : Sample} (ha : a.inCarrier k = true) (hb : b.inCarrier k = true) :
    (fsub k a b).inCarrier k = true :=
  sumAs_inCarrier _ fun hk => by
    subst hk; exact ⟨finite_of_inCarrier_exact ha, (Sample.isFinite_neg b).trans (finite_of_inCarrier_exact hb)⟩

theorem fmul_inCarrier {k : NumKind} {a b : Sample} (ha : a.inCarrier k = true) (hb : b.inCarrier k = true) :
    (fmul k a b).inCarrier k = true := by
  by_cases hf : a.isFinite = true ∧ b.isFinite = true
  · rw [fmul_finite hf.1 hf.2]; exact deliver_inCarrier ..
  · refine inCarrier_of_not_finite (fun hk => hf ?_) (fmul_not_finite hf)
    subst hk
    exact ⟨finite_of_inCarrier_exact ha, finite_of_inCarrier_exact hb⟩

theorem ofConst_inCarrier (k : NumKind) (q : Rat) : (ofConst k q).inCarrier k = true := deliver_inCarrier ..

/-- A fraction below 1 with at most 24 bits is a value of the carrier. -/
theorem ofFrac_inCarrier (k : NumKind) {n f : Nat} (hn : n < 2 ^ f) (hf : f ≤ 24) : (ofFrac k n f).inCarrier k = true := by
  cases k with
  | f32 =>
    have hq : mkRat n (2 ^ f) = (n : Rat) * 2 ^ (-(f : Int)) := by
      rw [Rat.mkRat_eq_div, zpow_neg, zpow_natCast, div_eq_mul_inv]; push_cast; rfl
    have h0 : (0 : Rat) ≤ mkRat n (2 ^ f) := by rw [hq]; positivity
    have h24 : n < 2 ^ 24 := hn.trans_le (Nat.pow_le_pow_right (by norm_num) hf)
    refine fin_inCarrier_f32 ?_ ?_
    · rw [abs_of_nonneg h0]
      rcases h0.eq_or_lt with hz | hpos
      · rw [← hz, roundMag_zero]
      · exact roundMag_of_significand hpos h24 (by omega) hq
    · rw [abs_of_nonneg h0, Rat.mkRat_eq_div, div_lt_iff₀ (by positivity)]
      calc ((n : Int) : Rat) < ((2 ^ f : Nat) : Rat) := by exact_mod_cast hn
        _ ≤ 2 ^ 128 * ((2 ^ f : Nat) : Rat) := le_mul_of_one_le_left (by positivity) (by norm_num)
  | exact => rfl
  | other id => exact deliver_inCarrier ..

/-- A finite operand is a value of the carrier, in every `NUM`. -/
theorem ofF32Bits_inCarrier (k : NumKind) {v : BitVec 32} (hv : expField v < 255) : (ofF32Bits k v).inCarrier k = true := by
  cases k with
  | f32 => exact ofF32Bits_inCarrier_f32 hv
  | exact => simp only [ofF32Bits]; split <;> rfl
  | other id => exact deliver_inCarrier ..

/-- The ends of the legal ranges are values of the carrier. -/
theorem Config.lo_inCarrier (c : Config) (r : Reg) : (c.lo r).inCarrier c.num = true := by
  cases r
  case kin | klp => exact ofConst_inCarrier ..
  case lodamp => exact minusOne_inCarrier _
  all_goals exact zero_inCarrier _

theorem Config.hi_inCarrier (c : Config) (r : Reg) : (c.hi r).inCarrier c.num = true := by
  cases r
  case kin | klp => exact ofConst_inCarrier ..
  case lodamp => exact zero_inCarrier _
  all_goals exact one_inCarrier _

namespace Machine

/-! ### The memories -/

theorem Memory.inCarrier_iff {k : NumKind} {m : Memory} :
    Memory.inCarrier k m = true ↔ ∀ e ∈ m, e.2.inCarrier k = true := by
  rw [Memory.inCarrier, List.all_eq_true]

theorem Memory.read_inCarrier {k : NumKind} (i : Nat) :
    ∀ {m : Memory}, Memory.inCarrier k m = true → (Memory.read m i).inCarrier k = true
  | [], _ => zero_inCarrier k
  | (j, v) :: m, h => by
    obtain ⟨hv, hm⟩ : v.inCarrier k = true ∧ Memory.inCarrier k m = true := by
      simpa only [Memory.inCarrier, List.all_cons, Bool.and_eq_true] using h
    rw [Memory.read]
    split
    · exact hv
    · exact Memory.read_inCarrier i hm

theorem Memory.write_inCarrier {k : NumKind} {m : Memory} (i : Nat) {v : Sample} (h : Memory.inCarrier k m = true)
    (hv : v.inCarrier k = true) : Memory.inCarrier k (Memory.write m i v) = true := by
  rw [Memory.inCarrier_iff] at h ⊢
  intro e he
  rcases Memory.mem_write he with rfl | he
  · exact hv
  · exact h e he

/-! ### The samples of the state -/

/-- Every sample the state holds is a value of the carrier, by register and by RAM. -/
structure Carried (s : State) : Prop where
  line : ∀ m, Memory.inCarrier s.cfg.num (s.line m).mem = true
  lpfSt : ∀ i, (s.lpfSt.get i).inCarrier s.cfg.num = true
  hpfSt : ∀ i, (s.hpfSt.get i).inCarrier s.cfg.num = true
  loopOut : s.loopOut.inCarrier s.cfg.num = true
  mlp : ∀ c, (s.mlp.get c).inCarrier s.cfg.num = true
  coeff : ∀ r, (s.coeff.get r).inCarrier s.cfg.num = true
  snap : ∀ q, (s.snap.get q).inCarrier s.cfg.num = true

theorem Quad.every_iff {α : Type} (p : Quad α) (f : α → Bool) : p.every f = true ↔ ∀ i, f (p.get i) = true := by
  rw [Quad.every, Bool.and_eq_true, Bool.and_eq_true, Bool.and_eq_true]
  constructor
  · rintro ⟨⟨⟨h0, h1⟩, h2⟩, h3⟩ i
    fin_cases i
    exacts [h0, h1, h2, h3]
  · intro h
    exact ⟨⟨⟨h 0, h 1⟩, h 2⟩, h 3⟩

theorem Reg.mem_list (r : Reg) : r ∈ Reg.list := by cases r <;> decide

theorem SnapReg.mem_list (q : SnapReg) : q ∈ SnapReg.list := by cases q <;> decide

theorem carrierOk_iff {s : State} : s.carrierOk = true ↔ Carried s := by
  simp only [State.carrierOk, Bool.and_eq_true, State.everyLine_iff, Quad.every_iff, List.all_eq_true]
  constructor
  · rintro ⟨⟨⟨⟨⟨⟨⟨line, lpf⟩, hpf⟩, out⟩, ml⟩, mr⟩, coeff⟩, snap⟩
    exact ⟨line, lpf, hpf, out, fun c => by cases c; exacts [ml, mr], fun r => coeff r (Reg.mem_list r),
      fun q => snap q (SnapReg.mem_list q)⟩
  · intro h
    exact ⟨⟨⟨⟨⟨⟨⟨h.line, h.lpfSt⟩, h.hpfSt⟩, h.loopOut⟩, h.mlp .L⟩, h.mlp .R⟩, fun r _ => h.coeff r⟩, fun q _ => h.snap q⟩

/-! ### One update of a carried state -/

section Update

variable {s : State}

/-- The accumulators, increments, flags and ports hold no sample of the carrier. -/
theorem Carried.setControl (h : Carried s) (acc inc : Duo (BitVec 32)) (byp frz hld cln : Bool) (qs : List Request)
    (a : Stereo Block) (rs : List Reply) :
    Carried { s with
      lfoAcc := acc, lfoInc := inc, bypass := byp, freeze := frz, hold := hld, cleanupDone := cln, inbox := qs
      audioIn := a, replies := rs } :=
  ⟨h.line, h.lpfSt, h.hpfSt, h.loopOut, h.mlp, h.coeff, h.snap⟩

theorem Carried.setCoeffs (h : Carried s) {c : Regs Sample} (hc : ∀ r, (c.get r).inCarrier s.cfg.num = true) :
    Carried { s with coeff := c } :=
  ⟨h.line, h.lpfSt, h.hpfSt, h.loopOut, h.mlp, hc, h.snap⟩

theorem Carried.setSnap (h : Carried s) {p : Snap Sample} (hp : ∀ q, (p.get q).inCarrier s.cfg.num = true) :
    Carried { s with snap := p } :=
  ⟨h.line, h.lpfSt, h.hpfSt, h.loopOut, h.mlp, h.coeff, hp⟩

theorem Carried.setLoopOut (h : Carried s) {x : Sample} (hx : x.inCarrier s.cfg.num = true) :
    Carried { s with loopOut := x } :=
  ⟨h.line, h.lpfSt, h.hpfSt, hx, h.mlp, h.coeff, h.snap⟩

theorem Carried.setMlp (h : Carried s) (c : Chan) {x : Sample} (hx : x.inCarrier s.cfg.num = true) :
    Carried { s with mlp := s.mlp.set c x } := by
  refine ⟨h.line, h.lpfSt, h.hpfSt, h.loopOut, fun e => ?_, h.coeff, h.snap⟩
  rw [Stereo.get_set]
  split
  · exact hx
  · exact h.mlp e

theorem Carried.setDamp (h : Carried s) (i : Fin 4) {x y : Sample} (hx : x.inCarrier s.cfg.num = true)
    (hy : y.inCarrier s.cfg.num = true) : Carried { s with lpfSt := s.lpfSt.set i x, hpfSt := s.hpfSt.set i y } := by
  refine ⟨h.line, fun j => ?_, fun j => ?_, h.loopOut, h.mlp, h.coeff, h.snap⟩ <;> rw [Quad.get_set] <;> split
  · exact hx
  · exact h.lpfSt j
  · exact hy
  · exact h.hpfSt j

/-- New contents of the delay RAMs. -/
theorem Carried.setLines (h : Carried s) {ia : Stereo (Quad DelayLine)} {la ld : Quad DelayLine}
    (hi : ∀ c i, Memory.inCarrier s.cfg.num ((ia.get c).get i).mem = true)
    (hla : ∀ i, Memory.inCarrier s.cfg.num (la.get i).mem = true)
    (hld : ∀ i, Memory.inCarrier s.cfg.num (ld.get i).mem = true) :
    Carried { s with inap := ia, lap := la, ldl := ld } := by
  refine ⟨fun m => ?_, h.lpfSt, h.hpfSt, h.loopOut, h.mlp, h.coeff, h.snap⟩
  cases m with
  | inap c i => exact hi c i
  | lap i => exact hla i
  | ldl i => exact hld i

/-- A group of four RAMs stays carried when one of them is given carried contents. -/
theorem Quad.set_line_inCarrier {k : NumKind} {p : Quad DelayLine} {d : DelayLine}
    (hp : ∀ i, Memory.inCarrier k (p.get i).mem = true) (i : Fin 4) (hd : Memory.inCarrier k d.mem = true) (j : Fin 4) :
    Memory.inCarrier k ((p.set i d).get j).mem = true := by
  rw [Quad.get_set]
  split
  · exact hd
  · exact hp j

theorem Carried.setInap (h : Carried s) (c : Chan) (i : Fin 4) {d : DelayLine}
    (hd : Memory.inCarrier s.cfg.num d.mem = true) :
    Carried { s with inap := s.inap.set c ((s.inap.get c).set i d) } := by
  refine h.setLines (fun e => ?_) (fun j => h.line (.lap j)) (fun j => h.line (.ldl j))
  rw [Stereo.get_set]
  split
  · exact Quad.set_line_inCarrier (fun j => h.line (.inap c j)) i hd
  · exact fun j => h.line (.inap e j)

theorem Carried.setLap (h : Carried s) (i : Fin 4) {d : DelayLine} (hd : Memory.inCarrier s.cfg.num d.mem = true) :
    Carried { s with lap := s.lap.set i d } :=
  h.setLines (fun c j => h.line (.inap c j)) (Quad.set_line_inCarrier (fun j => h.line (.lap j)) i hd)
    fun j => h.line (.ldl j)

theorem Carried.setLdl (h : Carried s) (i : Fin 4) {d : DelayLine} (hd : Memory.inCarrier s.cfg.num d.mem = true) :
    Carried { s with ldl := s.ldl.set i d } :=
  h.setLines (fun c j => h.line (.inap c j)) (fun j => h.line (.lap j))
    (Quad.set_line_inCarrier (fun j => h.line (.ldl j)) i hd)

end Update

/-! ### The sample step (45_tank.md R141) -/

/-- A state under the configuration `c` and a sample on its way through it, all in the carrier. -/
def CarriedPair (c : Config) (r : State × Sample) : Prop := Carried r.1 ∧ r.1.cfg = c ∧ r.2.inCarrier c.num = true

/-- The word and the output of one allpass stage. -/
theorem apStep_inCarrier {n : NumKind} (len : Nat) {m : DelayLine} {x k : Sample}
    (hm : Memory.inCarrier n m.mem = true) (hx : x.inCarrier n = true) (hk : k.inCarrier n = true) :
    Memory.inCarrier n (apStep n len m x k).1.mem = true ∧ (apStep n len m x k).2.inCarrier n = true := by
  have hy : (apStep n len m x k).2.inCarrier n = true :=
    fadd_inCarrier (Memory.read_inCarrier _ hm) (fmul_inCarrier hx hk)
  exact ⟨Memory.write_inCarrier _ hm (fsub_inCarrier hx (fmul_inCarrier hk hy)), hy⟩

theorem inapStep_carried {c : Config} (ch : Chan) (i : Fin 4) {r : State × Sample} (h : CarriedPair c r) :
    CarriedPair c (inapStep ch i r) := by
  obtain ⟨hs, rfl, hx⟩ := h
  obtain ⟨hm, hy⟩ := apStep_inCarrier ((r.1.cfg.lenIn.get ch).get i) (hs.line (.inap ch i)) hx (hs.coeff .kin)
  exact ⟨hs.setInap ch i hm, rfl, hy⟩

/-- The attenuated input through the four stages of its channel. -/
theorem apChain_carried {c : Config} (ch : Chan) {s : State} {x : Sample} (hs : Carried s) (hc : s.cfg = c)
    (hx : x.inCarrier c.num = true) : CarriedPair c (apChain ch s (inputAttn s x)) := by
  have attn : CarriedPair c (s, inputAttn s x) := by
    subst hc; exact ⟨hs, rfl, fmul_inCarrier hx (hs.coeff .inattn)⟩
  exact inapStep_carried ch 3 (inapStep_carried ch 2 (inapStep_carried ch 1 (inapStep_carried ch 0 attn)))

theorem lapStep_carried {c : Config} (i : Fin 4) {r : State × Sample} (h : CarriedPair c r) :
    CarriedPair c (lapStep i r) := by
  obtain ⟨hs, rfl, hx⟩ := h
  obtain ⟨hm, hy⟩ := apStep_inCarrier (r.1.cfg.lenLap.get i) (hs.line (.lap i)) hx (hs.coeff .klp)
  exact ⟨hs.setLap i hm, rfl, hy⟩

theorem dlyStep_carried {c : Config} (i : Fin 4) {r : State × Sample} (h : CarriedPair c r) :
    CarriedPair c (dlyStep i r) := by
  obtain ⟨hs, rfl, hx⟩ := h
  have hline := hs.line (.ldl i)
  exact ⟨hs.setLdl i (Memory.write_inCarrier _ hline hx), rfl, Memory.read_inCarrier _ hline⟩

/-- The states and the output of one damping filter. -/
theorem dampFilter_inCarrier {n : NumKind} {c : Regs Sample} {lp hp x : Sample}
    (hc : ∀ r, (c.get r).inCarrier n = true) (hlp : lp.inCarrier n = true) (hhp : hp.inCarrier n = true)
    (hx : x.inCarrier n = true) :
    (dampFilter n c lp hp x).lpf.inCarrier n = true ∧ (dampFilter n c lp hp x).hpf.inCarrier n = true ∧
      (dampFilter n c lp hp x).y.inCarrier n = true := by
  have hl : (dampFilter n c lp hp x).lpf.inCarrier n = true :=
    fadd_inCarrier hlp (fmul_inCarrier (fsub_inCarrier hx hlp) (hc .lpf))
  have hh : (dampFilter n c lp hp x).hpf.inCarrier n = true :=
    fadd_inCarrier hhp (fmul_inCarrier (fsub_inCarrier hl hhp) (hc .hpf))
  have shelves := fadd_inCarrier (fadd_inCarrier hl (fmul_inCarrier (fsub_inCarrier hx hl) (hc .hidamp)))
    (fmul_inCarrier hh (hc .lodamp))
  exact ⟨hl, hh, fmul_inCarrier shelves (fmul_inCarrier (hc .rvtime) (hc .rvscale))⟩

theorem dampStep_carried {c : Config} (i : Fin 4) {r : State × Sample} (h : CarriedPair c r) :
    CarriedPair c (dampStep i r) := by
  obtain ⟨hs, rfl, hx⟩ := h
  obtain ⟨hl, hh, hy⟩ := dampFilter_inCarrier hs.coeff (hs.lpfSt i) (hs.hpfSt i) hx
  exact ⟨hs.setDamp i hl hh, rfl, hy⟩

theorem ringStage_carried {c : Config} {d : Stereo Sample} (hd : ∀ ch, (d.get ch).inCarrier c.num = true) (i : Fin 4)
    {r : State × Sample} (h : CarriedPair c r) : CarriedPair c (ringStage d i r) := by
  obtain ⟨hs, rfl, hx⟩ := h
  exact dampStep_carried i (dlyStep_carried i (lapStep_carried i ⟨hs, rfl, fadd_inCarrier hx (hd _)⟩))

theorem loop_carried {c : Config} {s : State} {l r : Sample} (hs : Carried s) (hc : s.cfg = c)
    (hl : l.inCarrier c.num = true) (hr : r.inCarrier c.num = true) : Carried (loop s ⟨l, r⟩) := by
  have hd (ch : Chan) : ((⟨l, r⟩ : Stereo Sample).get ch).inCarrier c.num = true := by
    cases ch with
    | L => exact hl
    | R => exact hr
  have enter : CarriedPair c (s, s.loopOut) := ⟨hs, hc, hc ▸ hs.loopOut⟩
  obtain ⟨h3, hc3, hx3⟩ :=
    ringStage_carried hd 3 (ringStage_carried hd 2 (ringStage_carried hd 1 (ringStage_carried hd 0 enter)))
  exact h3.setLoopOut (hc3.symm ▸ hx3)

/-- The weight of a tap is a fraction below 1. -/
theorem modSplit_lt (cfg : Config) (m : Int) : (modSplit cfg m).2 < 2 ^ cfg.modFracBits := by
  have hp : (0 : Int) < 2 ^ cfg.modFracBits := by positivity
  have lt := Int.emod_lt_of_pos m hp
  have ge := Int.emod_nonneg m hp.ne'
  have : ((modSplit cfg m).2 : Int) < ((2 ^ cfg.modFracBits : Nat) : Int) := by
    rw [modSplit, Int.toNat_of_nonneg ge]; exact_mod_cast lt
  exact_mod_cast this

theorem tapRead_inCarrier {s : State} (hs : Carried s) (hf : s.cfg.modFracBits ≤ 24) (i : Fin 4) (off m : Int) :
    (tapRead s i off m).inCarrier s.cfg.num = true := by
  have word (j : Nat) := Memory.read_inCarrier j (hs.line (.ldl i))
  have hw := ofFrac_inCarrier s.cfg.num (modSplit_lt s.cfg m) hf
  exact fadd_inCarrier (fmul_inCarrier (word _) (fsub_inCarrier (one_inCarrier _) hw)) (fmul_inCarrier (word _) hw)

theorem tapMix_inCarrier (cfg : Config) (c : Chan) {t : Quad Sample} (ht : ∀ j, (t.get j).inCarrier cfg.num = true) :
    (tapMix cfg c t).inCarrier cfg.num = true := by
  have term (j : Fin 4) (q : Rat) := fmul_inCarrier (ht j) (ofConst_inCarrier cfg.num q)
  exact fadd_inCarrier (fadd_inCarrier (fadd_inCarrier (term 0 _) (term 1 _)) (term 2 _)) (term 3 _)

theorem outStep_carried (o : Duo LfoOut) (ch : Chan) {s : State} (hs : Carried s) (hf : s.cfg.modFracBits ≤ 24) :
    Carried (outStep o ch s).1 := by
  have mix := tapMix_inCarrier s.cfg ch (t := ⟨tap s o ch 0, tap s o ch 1, tap s o ch 2, tap s o ch 3⟩) fun j => by
    fin_cases j <;> exact tapRead_inCarrier hs hf ..
  exact hs.setMlp ch (fadd_inCarrier (hs.mlp ch) (fmul_inCarrier (fsub_inCarrier mix (hs.mlp ch)) (hs.coeff .mlpf)))

theorem sample_carried {s : State} {x : Sample × Sample} (hs : Carried s) (hf : s.cfg.modFracBits ≤ 24)
    (hl : x.1.inCarrier s.cfg.num = true) (hr : x.2.inCarrier s.cfg.num = true) : Carried (sample s x).1 := by
  have tick : Carried (lfoTick (lfoTick s 0) 1) := hs.setControl ..
  obtain ⟨left, leftCfg, leftOut⟩ := apChain_carried .L (c := s.cfg) tick rfl hl
  obtain ⟨right, rightCfg, rightOut⟩ := apChain_carried .R left leftCfg hr
  have ring := loop_carried right rightCfg leftOut rightOut
  have outL := outStep_carried ⟨lfoOut (lfoTick (lfoTick s 0) 1) 0, lfoOut (lfoTick (lfoTick s 0) 1) 1⟩ .L ring
    (by rwa [loop_cfg, rightCfg])
  exact outStep_carried _ .R outL (by rwa [outStep_cfg, loop_cfg, rightCfg])

/-- A block of sample steps over inputs of the carrier. -/
theorem runBlock_carried {xs : List (Sample × Sample)} {s : State} (hs : Carried s) (hf : s.cfg.modFracBits ≤ 24)
    (hx : ∀ x ∈ xs, x.1.inCarrier s.cfg.num = true ∧ x.2.inCarrier s.cfg.num = true) : Carried (runBlock s xs).1 := by
  induction xs generalizing s with
  | nil => exact hs
  | cons x xs ih =>
    obtain ⟨⟨hl, hr⟩, hxs⟩ := List.forall_mem_cons.mp hx
    rw [runBlock_cons]
    exact ih (sample_carried hs hf hl hr) (by rwa [sample_cfg]) (by rwa [sample_cfg])

/-! ### Cleanup, reset, cycles (45_tank.md R143, R147 to R149, 70_reset_and_hazards.md R210) -/

theorem Quad.get_all {α : Type} (x : α) (i : Fin 4) : (Quad.all x).get i = x := by fin_cases i <;> rfl

theorem cleanup_line (s : State) (m : Ram) : (cleanup s).line m = (s.line m).clear := by
  cases m with
  | inap c i => cases c <;> fin_cases i <;> rfl
  | lap i => fin_cases i <;> rfl
  | ldl i => fin_cases i <;> rfl

theorem cleanup_carried {s : State} (h : Carried s) : Carried (cleanup s) := by
  have zero (i : Fin 4) : ((Quad.all Sample.zero).get i).inCarrier s.cfg.num = true := by
    rw [Quad.get_all]; exact zero_inCarrier _
  refine ⟨fun m => ?_, zero, zero, zero_inCarrier _, fun c => ?_, h.coeff, h.snap⟩
  · rw [cleanup_line]; rfl
  · cases c <;> exact zero_inCarrier _

theorem resetOf_line (c : Config) (m : Ram) : (State.resetOf c).line m = .reset := by
  cases m with
  | inap ch i => cases ch <;> exact Quad.get_all _ i
  | lap i => exact Quad.get_all _ i
  | ldl i => exact Quad.get_all _ i

theorem resetOf_carried (c : Config) : Carried (State.resetOf c) := by
  have zero (i : Fin 4) : ((Quad.all Sample.zero).get i).inCarrier c.num = true := by
    rw [Quad.get_all]; exact zero_inCarrier _
  refine ⟨fun m => ?_, zero, zero, zero_inCarrier _, fun ch => ?_, fun r => ?_, fun q => ?_⟩
  · rw [resetOf_line]; rfl
  · cases ch <;> exact zero_inCarrier _
  · cases r <;> exact ofConst_inCarrier ..
  · cases q <;> exact zero_inCarrier _

theorem resetAll_carried (s : State) : Carried (resetAll s) := (resetOf_carried s.cfg).setControl ..

theorem bypassedCycle_carried {s : State} (h : Carried s) : Carried (bypassedCycle s) := by
  unfold bypassedCycle
  split
  · exact h.setControl ..
  · exact (cleanup_carried h).setControl ..

/-- An effective input block holds values of the carrier when a present block fits the port. -/
theorem effective_inCarrier {c : Config} {present : Bool} {b : Block} (h : (!present || c.blockFits b) = true) :
    ∀ x ∈ effective c present b, x.inCarrier c.num = true := by
  intro x hx
  cases present with
  | false =>
    obtain ⟨-, rfl⟩ := List.mem_replicate.mp hx
    exact zero_inCarrier _
  | true =>
    simp only [Bool.not_true, Bool.false_or, Config.blockFits, Bool.and_eq_true, List.all_eq_true] at h
    exact h.2 x hx

theorem processingCycle_carried {rp lp : Bool} {s : State} (h : Carried s) (hf : s.cfg.modFracBits ≤ 24)
    (hp : s.portOk rp lp = true) : Carried (processingCycle rp lp s) := by
  obtain ⟨fitsL, fitsR⟩ := Bool.and_eq_true_iff.mp hp
  have start : Carried { s with cleanupDone := false } := h.setControl ..
  refine (runBlock_carried start hf fun x hx => ?_).setControl ..
  obtain ⟨hl, hr⟩ := List.of_mem_zip hx
  exact ⟨effective_inCarrier fitsL _ hl, effective_inCarrier fitsR _ hr⟩

theorem execCycle_carried {ok rp lp : Bool} {s t : State} (h : Carried s) (hf : s.cfg.modFracBits ≤ 24)
    (ht : execCycle ok rp lp s = .next t) : Carried t := by
  rcases execCycle_cases ht with ⟨-, rfl⟩ | ⟨-, -, rfl⟩ | ⟨-, -, -, rfl⟩ | ⟨-, -, -, hp, -, rfl⟩
  · exact h
  · exact bypassedCycle_carried h
  · exact h.setControl ..
  · exact processingCycle_carried h hf hp

/-! ### Commands (46_control.md) -/

/-- `FREEZE_ENTER` saves the five registers the snapshot has. -/
theorem freezeEnter_snap_get (s : State) (q : SnapReg) : (freezeEnter s).snap.get q = s.coeff.get q.reg := by
  cases q <;> rfl

/-- It gives those five their substitutes. -/
theorem freezeEnter_coeff_get (s : State) (r : Reg) :
    (freezeEnter s).coeff.get r = (snapOf r).elim (s.coeff.get r) frozenValue := by
  cases r <;> rfl

/-- `FREEZE_EXIT` takes those five from the snapshot. -/
theorem freezeExit_coeff_get (s : State) (r : Reg) :
    (freezeExit s).coeff.get r = (snapOf r).elim (s.coeff.get r) s.snap.get := by
  cases r <;> rfl

theorem frozenValue_inCarrier (k : NumKind) (q : SnapReg) : (frozenValue q).inCarrier k = true := by
  cases q
  case rvtime | hidamp | rvscale => exact one_inCarrier k
  case lodamp | inattn => exact zero_inCarrier k

theorem freezeEnter_carried {s : State} (h : Carried s) : Carried (freezeEnter s) := by
  refine ⟨h.line, h.lpfSt, h.hpfSt, h.loopOut, h.mlp, fun r => ?_, fun q => ?_⟩
  · rw [freezeEnter_coeff_get]
    cases snapOf r with
    | none => exact h.coeff r
    | some q => exact frozenValue_inCarrier _ q
  · rw [freezeEnter_snap_get]; exact h.coeff q.reg

theorem freezeExit_carried {s : State} (h : Carried s) : Carried (freezeExit s) := by
  refine ⟨h.line, h.lpfSt, h.hpfSt, h.loopOut, h.mlp, fun r => ?_, h.snap⟩
  rw [freezeExit_coeff_get]
  cases snapOf r with
  | none => exact h.coeff r
  | some q => exact h.snap q

theorem freezeTo_carried (b : Bool) {s : State} (h : Carried s) : Carried (freezeTo b s) := by
  rcases freezeTo_cases b s with ⟨-, -, -, e⟩ | ⟨-, -, e⟩ | ⟨-, -, e⟩ <;> rw [e]
  · exact freezeEnter_carried h
  · exact freezeExit_carried h
  · exact h

theorem execBypass_carried {b : Bool} {s t : State} (h : Carried s) (ht : execBypass b s = .next t) : Carried t := by
  cases ht
  split_ifs
  · exact h
  · exact (freezeExit_carried h).setControl ..
  · exact h.setControl ..
  · exact h.setControl ..

theorem clamp_inCarrier {k : NumKind} {lo hi c : Sample} (hlo : lo.inCarrier k = true) (hhi : hi.inCarrier k = true)
    (hc : c.inCarrier k = true) : (clamp lo hi c).inCarrier k = true := by
  unfold clamp
  dsimp only
  split_ifs <;> assumption

/-- What a format-V operand writes is a value of the carrier. -/
theorem operandValue_inCarrier {cfg : Config} {r : Reg} {v : BitVec 32} {c : Sample}
    (h : operandValue cfg r v = some c) : c.inCarrier cfg.num = true := by
  unfold operandValue at h
  split at h
  · cases h
  · cases h; exact cfg.hi_inCarrier r
  · cases h; exact cfg.lo_inCarrier r
  · next hv =>
    cases h
    have hfin : v.extractLsb' 23 8 ≠ 0xFF#8 := by
      intro he
      rw [classify, if_pos he] at hv
      split_ifs at hv
    exact clamp_inCarrier (cfg.lo_inCarrier r) (cfg.hi_inCarrier r) (ofF32Bits_inCarrier _ (finite_pattern_iff.mp hfin))

theorem setCoeff_carried (r : Reg) (v : BitVec 32) {s : State} (h : Carried s) : Carried (setCoeff r v s) := by
  unfold setCoeff
  split
  · exact h
  · next c hc =>
    have hx := operandValue_inCarrier hc
    unfold writeCoeff
    split
    · refine h.setSnap fun q => ?_
      rw [Snap.get_set]; split
      · exact hx
      · exact h.snap q
    · refine h.setCoeffs fun q => ?_
      rw [Regs.get_set]; split
      · exact hx
      · exact h.coeff q

/-! ### The step -/

theorem exec_carried {i : Instr} {s t : State} (h : Carried s) (hf : s.cfg.modFracBits ≤ 24)
    (ht : exec i s = .next t) : Carried t := by
  cases i
  case cycle ok rp lp => exact execCycle_carried h hf ht
  case bypass b => exact execBypass_carried h ht
  all_goals cases ht
  case nop => exact h
  case reset => exact resetAll_carried s
  case freeze b => exact freezeTo_carried b h
  case frztgl => exact freezeTo_carried _ h
  case lock | unlock | rdstat | setLfo0inc | setLfo1inc => exact h.setControl ..
  all_goals exact setCoeff_carried _ _ h

theorem accept_carried {s : State} (h : Carried s) (q : Request) (rest : List Request) : Carried (s.accept q rest) := by
  obtain ⟨a, e⟩ := accept_eq s q rest
  rw [e]
  exact h.setControl ..

theorem modFracBits_le_of_wf {c : Config} (h : c.wf = true) : c.modFracBits ≤ 24 := by
  simp only [Config.wf, Config.modulationOk, Bool.and_eq_true, decide_eq_true_eq] at h
  obtain ⟨⟨⟨⟨-, -, hfrac⟩, -⟩, -⟩, -⟩ := h
  exact hfrac

theorem step_carried {s t : State} (h : Carried s) (ht : step s = .next t) : Carried t := by
  obtain ⟨hwf, ⟨-, rfl⟩ | ⟨q, rest, -, hcase⟩⟩ := step_cases ht
  · exact h
  · have acc := accept_carried h q rest
    have hcfg : (s.accept q rest).cfg = s.cfg := by
      obtain ⟨a, e⟩ := accept_eq s q rest
      rw [e]
    rcases hcase with ⟨-, rfl⟩ | ⟨-, rfl⟩ | ⟨i, -, hi⟩
    · exact resetAll_carried _
    · exact acc
    · exact exec_carried acc (hcfg ▸ modFracBits_le_of_wf hwf) hi

/-- Settles O58, by the cases of a step; each primitive delivers a value of the carrier (`deliver_inCarrier`). -/
theorem stepKeepsTheCarrier : Obligations.StepKeepsTheCarrier := by
  intro s t _ hs ht
  exact carrierOk_iff.mpr (step_carried (carrierOk_iff.mp hs) ht)

end Machine

end Sys2Proof
end

section
/-! What a cycle does to the registers of the control port, and what a block of sample steps does to the cursors, the
accumulators and the words of the delay RAMs (45_tank.md R147). -/

namespace Sys2Proof.Machine

/-! ### The registers of the control port -/

/-- Two states agree on the configuration and on every register that the control port alone writes (10_state.md R10,
20_memory.md R46). -/
structure SameRegisters (s t : State) : Prop where
  cfg : t.cfg = s.cfg
  coeff : t.coeff = s.coeff
  lfoInc : t.lfoInc = s.lfoInc
  snap : t.snap = s.snap
  bypass : t.bypass = s.bypass
  freeze : t.freeze = s.freeze
  hold : t.hold = s.hold

theorem bypassedCycle_sameRegisters (s : State) : SameRegisters s (bypassedCycle s) := by
  unfold bypassedCycle
  split <;> exact ⟨rfl, rfl, rfl, rfl, rfl, rfl, rfl⟩

theorem processingCycle_sameRegisters (rp lp : Bool) (s : State) : SameRegisters s (processingCycle rp lp s) := by
  obtain ⟨cfg, coeff, lfoInc, snap, bypass, freeze, hold, -, -⟩ := processingCycle_control rp lp s
  exact ⟨cfg, coeff, lfoInc, snap, bypass, freeze, hold⟩

theorem execCycle_sameRegisters {ok rp lp : Bool} {s t : State} (h : execCycle ok rp lp s = .next t) :
    SameRegisters s t := by
  rcases execCycle_cases h with ⟨-, rfl⟩ | ⟨-, -, rfl⟩ | ⟨-, -, -, rfl⟩ | ⟨-, -, -, -, -, rfl⟩
  · exact ⟨rfl, rfl, rfl, rfl, rfl, rfl, rfl⟩
  · exact bypassedCycle_sameRegisters s
  · exact ⟨rfl, rfl, rfl, rfl, rfl, rfl, rfl⟩
  · exact processingCycle_sameRegisters rp lp s

/-- Settles O32, in each of the four cases of a cycle. -/
theorem cyclesLeaveTheControlRegisters : Obligations.CyclesLeaveTheControlRegisters := by
  intro ok rp lp s t h
  obtain ⟨cfg, coeff, lfoInc, snap, bypass, freeze, hold⟩ := execCycle_sameRegisters h
  exact ⟨coeff, lfoInc, snap, bypass, freeze, hold, cfg⟩

/-! ### Sample steps, one after the other -/

theorem cursorsOk_iff {s : State} : s.cursorsOk = true ↔ ∀ m, s.cursor m < ramCap s.cfg m := by
  simp only [State.cursorsOk, State.everyLine_iff, DelayLine.cursorOk, decide_eq_true_eq, State.cursor]

theorem sample_cursor (s : State) (x : Sample × Sample) (m : Ram) :
    (sample s x).1.cursor m = (s.cursor m + 1) % ramCap s.cfg m := by
  obtain ⟨v, hv⟩ := sample_stores s x m
  rw [State.cursor, hv]
  rfl

theorem sample_cursor_lt {s : State} {m : Ram} (x : Sample × Sample) (hm : s.cursor m < ramCap s.cfg m) :
    (sample s x).1.cursor m < ramCap s.cfg m := by
  rw [sample_cursor]
  exact Nat.mod_lt _ (Nat.zero_lt_of_lt hm)

theorem sample_word_other {s : State} {m : Ram} {a : Nat} (x : Sample × Sample) (ha : a ≠ s.cursor m) :
    (sample s x).1.word m a = s.word m a := by
  obtain ⟨v, hv⟩ := sample_stores s x m
  rw [State.word, hv]
  exact Memory.read_write_other v ha _

theorem sample_lfoAcc_get (s : State) (x : Sample × Sample) (u : Fin 2) :
    (sample s x).1.lfoAcc.get u = s.lfoAcc.get u + s.lfoInc.get u := by
  rw [sample_lfoAcc]
  fin_cases u <;> rfl

theorem runBlock_cursor (xs : List (Sample × Sample)) {s : State} {m : Ram} (hm : s.cursor m < ramCap s.cfg m) :
    (runBlock s xs).1.cursor m = (s.cursor m + xs.length) % ramCap s.cfg m := by
  induction xs generalizing s with
  | nil => exact (Nat.mod_eq_of_lt hm).symm
  | cons x xs ih =>
    rw [runBlock_cons, ih (by rw [sample_cfg]; exact sample_cursor_lt x hm), sample_cursor, sample_cfg, Nat.mod_add_mod,
      List.length_cons, add_assoc, add_comm 1]

/-- A block stores only to the places its cursor passes. -/
theorem runBlock_word_other (xs : List (Sample × Sample)) {s : State} {m : Ram} {a : Nat}
    (hm : s.cursor m < ramCap s.cfg m) (ha : ∀ n < xs.length, a ≠ (s.cursor m + n) % ramCap s.cfg m) :
    (runBlock s xs).1.word m a = s.word m a := by
  induction xs generalizing s with
  | nil => rfl
  | cons x xs ih =>
    have first : a ≠ s.cursor m := by
      have h0 := ha 0 (Nat.succ_pos _)
      rwa [add_zero, Nat.mod_eq_of_lt hm] at h0
    rw [runBlock_cons, ih, sample_word_other x first]
    · rw [sample_cfg]; exact sample_cursor_lt x hm
    · intro n hn
      have later := ha (n + 1) (Nat.succ_lt_succ hn)
      rwa [sample_cursor, sample_cfg, Nat.mod_add_mod, add_assoc, add_comm 1]

theorem runBlock_lfoAcc (xs : List (Sample × Sample)) (s : State) (u : Fin 2) :
    (runBlock s xs).1.lfoAcc.get u = s.lfoAcc.get u + BitVec.ofNat 32 xs.length * s.lfoInc.get u := by
  induction xs generalizing s with
  | nil => simp [runBlock]
  | cons x xs ih =>
    rw [runBlock_cons, ih, sample_lfoAcc_get, sample_lfoInc, List.length_cons, BitVec.ofNat_add,
      BitVec.add_mul, BitVec.one_mul, add_assoc, add_comm (s.lfoInc.get u)]

/-! ### The processing cycle -/

/-- The input pairs of a processing cycle (45_tank.md R145). -/
def cycleInputs (rp lp : Bool) (s : State) : List (Sample × Sample) :=
  (effective s.cfg lp s.audioIn.l).zip (effective s.cfg rp s.audioIn.r)

theorem processingCycle_eq (rp lp : Bool) (s : State) :
    processingCycle rp lp s =
      (runBlock { s with cleanupDone := false } (cycleInputs rp lp s)).1.endCycle
        (some ⟨(runBlock { s with cleanupDone := false } (cycleInputs rp lp s)).2.map Prod.fst,
          (runBlock { s with cleanupDone := false } (cycleInputs rp lp s)).2.map Prod.snd⟩) := rfl

theorem effective_length {c : Config} {present : Bool} {b : Block} (h : (!present || c.blockFits b) = true) :
    (effective c present b).length = c.blockLen := by
  cases present with
  | false => exact List.length_replicate
  | true =>
    simp only [Bool.not_true, Bool.false_or, Config.blockFits, Bool.and_eq_true, decide_eq_true_eq] at h
    exact h.1

theorem cycleInputs_length {rp lp : Bool} {s : State} (h : s.portOk rp lp = true) :
    (cycleInputs rp lp s).length = s.cfg.blockLen := by
  obtain ⟨fitsL, fitsR⟩ := Bool.and_eq_true_iff.mp h
  rw [cycleInputs, List.length_zip, effective_length fitsL, effective_length fitsR, min_self]

theorem execCycle_processing {rp lp : Bool} {s : State} (hh : s.hold = false) (hb : s.bypass = false)
    (hp : s.portOk rp lp = true) (hc : s.cursorsOk = true) :
    execCycle true rp lp s = .next (processingCycle rp lp s) := by
  simp [execCycle, hh, hb, hp, hc]

theorem processingCycle_cursor {rp lp : Bool} {s : State} (hp : s.portOk rp lp = true) (hc : s.cursorsOk = true)
    (m : Ram) : (processingCycle rp lp s).cursor m = (s.cursor m + s.cfg.blockLen) % ramCap s.cfg m := by
  have h := runBlock_cursor (cycleInputs rp lp s) (s := { s with cleanupDone := false }) (cursorsOk_iff.mp hc m)
  rwa [cycleInputs_length hp] at h

theorem processingCycle_lfoAcc {rp lp : Bool} {s : State} (hp : s.portOk rp lp = true) (u : Fin 2) :
    (processingCycle rp lp s).lfoAcc.get u = s.lfoAcc.get u + BitVec.ofNat 32 s.cfg.blockLen * s.lfoInc.get u := by
  have h := runBlock_lfoAcc (cycleInputs rp lp s) { s with cleanupDone := false } u
  rwa [cycleInputs_length hp] at h

/-- A processing cycle hands back two blocks of `BLOCK_LEN` samples (R146). -/
theorem processingCycle_replies {rp lp : Bool} {s : State} (hp : s.portOk rp lp = true) :
    ∃ l r : Block, (processingCycle rp lp s).replies = s.replies ++ [.audio (some ⟨l, r⟩)] ∧
      l.length = s.cfg.blockLen ∧ r.length = s.cfg.blockLen := by
  have same := runBlock_sameControl (cycleInputs rp lp s) { s with cleanupDone := false }
  refine ⟨_, _, by rw [processingCycle_eq, endCycle_replies, same.replies], ?_, ?_⟩ <;>
    rw [List.length_map, runBlock_length, cycleInputs_length hp]

/-- Settles O30: the cursors and accumulators by induction on the block, the rest by what a cycle leaves alone. -/
theorem processingCycleAdvances : Obligations.ProcessingCycleAdvances := by
  intro rp lp s hh hb hp hc
  obtain ⟨l, r, replies, hl, hr⟩ := processingCycle_replies hp
  obtain ⟨cfg, coeff, lfoInc, snap, bypass, freeze, hold, inbox, cleanup⟩ := processingCycle_control rp lp s
  exact ⟨processingCycle rp lp s, l, r, execCycle_processing hh hb hp hc, replies, hl, hr, rfl, cleanup,
    processingCycle_cursor hp hc, processingCycle_lfoAcc hp, cfg, coeff, lfoInc, snap, bypass, freeze, hold, inbox⟩

/-- Settles O31, by induction on the block: each sample step stores at the cursor of each RAM and advances it. -/
theorem processingCycleMemoryFrame : Obligations.ProcessingCycleMemoryFrame := by
  intro rp lp s t hh hb ht m a ha
  rcases execCycle_cases ht with ⟨h, -⟩ | ⟨-, h, -⟩ | ⟨-, -, h, -⟩ | ⟨-, -, -, hp, hc, rfl⟩
  · exact absurd (hh.symm.trans h) (by decide)
  · exact absurd (hb.symm.trans h) (by decide)
  · exact absurd h (by decide)
  · refine runBlock_word_other (cycleInputs rp lp s) (s := { s with cleanupDone := false }) (cursorsOk_iff.mp hc m) ?_
    rw [cycleInputs_length hp]
    exact ha

end Sys2Proof.Machine
end

section
/-! The allpass stage and the input chain (40_allpass.md). -/

namespace Sys2Proof

/-! ### The legal coefficients of a stage -/

/-- What is below a finite value is not above it. -/
theorem flt_asymm {a b : Sample} (hb : b.isFinite = true) (h : flt a b = true) : flt b a = false := by
  have finite (ha : a.isFinite = true) : flt b a = false := by
    rw [flt_finite ha hb, decide_eq_true_eq] at h
    rw [flt_finite hb ha, decide_eq_false_iff_not]
    exact h.le.not_gt
  cases a with
  | nan => exact flt_nan_right b
  | inf m => rw [flt_inf_left hb] at h; rw [flt_inf_right hb, h]; rfl
  | fin q => exact finite rfl
  | negZero => exact finite rfl

theorem ne_nan_of_flt {a b : Sample} (h : flt a b = true) : a ≠ .nan ∧ b ≠ .nan := by
  constructor <;> rintro rfl
  · rw [flt_nan_left] at h; cases h
  · rw [flt_nan_right] at h; cases h

/-- What is below a finite value is below +∞. -/
theorem flt_posInf {a b : Sample} (hb : b.isFinite = true) (h : flt a b = true) : flt a (.inf false) = true := by
  cases a with
  | nan => cases h
  | inf m => rw [flt_inf_left hb] at h; rw [h]; rfl
  | fin q => rfl
  | negZero => rfl

/-- The ends of the range of an allpass coefficient, as values of `NUM`, are finite and lie between 0 and 1 (00_scope.md
R5). -/
theorem finite_ends_of_clampOk {c : Config} (h : c.clampOk = true) :
    ((ofConst c.num c.kLo).isFinite = true ∧ 0 < (ofConst c.num c.kLo).val) ∧
      (ofConst c.num c.kHi).isFinite = true ∧ (ofConst c.num c.kHi).val < 1 := by
  simp only [Config.clampOk, Bool.and_eq_true, decide_eq_true_eq, Bool.not_eq_true'] at h
  obtain ⟨⟨⟨-, pos⟩, order⟩, below⟩ := h
  generalize ofConst c.num c.kLo = lo, ofConst c.num c.kHi = hi at *
  have lo_finite : lo.isFinite = true := by
    cases lo with
    | nan => exact absurd rfl (ne_nan_of_flt pos).2
    | inf m =>
      obtain rfl : m = false := by rwa [flt_inf_right rfl, Bool.not_eq_true'] at pos
      exact absurd ((flt_posInf rfl below).symm.trans order) (by decide)
    | fin q => rfl
    | negZero => rfl
  have hi_finite := (finite_of_between lo_finite rfl (ne_nan_of_flt below).1 order (flt_asymm rfl below)).1
  rw [flt_finite rfl lo_finite, decide_eq_true_eq] at pos
  rw [flt_finite hi_finite rfl, decide_eq_true_eq] at below
  exact ⟨⟨lo_finite, pos⟩, hi_finite, below⟩

theorem clampOk_of_wf {c : Config} (h : c.wf = true) : c.clampOk = true := by
  simp only [Config.wf, Bool.and_eq_true] at h
  obtain ⟨⟨⟨-, clamp⟩, -⟩, -⟩ := h
  exact clamp

/-- A legal coefficient of an allpass stage is finite, above 0 and below 1 (40_allpass.md R81 (b)). -/
theorem allpassCoeff_between {c : Config} {r : Reg} {k : Sample} (hc : c.wf = true) (hr : r = .kin ∨ r = .klp)
    (hk : c.inRange r k = true) : k.isFinite = true ∧ 0 < k.val ∧ k.val < 1 := by
  have lo : c.lo r = ofConst c.num c.kLo := by rcases hr with rfl | rfl <;> rfl
  have hi : c.hi r = ofConst c.num c.kHi := by rcases hr with rfl | rfl <;> rfl
  obtain ⟨⟨lo_finite, pos⟩, hi_finite, below⟩ := finite_ends_of_clampOk (clampOk_of_wf hc)
  rw [← lo] at lo_finite pos
  rw [← hi] at hi_finite below
  obtain ⟨k_finite, above, under⟩ := finite_of_inRange hk lo_finite hi_finite
  exact ⟨k_finite, pos.trans_le above, under.trans_lt below⟩

namespace Machine

/-! ### One stage -/

theorem apStep_idx (n : NumKind) (len : Nat) (d : DelayLine) (x k : Sample) :
    (apStep n len d x k).1.idx = (d.idx + 1) % len := rfl

theorem apStep_output (n : NumKind) (len : Nat) (d : DelayLine) (x k : Sample) :
    (apStep n len d x k).2 = fadd n (Memory.read d.mem d.idx) (fmul n x k) := rfl

theorem apStep_read_same (n : NumKind) (len : Nat) {d : DelayLine} (x k : Sample) (hd : Memory.wf d.mem = true) :
    Memory.read (apStep n len d x k).1.mem d.idx = fsub n x (fmul n k (apStep n len d x k).2) :=
  Memory.read_write_same _ _ hd

theorem apStep_read_other (n : NumKind) (len : Nat) {d : DelayLine} (x k : Sample) {a : Nat} (ha : a ≠ d.idx) :
    Memory.read (apStep n len d x k).1.mem a = Memory.read d.mem a :=
  Memory.read_write_other _ ha _

theorem apStep_output_isZero {n : NumKind} (len : Nat) {d : DelayLine} {x k : Sample}
    (hd : (Memory.read d.mem d.idx).isZero = true) (hx : x.isZero = true) (hk : k.isFinite = true) :
    (apStep n len d x k).2.isZero = true := by
  rw [apStep_output]
  exact fadd_isZero hd (fmul_isZero hx hk)

/-- Settles O34: the stage word by word, the ends of the coefficient's range, zeros through the primitives. -/
theorem allpassStepEffect : Obligations.AllpassStepEffect := by
  refine ⟨fun n len d x k _ hd => ?_, fun c r k => allpassCoeff_between, fun n len d x k _ hd hz hx hk => ?_⟩
  · exact ⟨apStep_output n len d x k, apStep_read_same n len x k (Bool.and_eq_true_iff.mp hd).1,
      fun a => apStep_read_other n len x k, apStep_idx n len d x k⟩
  · have hy := apStep_output_isZero (n := n) len (hz d.idx) hx hk
    refine ⟨hy, fun a => ?_⟩
    by_cases ha : a = d.idx
    · rw [ha, apStep_read_same n len x k (Bool.and_eq_true_iff.mp hd).1]
      exact fsub_isZero hx (fmul_isZero_right hk hy)
    · rw [apStep_read_other n len x k ha]
      exact hz a

/-! ### The chain of a channel (R83) -/

/-- The stage it is on steps. -/
theorem inapStep_get_same (c : Chan) (i : Fin 4) (r : State × Sample) :
    ((((inapStep c i r).1.inap.get c).get i), (inapStep c i r).2) =
      apStep r.1.cfg.num ((r.1.cfg.lenIn.get c).get i) ((r.1.inap.get c).get i) r.2 r.1.coeff.kin := by
  simp [inapStep]

/-- The other stages of the channel stay. -/
theorem inapStep_get_other (c : Chan) {i j : Fin 4} (h : j ≠ i) (r : State × Sample) :
    ((inapStep c i r).1.inap.get c).get j = (r.1.inap.get c).get j := by
  simp [inapStep, h]

/-- The samples on their way through the chain: the input, and the output of each stage. -/
def chainTaps (c : Chan) (s : State) (x : Sample) : Fin 5 → Sample
  | 0 => x
  | 1 => (inapStep c 0 (s, x)).2
  | 2 => (inapStep c 1 (inapStep c 0 (s, x))).2
  | 3 => (inapStep c 2 (inapStep c 1 (inapStep c 0 (s, x)))).2
  | 4 => (apChain c s x).2

/-- Each stage of the chain is one `AP_STEP` on the RAM it had at the start, on the sample that reaches it. -/
theorem apChain_stage (c : Chan) (s : State) (x : Sample) (i : Fin 4) :
    apStep s.cfg.num ((s.cfg.lenIn.get c).get i) ((s.inap.get c).get i) (chainTaps c s x i.castSucc) s.coeff.kin =
      ((((apChain c s x).1.inap.get c).get i), chainTaps c s x i.succ) := by
  fin_cases i
  · simpa [apChain, chainTaps, inapStep_get_other] using (inapStep_get_same c 0 (s, x)).symm
  · simpa [apChain, chainTaps, inapStep_get_other] using (inapStep_get_same c 1 (inapStep c 0 (s, x))).symm
  · simpa [apChain, chainTaps, inapStep_get_other] using
      (inapStep_get_same c 2 (inapStep c 1 (inapStep c 0 (s, x)))).symm
  · simpa [apChain, chainTaps, inapStep_get_other] using
      (inapStep_get_same c 3 (inapStep c 2 (inapStep c 1 (inapStep c 0 (s, x))))).symm

theorem apChain_frame (c : Chan) (s : State) (x : Sample) :
    (apChain c s x).1 = { s with inap := s.inap.set c ((apChain c s x).1.inap.get c) } := by
  cases c <;> rfl

/-- Settles O47, stage by stage. -/
theorem inputChainIsFourStagesInSeries : Obligations.InputChainIsFourStagesInSeries := by
  intro s c x
  exact ⟨chainTaps c s x, rfl, apChain_stage c s x, rfl, apChain_frame c s x⟩

end Machine

end Sys2Proof
end

section
/-! The commands (46_control.md): what each leaves of the datapath, the mode it leaves, the legal ranges it keeps. -/

namespace Sys2Proof.Machine

/-! ### The datapath -/

/-- Two states agree on the configuration, on the datapath and on `CLEANUP_DONE` (10_state.md R10, R23). -/
structure SameDatapath (s t : State) : Prop where
  cfg : t.cfg = s.cfg
  inap : t.inap = s.inap
  lap : t.lap = s.lap
  ldl : t.ldl = s.ldl
  lpfSt : t.lpfSt = s.lpfSt
  hpfSt : t.hpfSt = s.hpfSt
  loopOut : t.loopOut = s.loopOut
  mlp : t.mlp = s.mlp
  lfoAcc : t.lfoAcc = s.lfoAcc
  cleanupDone : t.cleanupDone = s.cleanupDone

/-- An update of the registers, flags and ports. -/
theorem SameDatapath.setControl (s : State) (c : Regs Sample) (inc : Duo (BitVec 32)) (p : Snap Sample)
    (byp frz hld : Bool) (qs : List Request) (a : Stereo Block) (rs : List Reply) :
    SameDatapath s { s with
      coeff := c, lfoInc := inc, snap := p, bypass := byp, freeze := frz, hold := hld, inbox := qs, audioIn := a
      replies := rs } :=
  ⟨rfl, rfl, rfl, rfl, rfl, rfl, rfl, rfl, rfl, rfl⟩

theorem SameDatapath.line {s t : State} (h : SameDatapath s t) (m : Ram) : t.line m = s.line m := by
  cases m <;> simp only [State.line, h.inap, h.lap, h.ldl]

theorem freezeTo_sameDatapath (b : Bool) (s : State) : SameDatapath s (freezeTo b s) := by
  rcases freezeTo_cases b s with ⟨-, -, -, e⟩ | ⟨-, -, e⟩ | ⟨-, -, e⟩ <;> rw [e] <;> exact .setControl s ..

theorem execBypass_cases {b : Bool} {s t : State} (h : execBypass b s = .next t) :
    (b = true ∧ s.bypass = true ∧ t = s) ∨
    (b = true ∧ s.bypass = false ∧ s.freeze = true ∧ t = { freezeExit s with bypass := true }) ∨
    (b = true ∧ s.bypass = false ∧ s.freeze = false ∧ t = { s with bypass := true }) ∨
    (b = false ∧ t = { s with bypass := false }) := by
  cases h
  split_ifs <;> simp_all

theorem execBypass_sameDatapath {b : Bool} {s t : State} (h : execBypass b s = .next t) : SameDatapath s t := by
  rcases execBypass_cases h with ⟨-, -, rfl⟩ | ⟨-, -, -, rfl⟩ | ⟨-, -, -, rfl⟩ | ⟨-, rfl⟩ <;>
    exact .setControl _ ..

theorem setCoeff_sameDatapath (r : Reg) (v : BitVec 32) (s : State) : SameDatapath s (setCoeff r v s) := by
  obtain ⟨c, p, e⟩ := setCoeff_other r v s
  rw [e]
  exact .setControl s ..

/-- No command but RESET touches the datapath (46_control.md R160). -/
theorem exec_sameDatapath {i : Instr} {s t : State} (hr : i ≠ .reset) (hc : ∀ ok rp lp, i ≠ .cycle ok rp lp)
    (h : exec i s = .next t) : SameDatapath s t := by
  cases i
  case reset => exact absurd rfl hr
  case cycle ok rp lp => exact absurd rfl (hc ok rp lp)
  case bypass b => exact execBypass_sameDatapath h
  all_goals cases h
  case freeze b => exact freezeTo_sameDatapath b s
  case frztgl => exact freezeTo_sameDatapath _ s
  case nop | lock | unlock | rdstat | setLfo0inc | setLfo1inc => exact .setControl s ..
  all_goals exact setCoeff_sameDatapath _ _ s

/-- What an instruction does: it resets, it is a cycle, or it leaves the datapath. -/
theorem exec_cases {i : Instr} {s t : State} (h : exec i s = .next t) :
    t = resetAll s ∨ (∃ ok rp lp, execCycle ok rp lp s = .next t) ∨ SameDatapath s t := by
  by_cases hr : i = .reset
  · subst hr; cases h
    exact .inl rfl
  by_cases hc : ∃ ok rp lp, i = .cycle ok rp lp
  · obtain ⟨ok, rp, lp, rfl⟩ := hc
    exact .inr (.inl ⟨ok, rp, lp, h⟩)
  · exact .inr (.inr (exec_sameDatapath hr (fun ok rp lp e => hc ⟨ok, rp, lp, e⟩) h))

/-! ### The configuration (10_state.md R27) -/

theorem exec_cfg {i : Instr} {s t : State} (h : exec i s = .next t) : t.cfg = s.cfg := by
  rcases exec_cases h with rfl | ⟨ok, rp, lp, hc⟩ | same
  · exact resetAll_cfg s
  · exact (execCycle_sameRegisters hc).cfg
  · exact same.cfg

theorem accept_cfg (s : State) (q : Request) (rest : List Request) : (s.accept q rest).cfg = s.cfg := by
  cases q <;> rfl

/-- A property that taking a request and executing an instruction keep is kept by every step (20_memory.md R50): an ignored
word is only taken, and the reset input is executed as RESET. -/
theorem step_preserves {P : State → Prop} (accept : ∀ s q rest, P s → P (s.accept q rest))
    (execute : ∀ i s t, P s → exec i s = .next t → P t) {s t : State} (hs : P s) (h : step s = .next t) : P t := by
  obtain ⟨-, ⟨-, rfl⟩ | ⟨q, rest, -, ⟨-, rfl⟩ | ⟨-, rfl⟩ | ⟨i, -, hi⟩⟩⟩ := step_cases h
  · exact hs
  · exact execute .reset _ _ (accept s q rest hs) rfl
  · exact accept s q rest hs
  · exact execute i _ t (accept s q rest hs) hi

/-- Settles O12: neither taking a request nor any instruction writes the configuration. -/
theorem stepKeepsTheConfiguration : Obligations.StepKeepsTheConfiguration := by
  intro s t h
  exact step_preserves (P := fun u => u.cfg = s.cfg) (fun u q rest hu => (accept_cfg u q rest).trans hu)
    (fun _ _ _ hu he => (exec_cfg he).trans hu) rfl h

/-! ### The mode (45_tank.md R144) -/

/-- A mode is a value of the two flags. -/
theorem mode_eq_some_iff {s : State} {m : Mode} :
    s.mode = some m ↔ s.bypass = decide (m = .bypassed) ∧ s.freeze = decide (m = .frozen) := by
  unfold State.mode
  cases s.bypass <;> cases s.freeze <;> cases m <;> decide

theorem freezeTo_bypass (b : Bool) (s : State) : (freezeTo b s).bypass = s.bypass := by
  rcases freezeTo_cases b s with ⟨-, -, -, e⟩ | ⟨-, -, e⟩ | ⟨-, -, e⟩ <;> rw [e] <;> rfl

theorem freezeTo_freeze (b : Bool) (s : State) : (freezeTo b s).freeze = (b && (s.freeze || !s.bypass)) := by
  rcases freezeTo_cases b s with ⟨hb, hf, hy, e⟩ | ⟨hb, hf, e⟩ | ⟨hon, hoff, e⟩ <;> rw [e]
  · simp [hb, hy]
  · simp [hb]
  · cases b with
    | false => simp [hoff rfl]
    | true => rcases hon rfl with h | h <;> simp [h]

/-- Leaving both flags as they are leaves the mode. -/
theorem mode_of_flags {s t : State} (hb : t.bypass = s.bypass) (hf : t.freeze = s.freeze) : t.mode = s.mode := by
  rw [State.mode, State.mode, hb, hf]

theorem freezeTo_mode {s : State} {m : Mode} (b : Bool) (hm : s.mode = some m) :
    (freezeTo b s).mode = some (modeAfter s.cfg (.freeze b) m) := by
  rw [mode_eq_some_iff] at hm ⊢
  rw [freezeTo_bypass, freezeTo_freeze, hm.1, hm.2]
  cases b <;> cases m <;> exact ⟨rfl, rfl⟩

/-- FRZTGL goes where the FREEZE of the other value goes (46_control.md R167). -/
theorem modeAfter_frztgl {s : State} {m : Mode} (hm : s.mode = some m) :
    modeAfter s.cfg .frztgl m = modeAfter s.cfg (.freeze (!s.freeze)) m := by
  rw [(mode_eq_some_iff.mp hm).2]
  cases m <;> rfl

theorem execBypass_mode {b : Bool} {s t : State} {m : Mode} (hm : s.mode = some m) (h : execBypass b s = .next t) :
    t.mode = some (modeAfter s.cfg (.bypass b) m) := by
  have hs := mode_eq_some_iff.mp hm
  rcases execBypass_cases h with ⟨rfl, hb, rfl⟩ | ⟨rfl, -, -, rfl⟩ | ⟨rfl, -, hf, rfl⟩ | ⟨rfl, rfl⟩
  · rw [hm]
    cases m
    case bypassed => rfl
    all_goals exact absurd (hs.1.symm.trans hb) (by decide)
  · rfl
  · rw [mode_eq_some_iff]
    exact ⟨rfl, hf⟩
  · rw [mode_eq_some_iff, hs.2]
    cases m <;> exact ⟨rfl, rfl⟩

theorem setCoeff_mode (r : Reg) (v : BitVec 32) (s : State) : (setCoeff r v s).mode = s.mode := by
  obtain ⟨c, p, e⟩ := setCoeff_other r v s
  rw [e]
  rfl

theorem resetAll_mode (s : State) :
    (resetAll s).mode = some (if s.cfg.rstBypass then .bypassed else .active) := by
  have byp : (resetAll s).bypass = s.cfg.rstBypass := rfl
  have frz : (resetAll s).freeze = false := rfl
  rw [State.mode, byp, frz]
  cases s.cfg.rstBypass <;> rfl

/-- Settles O20, one instruction after the other: the three of the mode machine, RESET, and those that leave both flags. -/
theorem modeTransitions : Obligations.ModeTransitions := by
  intro i s t m hm h
  cases i
  case bypass b => exact execBypass_mode hm h
  case cycle ok rp lp =>
    have same := execCycle_sameRegisters h
    exact (mode_of_flags same.bypass same.freeze).trans hm
  all_goals cases h
  case freeze b => exact freezeTo_mode b hm
  case frztgl => rw [modeAfter_frztgl hm]; exact freezeTo_mode _ hm
  case reset => exact resetAll_mode s
  case nop | lock | unlock | rdstat | setLfo0inc | setLfo1inc => exact hm
  all_goals exact (setCoeff_mode _ _ s).trans hm

/-! ### The legal ranges (10_state.md R16, R26 (b) and (d)) -/

theorem inRange_iff {c : Config} {r : Reg} {x : Sample} :
    c.inRange r x = true ↔ x ≠ .nan ∧ flt x (c.lo r) = false ∧ flt (c.hi r) x = false := by
  simp only [Config.inRange, Bool.and_eq_true, decide_eq_true_eq, Bool.not_eq_true', and_assoc]

theorem lo_ne_nan (c : Config) (r : Reg) : c.lo r ≠ .nan := by
  cases r
  case kin | klp => exact ofConst_ne_nan _ _
  all_goals exact nofun

theorem hi_ne_nan (c : Config) (r : Reg) : c.hi r ≠ .nan := by
  cases r
  case kin | klp => exact ofConst_ne_nan _ _
  all_goals exact nofun

/-- Under a well-formed configuration no legal range is empty. -/
theorem range_ordered {c : Config} (h : c.wf = true) (r : Reg) : flt (c.hi r) (c.lo r) = false := by
  simp only [Config.wf, Bool.and_eq_true, Config.rangesOk, List.all_eq_true, Bool.not_eq_true'] at h
  obtain ⟨⟨-, ranges⟩, -⟩ := h
  exact ranges r (Reg.mem_list r)

theorem lo_inRange {c : Config} (h : c.wf = true) (r : Reg) : c.inRange r (c.lo r) = true :=
  inRange_iff.mpr ⟨lo_ne_nan c r, flt_self _, range_ordered h r⟩

theorem hi_inRange {c : Config} (h : c.wf = true) (r : Reg) : c.inRange r (c.hi r) = true :=
  inRange_iff.mpr ⟨hi_ne_nan c r, range_ordered h r, flt_self _⟩

/-- Clamping a number to the range of a register gives a legal value (46_control.md R170). -/
theorem clamp_inRange {c : Config} (h : c.wf = true) (r : Reg) {x : Sample} (hx : x ≠ .nan) :
    c.inRange r (clamp (c.lo r) (c.hi r) x) = true := by
  unfold clamp
  dsimp only
  split_ifs with below above above
  · exact hi_inRange h r
  · exact lo_inRange h r
  · exact hi_inRange h r
  · exact inRange_iff.mpr ⟨hx, Bool.eq_false_iff.mpr below, Bool.eq_false_iff.mpr above⟩

/-- Whatever the operand, what it writes is legal. -/
theorem operandValue_inRange {c : Config} (h : c.wf = true) {r : Reg} {v : BitVec 32} {x : Sample}
    (hx : operandValue c r v = some x) : c.inRange r x = true := by
  unfold operandValue at hx
  split at hx <;> cases hx
  · exact hi_inRange h r
  · exact lo_inRange h r
  · exact clamp_inRange h r (ofF32Bits_ne_nan _ v)

/-- The registers are legal, and while frozen the five substituted ones hold the freeze constants and the snapshot is
legal. -/
structure Legal (s : State) : Prop where
  coeff : ∀ r, s.cfg.inRange r (s.coeff.get r) = true
  frozen : s.freeze = true → ∀ q, s.coeff.get q.reg = frozenValue q ∧ s.cfg.inRange q.reg (s.snap.get q) = true

theorem legal_iff {s : State} : s.coeffsOk = true ∧ s.frozenOk = true ↔ Legal s := by
  simp only [State.coeffsOk, State.frozenOk, List.all_eq_true, Bool.or_eq_true, Bool.not_eq_true', Bool.and_eq_true,
    decide_eq_true_eq, ← imp_iff_not_or, ← Bool.not_eq_true]
  constructor
  · rintro ⟨coeff, frozen⟩
    exact ⟨fun r => coeff r (Reg.mem_list r), fun hf q => frozen hf q (SnapReg.mem_list q)⟩
  · rintro ⟨coeff, frozen⟩
    exact ⟨fun r _ => coeff r, fun hf q _ => frozen hf q⟩

theorem Legal.of_registers {s t : State} (h : Legal s) (hcfg : t.cfg = s.cfg) (hcoeff : t.coeff = s.coeff)
    (hsnap : t.snap = s.snap) (hf : t.freeze = s.freeze) : Legal t := by
  constructor
  · rw [hcfg, hcoeff]; exact h.coeff
  · rw [hcfg, hcoeff, hsnap, hf]; exact h.frozen

theorem snapOf_eq_some_iff {r : Reg} {q : SnapReg} : snapOf r = some q ↔ q.reg = r := by
  cases r <;> cases q <;> decide

/-- The freeze constants are legal, under every configuration. -/
theorem frozenValue_inRange (c : Config) (q : SnapReg) : c.inRange q.reg (frozenValue q) = true := by
  cases q <;> rfl

theorem freezeEnter_legal {s : State} (h : Legal s) : Legal (freezeEnter s) := by
  constructor
  · intro r
    rw [freezeEnter_coeff_get]
    cases hq : snapOf r with
    | none => exact h.coeff r
    | some q => rw [← snapOf_eq_some_iff.mp hq]; exact frozenValue_inRange s.cfg q
  · intro _ q
    rw [freezeEnter_coeff_get, snapOf_eq_some_iff.mpr rfl, freezeEnter_snap_get]
    exact ⟨rfl, h.coeff q.reg⟩

theorem freezeExit_legal {s : State} (h : Legal s) (hf : s.freeze = true) : Legal (freezeExit s) := by
  constructor
  · intro r
    rw [freezeExit_coeff_get]
    cases hq : snapOf r with
    | none => exact h.coeff r
    | some q => rw [← snapOf_eq_some_iff.mp hq]; exact (h.frozen hf q).2
  · exact nofun

theorem freezeTo_legal (b : Bool) {s : State} (h : Legal s) : Legal (freezeTo b s) := by
  rcases freezeTo_cases b s with ⟨-, -, -, e⟩ | ⟨-, hf, e⟩ | ⟨-, -, e⟩ <;> rw [e]
  · exact freezeEnter_legal h
  · exact freezeExit_legal h hf
  · exact h

theorem execBypass_legal {b : Bool} {s t : State} (h : Legal s) (ht : execBypass b s = .next t) : Legal t := by
  rcases execBypass_cases ht with ⟨-, -, rfl⟩ | ⟨-, -, hf, rfl⟩ | ⟨-, -, -, rfl⟩ | ⟨-, rfl⟩
  · exact h
  · exact (freezeExit_legal h hf).of_registers rfl rfl rfl rfl
  · exact h.of_registers rfl rfl rfl rfl
  · exact h.of_registers rfl rfl rfl rfl

/-- Where a coefficient write lands (46_control.md R170). -/
theorem writeCoeff_cases (r : Reg) (x : Sample) (s : State) :
    (∃ q : SnapReg, q.reg = r ∧ writeCoeff r x s = { s with snap := s.snap.set q x }) ∨
    ((s.freeze = true → ∀ q : SnapReg, q.reg ≠ r) ∧ writeCoeff r x s = { s with coeff := s.coeff.set r x }) := by
  unfold writeCoeff
  split
  · next q _ hq => exact .inl ⟨q, snapOf_eq_some_iff.mp hq, rfl⟩
  · next hne => exact .inr ⟨fun hf q hq => hne q hf (snapOf_eq_some_iff.mpr hq), rfl⟩

theorem writeCoeff_legal {r : Reg} {x : Sample} {s : State} (h : Legal s) (hx : s.cfg.inRange r x = true) :
    Legal (writeCoeff r x s) := by
  rcases writeCoeff_cases r x s with ⟨q, rfl, e⟩ | ⟨other, e⟩ <;> rw [e]
  · refine ⟨h.coeff, fun hf p => ⟨(h.frozen hf p).1, ?_⟩⟩
    rw [Snap.get_set]
    split
    · next hp => rw [hp]; exact hx
    · exact (h.frozen hf p).2
  · refine ⟨fun p => ?_, fun hf p => ⟨?_, (h.frozen hf p).2⟩⟩ <;> rw [Regs.get_set]
    · split
      · next hp => rw [hp]; exact hx
      · exact h.coeff p
    · rw [if_neg (other hf p)]
      exact (h.frozen hf p).1

theorem setCoeff_legal (r : Reg) (v : BitVec 32) {s : State} (h : Legal s) (hwf : s.cfg.wf = true) :
    Legal (setCoeff r v s) := by
  unfold setCoeff
  split
  · exact h
  · next x hx => exact writeCoeff_legal h (operandValue_inRange hwf hx)

theorem exec_setInstr (r : Reg) (v : BitVec 32) (s : State) : exec (setInstr r v) s = .next (setCoeff r v s) := by
  cases r <;> rfl

/-- Settles O23: a NaN writes nothing, and anything else a value of the register's range, wherever it lands. -/
theorem coefficientWritesStayLegal : Obligations.CoefficientWritesStayLegal := by
  intro r v s t hwf hc hf ht
  rw [exec_setInstr] at ht
  cases ht
  exact legal_iff.mpr (setCoeff_legal r v (legal_iff.mp ⟨hc, hf⟩) hwf)

/-! ### RDSTAT (46_control.md R168) -/

theorem statusWord_getLsbD (s : State) :
    (statusWord s).getLsbD 0 = s.bypass ∧ (statusWord s).getLsbD 1 = s.freeze ∧ (statusWord s).getLsbD 2 = s.hold ∧
      (statusWord s).getLsbD 3 = s.cleanupDone := by
  unfold statusWord
  cases s.bypass <;> cases s.freeze <;> cases s.hold <;> cases s.cleanupDone <;> decide

theorem statusWord_getLsbD_high (s : State) {k : Nat} (hk : 4 ≤ k) : (statusWord s).getLsbD k = false := by
  rw [statusWord, BitVec.getLsbD_setWidth, BitVec.getLsbD_of_ge _ _ hk, Bool.and_false]

/-- Settles O18: the word handed back is the status word. -/
theorem rdstatHandsBackTheFlags : Obligations.RdstatHandsBackTheFlags := by
  intro s
  obtain ⟨byp, frz, hld, cln⟩ := statusWord_getLsbD s
  exact ⟨statusWord s, rfl, byp, frz, hld, cln, fun k hk => statusWord_getLsbD_high s hk⟩

end Sys2Proof.Machine
end


section
/-! Reset (70_reset_and_hazards.md R210) and the invariant of the machine (10_state.md R26): it holds after reset, and
every step keeps it. -/

namespace Sys2Proof.Machine

/-! ### Reset -/

theorem resetAll_line (s : State) (m : Ram) : (resetAll s).line m = .reset := resetOf_line s.cfg m

theorem resetOf_coeff_get (c : Config) (r : Reg) : (State.resetOf c).coeff.get r = ofConst c.num (c.rst.get r) := by
  cases r <;> rfl

theorem resetOf_snap_get (c : Config) (q : SnapReg) : (State.resetOf c).snap.get q = .zero := by
  cases q <;> rfl

theorem resetOf_mlp_get (c : Config) (ch : Chan) : (State.resetOf c).mlp.get ch = .zero := by
  cases ch <;> rfl

theorem resetOf_lfoAcc_get (c : Config) (u : Fin 2) : (State.resetOf c).lfoAcc.get u = 0#32 := by
  fin_cases u <;> rfl

theorem step_resetInput {s : State} {rest : List Request} (hwf : s.cfg.wf = true) (hi : s.inbox = .resetInput :: rest) :
    step s = exec .reset { s with inbox := rest } := by
  have served : nextRequest s.hold s.inbox = some (.resetInput, rest) := by rw [hi]; rfl
  rw [step, if_pos hwf, served]
  rfl

/-- Settles O13, element by element of the reset state. -/
theorem resetLeavesTheListedValues : Obligations.ResetLeavesTheListedValues := by
  refine ⟨fun s rest => step_resetInput, fun s => ⟨resetAll s, rfl, fun m => ?_, fun i => ?_, rfl, ?_, fun u => ?_, ?_, ?_,
    rfl, rfl, rfl, rfl, rfl, rfl, rfl, rfl⟩⟩
  · rw [State.cursor, resetAll_line]
    refine ⟨rfl, fun i => ?_⟩
    rw [State.word, resetAll_line]
    rfl
  · exact ⟨Quad.get_all _ i, Quad.get_all _ i⟩
  · exact resetOf_mlp_get s.cfg
  · exact ⟨resetOf_lfoAcc_get s.cfg u, rfl⟩
  · exact resetOf_coeff_get s.cfg
  · exact resetOf_snap_get s.cfg

/-! ### The datapath part of the invariant -/

/-- Cursors below the capacities, memories in canonical form inside them, and `CLEANUP_DONE` only over a cleared
datapath. -/
structure DatapathOk (s : State) : Prop where
  cursors : s.cursorsOk = true
  rams : s.ramsOk = true
  clean : s.cleanupDone = true → s.silent = true

theorem everyLine_congr {s t : State} (hc : t.cfg = s.cfg) (hl : ∀ m, t.line m = s.line m)
    (f : Nat → DelayLine → Bool) : t.everyLine f = s.everyLine f := by
  simp only [State.everyLine, hc, hl]

theorem SameDatapath.silent {s t : State} (h : SameDatapath s t) : t.silent = s.silent := by
  simp only [State.silent, everyLine_congr h.cfg h.line, h.lpfSt, h.hpfSt, h.loopOut, h.mlp]

theorem DatapathOk.of_same {s t : State} (h : DatapathOk s) (e : SameDatapath s t) : DatapathOk t := by
  refine ⟨(everyLine_congr e.cfg e.line _).trans h.cursors, (everyLine_congr e.cfg e.line _).trans h.rams, ?_⟩
  rw [e.cleanupDone, e.silent]
  exact h.clean

theorem silent_iff {s : State} :
    s.silent = true ↔ (∀ m, (s.line m).mem = []) ∧ s.lpfSt = .all .zero ∧ s.hpfSt = .all .zero ∧ s.loopOut = .zero ∧
      s.mlp = ⟨.zero, .zero⟩ := by
  simp only [State.silent, Bool.and_eq_true, State.everyLine_iff, decide_eq_true_eq, and_assoc]

theorem cleanup_silent (s : State) : (cleanup s).silent = true :=
  silent_iff.mpr ⟨fun m => by rw [cleanup_line]; rfl, rfl, rfl, rfl, rfl⟩

theorem resetOf_silent (c : Config) : (State.resetOf c).silent = true :=
  silent_iff.mpr ⟨fun m => by rw [resetOf_line]; rfl, rfl, rfl, rfl, rfl⟩

/-- Every capacity is at least 1 (00_scope.md R5). -/
theorem ramCap_pos {c : Config} (h : c.wf = true) (m : Ram) : 0 < ramCap c m := by
  simp only [Config.wf, Config.sizesOk, Bool.and_eq_true, Quad.every_iff, decide_eq_true_eq] at h
  obtain ⟨⟨⟨⟨⟨⟨⟨⟨⟨⟨-, inL⟩, inR⟩, lap⟩, ldl⟩, -⟩, -⟩, -⟩, -⟩, -⟩, -⟩ := h
  cases m with
  | inap ch i =>
    cases ch with
    | L => exact inL i
    | R => exact inR i
  | lap i => exact lap i
  | ldl i => exact ldl i

theorem resetOf_datapathOk {c : Config} (h : c.wf = true) : DatapathOk (State.resetOf c) := by
  refine ⟨cursorsOk_iff.mpr fun m => ?_, (State.everyLine_iff _ _).mpr fun m => ?_, fun _ => resetOf_silent c⟩
  · rw [State.cursor, resetOf_line]
    exact ramCap_pos h m
  · rw [resetOf_line]
    exact DelayLine.memOk_reset _

theorem resetAll_sameDatapath (s : State) : SameDatapath (State.resetOf s.cfg) (resetAll s) := .setControl _ ..

theorem bypassedCycle_datapathOk {s : State} (h : DatapathOk s) : DatapathOk (bypassedCycle s) := by
  unfold bypassedCycle
  split
  · exact h.of_same (.setControl s ..)
  · have cleared : DatapathOk { cleanup s with cleanupDone := true } := by
      refine ⟨(State.everyLine_iff _ _).mpr fun m => ?_, (State.everyLine_iff _ _).mpr fun m => ?_,
        fun _ => cleanup_silent s⟩
      · have hc := (State.everyLine_iff _ _).mp h.cursors m
        rw [← DelayLine.cursorOk_clear, ← cleanup_line] at hc
        exact hc
      · have hm := DelayLine.memOk_clear (ramCap s.cfg m) (s.line m)
        rw [← cleanup_line] at hm
        exact hm
    exact cleared.of_same (.setControl _ ..)

theorem processingCycle_datapathOk (rp lp : Bool) {s : State} (h : DatapathOk s) :
    DatapathOk (processingCycle rp lp s) := by
  obtain ⟨cursors, rams⟩ := runBlock_linesOk (cycleInputs rp lp s) (s := { s with cleanupDone := false }) h.cursors h.rams
  have same := runBlock_sameControl (cycleInputs rp lp s) { s with cleanupDone := false }
  have ran : DatapathOk (runBlock { s with cleanupDone := false } (cycleInputs rp lp s)).1 :=
    ⟨cursors, rams, fun hd => absurd (same.cleanupDone.symm.trans hd) Bool.false_ne_true⟩
  exact ran.of_same (.setControl _ ..)

theorem execCycle_datapathOk {ok rp lp : Bool} {s t : State} (h : DatapathOk s)
    (ht : execCycle ok rp lp s = .next t) : DatapathOk t := by
  rcases execCycle_cases ht with ⟨-, rfl⟩ | ⟨-, -, rfl⟩ | ⟨-, -, -, rfl⟩ | ⟨-, -, -, -, -, rfl⟩
  · exact h
  · exact bypassedCycle_datapathOk h
  · exact h.of_same (.setControl s ..)
  · exact processingCycle_datapathOk rp lp h

theorem exec_datapathOk {i : Instr} {s t : State} (hwf : s.cfg.wf = true) (h : DatapathOk s)
    (ht : exec i s = .next t) : DatapathOk t := by
  rcases exec_cases ht with rfl | ⟨ok, rp, lp, hc⟩ | same
  · exact (resetOf_datapathOk hwf).of_same (resetAll_sameDatapath s)
  · exact execCycle_datapathOk h hc
  · exact h.of_same same

/-! ### The registers' part of the invariant -/

theorem resetOf_legal {c : Config} (h : c.wf = true) : Legal (State.resetOf c) := by
  refine ⟨fun r => ?_, nofun⟩
  rw [resetOf_coeff_get]
  simp only [Config.wf, Bool.and_eq_true, Config.rstOk, List.all_eq_true] at h
  exact h.2 r (Reg.mem_list r)

theorem exec_legal {i : Instr} {s t : State} (hwf : s.cfg.wf = true) (h : Legal s) (ht : exec i s = .next t) :
    Legal t := by
  cases i
  case bypass b => exact execBypass_legal h ht
  case cycle ok rp lp =>
    have same := execCycle_sameRegisters ht
    exact h.of_registers same.cfg same.coeff same.snap same.freeze
  all_goals cases ht
  case reset => exact (resetOf_legal hwf).of_registers rfl rfl rfl rfl
  case freeze b => exact freezeTo_legal b h
  case frztgl => exact freezeTo_legal _ h
  case nop | lock | unlock | rdstat | setLfo0inc | setLfo1inc => exact h.of_registers rfl rfl rfl rfl
  all_goals exact setCoeff_legal _ _ h hwf

/-! ### The invariant -/

/-- The invariant of the machine by its parts: a well-formed configuration, legal registers, one of the three modes, and a
datapath in order. -/
structure Sound (s : State) : Prop where
  wf : s.cfg.wf = true
  legal : Legal s
  mode : ∃ m, s.mode = some m
  datapath : DatapathOk s

theorem modesOk_iff {s : State} : s.modesOk = true ↔ ∃ m, s.mode = some m := by
  rw [State.modesOk, State.mode]
  cases s.bypass <;> cases s.freeze <;> simp

theorem cleanOk_iff {s : State} : s.cleanOk = true ↔ (s.cleanupDone = true → s.silent = true) := by
  rw [State.cleanOk]
  cases s.cleanupDone <;> simp

theorem sound_iff {s : State} : s.sound = true ↔ Sound s := by
  simp only [State.sound, Bool.and_eq_true]
  constructor
  · rintro ⟨⟨⟨⟨⟨⟨wf, cursors⟩, rams⟩, coeffs⟩, modes⟩, frozen⟩, clean⟩
    exact ⟨wf, legal_iff.mp ⟨coeffs, frozen⟩, modesOk_iff.mp modes, cursors, rams, cleanOk_iff.mp clean⟩
  · intro h
    obtain ⟨coeffs, frozen⟩ := legal_iff.mpr h.legal
    exact ⟨⟨⟨⟨⟨⟨h.wf, h.datapath.cursors⟩, h.datapath.rams⟩, coeffs⟩, modesOk_iff.mpr h.mode⟩, frozen⟩,
      cleanOk_iff.mpr h.datapath.clean⟩

theorem exec_sound {i : Instr} {s t : State} (h : Sound s) (ht : exec i s = .next t) : Sound t := by
  obtain ⟨m, hm⟩ := h.mode
  exact ⟨(exec_cfg ht).symm ▸ h.wf, exec_legal h.wf h.legal ht, ⟨_, modeTransitions i s t m hm ht⟩,
    exec_datapathOk h.wf h.datapath ht⟩

theorem accept_sound {s : State} (h : Sound s) (q : Request) (rest : List Request) : Sound (s.accept q rest) := by
  obtain ⟨a, e⟩ := accept_eq s q rest
  rw [e]
  exact ⟨h.wf, h.legal.of_registers rfl rfl rfl rfl, h.mode, h.datapath.of_same (.setControl s ..)⟩

/-- Settles O57: taking a request keeps the invariant, and so does every instruction. -/
theorem stepKeepsSoundness : Obligations.StepKeepsSoundness := by
  intro s t hs ht
  exact sound_iff.mpr
    (step_preserves (fun s q rest h => accept_sound h q rest) (fun _ _ _ => exec_sound) (sound_iff.mp hs) ht)

theorem resetOf_sound {c : Config} (h : c.wf = true) : Sound (State.resetOf c) := by
  refine ⟨h, resetOf_legal h, modesOk_iff.mp ?_, resetOf_datapathOk h⟩
  rw [State.modesOk, Bool.not_eq_true']
  exact Bool.and_false _

theorem tc_wf : Config.tc.wf = true := by decide

/-- Settles O56, at every well-formed configuration and so at TC. -/
theorem resetStateIsSound : Obligations.ResetStateIsSound := by
  have all (c : Config) (h : c.wf = true) : (State.resetOf c).sound = true ∧ (State.resetOf c).carrierOk = true :=
    ⟨sound_iff.mpr (resetOf_sound h), carrierOk_iff.mpr (resetOf_carried c)⟩
  exact ⟨all, all Config.tc tc_wf⟩

end Sys2Proof.Machine
end

section
/-! The command word and its fields (30_encoding.md R60, R61, R63, R64): what a decoded word is, and which words are
reserved. -/

namespace Sys2Proof

/-- A word is its opcode and its operand. -/
theorem commandWord_fields (cw : CommandWord) : commandWord (opOf cw) (opdOf cw) = cw := by
  have whole :=
    BitVec.extractLsb'_append_extractLsb'_eq_extractLsb' (x := cw) (start₁ := 0) (len₁ := 32) (len₂ := 8) rfl
  exact whole.trans BitVec.extractLsb'_eq_self

theorem formatN_eq_ok {opd : BitVec 32} {i j : Instr} (h : formatN opd i = .ok j) : opd = 0#32 ∧ i = j := by
  unfold formatN at h
  split at h
  · next zero => exact ⟨zero, Except.ok.inj h⟩
  · cases h

/-- A word whose high 31 bits are zero is the operand of its lowest bit. -/
theorem eq_boolOperand {opd : BitVec 32} (h : opd.extractLsb' 1 31 = 0#31) : opd = boolOperand (opd.getLsbD 0) := by
  ext k hk
  cases k with
  | zero => simp [boolOperand]
  | succ k =>
    have bit : (opd.extractLsb' 1 31)[k] = false := by rw [h, BitVec.getElem_zero]
    rw [BitVec.getElem_extractLsb', Nat.add_comm, BitVec.getLsbD_eq_getElem hk] at bit
    simpa [boolOperand] using bit

theorem formatB_eq_ok {opd : BitVec 32} {f : Bool → Instr} {j : Instr} (h : formatB opd f = .ok j) :
    ∃ b, opd = boolOperand b ∧ f b = j := by
  unfold formatB at h
  split at h
  · next high =>
    exact ⟨opd.getLsbD 0, eq_boolOperand high, Except.ok.inj h⟩
  · cases h

/-- A command word that decodes is the encoding of what it decodes to, row by row of the decoder: two rows of format B, six
of format N, the reserved rest, and the rows of formats V and U, which take every operand (R61, R63). -/
theorem encode_of_decodeCommand {cw : CommandWord} {i : Instr} (h : decodeCommand cw = .ok i) :
    encode i = .command cw := by
  have word {n : Nat} {opd : BitVec 32} (op : (opOf cw).toNat = n) (e : opdOf cw = opd) :
      PortWord.command (commandWord (BitVec.ofNat 8 n) opd) = .command cw := by
    rw [← op, BitVec.ofNat_toNat, BitVec.setWidth_eq, ← e, commandWord_fields]
  unfold decodeCommand at h
  dsimp only at h
  split at h
  case h_5 op | h_6 op =>
    obtain ⟨b, e, rfl⟩ := formatB_eq_ok h
    exact word op e
  case h_1 op | h_2 op | h_3 op | h_4 op | h_7 op | h_8 op =>
    obtain ⟨e, rfl⟩ := formatN_eq_ok h
    exact word op e
  case h_21 => cases h
  all_goals
    next op =>
    cases h
    exact word op rfl

/-- No command word decodes to the operation of the audio port. -/
theorem decodeCommand_ne_cycle {cw : CommandWord} {i : Instr} (h : decodeCommand cw = .ok i) (ok rp lp : Bool) :
    i ≠ .cycle ok rp lp := by
  rintro rfl
  exact absurd (encode_of_decodeCommand h) nofun

/-- The encoding of every instruction is a word of the tables, instruction by instruction. -/
theorem matchesSomeRow_encode : ∀ i : Instr, matchesSomeRow (encode i) = true
  | .nop => Laws.MatchesRow.nop
  | .reset => Laws.MatchesRow.reset
  | .lock => Laws.MatchesRow.lock
  | .unlock => Laws.MatchesRow.unlock
  | .bypass b => Laws.MatchesRow.bypass b
  | .freeze b => Laws.MatchesRow.freeze b
  | .frztgl => Laws.MatchesRow.frztgl
  | .rdstat => Laws.MatchesRow.rdstat
  | .setInattn v => Laws.MatchesRow.setInattn v
  | .setKin v => Laws.MatchesRow.setKin v
  | .setKlp v => Laws.MatchesRow.setKlp v
  | .setRvtime v => Laws.MatchesRow.setRvtime v
  | .setRvscale v => Laws.MatchesRow.setRvscale v
  | .setHidamp v => Laws.MatchesRow.setHidamp v
  | .setLodamp v => Laws.MatchesRow.setLodamp v
  | .setLpf v => Laws.MatchesRow.setLpf v
  | .setHpf v => Laws.MatchesRow.setHpf v
  | .setMlpf v => Laws.MatchesRow.setMlpf v
  | .setLfo0inc u => Laws.MatchesRow.setLfo0inc u
  | .setLfo1inc u => Laws.MatchesRow.setLfo1inc u
  | .cycle ok rp lp => Laws.MatchesRow.cycle ok rp lp

/-- A word that matches no row is reserved (R64). -/
theorem decodeCommand_reserved {cw : CommandWord} (h : ∀ r ∈ opcodeRows, cw &&& r.mask ≠ r.pattern) :
    ∃ e, decodeCommand cw = .error e := by
  cases hd : decodeCommand cw with
  | error e => exact ⟨e, rfl⟩
  | ok i =>
    have row := matchesSomeRow_encode i
    rw [encode_of_decodeCommand hd, matchesSomeRow, List.any_eq_true] at row
    obtain ⟨r, hr, hm⟩ := row
    exact absurd (of_decide_eq_true hm) (h r hr)

end Sys2Proof
end

section
/-! The step and the request it serves (20_memory.md R50 to R53): the meaning of each kind of request, and what runs while
the host holds the machine. -/

namespace Sys2Proof.Machine

/-! ### The request served -/

section Served
variable {s : State} {q : Request} {rest : List Request}

theorem step_run {i : Instr} (hwf : s.cfg.wf = true) (hn : nextRequest s.hold s.inbox = some (q, rest))
    (hf : fetched q = .run i) : step s = exec i (s.accept q rest) := by
  simp only [step, if_pos hwf, hn, hf]

theorem step_ignored (hwf : s.cfg.wf = true) (hn : nextRequest s.hold s.inbox = some (q, rest))
    (hf : fetched q = .ignored) : step s = .next (s.accept q rest) := by
  simp only [step, if_pos hwf, hn, hf]

theorem step_reset (hwf : s.cfg.wf = true) (hn : nextRequest s.hold s.inbox = some (q, rest))
    (hf : fetched q = .reset) : step s = exec .reset (s.accept q rest) := by
  simp only [step, if_pos hwf, hn, hf]
  rfl

end Served

theorem step_idle {s : State} (hwf : s.cfg.wf = true) (hn : nextRequest s.hold s.inbox = none) : step s = .next s := by
  simp only [step, if_pos hwf, hn]

theorem fetched_command {cw : CommandWord} {i : Instr} (h : decodeCommand cw = .ok i) :
    fetched (.command cw) = .run i := by
  rw [fetched, h]

theorem fetched_reserved {cw : CommandWord} {e : DecodeError} (h : decodeCommand cw = .error e) :
    fetched (.command cw) = .ignored := by
  rw [fetched, h]

/-- Settles O6: a command is always served, and with no hold so is the head of the list. -/
theorem stepRunsTheDecodedRequest : Obligations.StepRunsTheDecodedRequest := by
  refine ⟨fun s cw rest i hwf hi hd _ => ?_, fun s cd l r rest i hwf hh hi hd _ => ?_⟩
  · have served : nextRequest s.hold s.inbox = some (.command cw, rest) := by rw [hi, nextRequest_command]
    exact step_run hwf served (fetched_command hd)
  · have served : nextRequest s.hold s.inbox = some (.cycle cd l r, rest) := by rw [hh, hi, nextRequest_free]
    exact step_run hwf served (congrArg Fetched.run (Except.ok.inj hd))

/-! ### The hold (R53) -/

/-- While the host holds the machine, what is enabled is what is no cycle. -/
theorem enabled_held (q : Request) : q.enabled true = !q.isCycle := by cases q <;> rfl

/-- While held, the first request that is no cycle is served. -/
theorem nextRequest_held {q : Request} {pre : List Request} (post : List Request) (hpre : ∀ p ∈ pre, p.isCycle = true)
    (hq : q.isCycle = false) : nextRequest true (pre ++ q :: post) = some (q, pre ++ post) :=
  nextRequest_append (by rw [enabled_held, hq]; rfl) fun p hp => by rw [enabled_held, hpre p hp]; rfl

/-- Settles O26: `CYCLE` asks the hold first. -/
theorem heldCycleWaits : Obligations.HeldCycleWaits :=
  fun _ _ _ _ hold => if_pos hold

/-- Settles O8: past the waiting cycles stands the request that is served (`nextRequest_held`), and what it means is the
step. -/
theorem heldStepServesTheFirstCommand : Obligations.HeldStepServesTheFirstCommand := by
  refine ⟨fun s pre post hwf hh hpre => ?_, fun s hwf hh hall => step_idle hwf ?_⟩
  · have served {q : Request} (hi : s.inbox = pre ++ q :: post) (hq : q.isCycle = false) :
        nextRequest s.hold s.inbox = some (q, pre ++ post) := by
      rw [hh, hi, nextRequest_held post hpre hq]
    refine ⟨fun cw i hi hd => ?_, fun cw hi hres => ?_, fun hi => ?_⟩
    · exact step_run hwf (served hi rfl) (fetched_command hd)
    · obtain ⟨e, he⟩ := decodeCommand_reserved hres
      exact step_ignored hwf (served hi rfl) (fetched_reserved he)
    · have reset := step_reset hwf (served hi rfl) rfl
      exact ⟨reset, _, reset, rfl, rfl⟩
  · rw [hh, nextRequest_none]
    intro q hq
    rw [enabled_held, hall q hq]
    rfl

/-! ### What a command does to the ports -/

/-- Two states agree on the hold and on what has been handed back. -/
structure SameHoldAndReplies (s t : State) : Prop where
  hold : t.hold = s.hold
  replies : t.replies = s.replies

theorem freezeTo_sameHoldAndReplies (b : Bool) (s : State) : SameHoldAndReplies s (freezeTo b s) := by
  rcases freezeTo_cases b s with ⟨-, -, -, e⟩ | ⟨-, -, e⟩ | ⟨-, -, e⟩ <;> rw [e] <;> exact ⟨rfl, rfl⟩

theorem execBypass_sameHoldAndReplies {b : Bool} {s t : State} (h : execBypass b s = .next t) : SameHoldAndReplies s t := by
  rcases execBypass_cases h with ⟨-, -, rfl⟩ | ⟨-, -, -, rfl⟩ | ⟨-, -, -, rfl⟩ | ⟨-, rfl⟩ <;> exact ⟨rfl, rfl⟩

theorem setCoeff_sameHoldAndReplies (r : Reg) (v : BitVec 32) (s : State) : SameHoldAndReplies s (setCoeff r v s) := by
  obtain ⟨c, p, e⟩ := setCoeff_other r v s
  rw [e]
  exact ⟨rfl, rfl⟩

/-- A command hands nothing back on the audio port. -/
theorem exec_audioReplies {i : Instr} {s t : State} (hc : ∀ ok rp lp, i ≠ .cycle ok rp lp) (h : exec i s = .next t) :
    audioReplies t.replies = audioReplies s.replies := by
  cases i
  case cycle ok rp lp => exact absurd rfl (hc ok rp lp)
  case bypass b => rw [(execBypass_sameHoldAndReplies h).replies]
  all_goals cases h
  case freeze b => rw [(freezeTo_sameHoldAndReplies b s).replies]
  case frztgl => rw [(freezeTo_sameHoldAndReplies _ s).replies]
  case rdstat => simp [audioReplies]
  case nop | reset | lock | unlock | setLfo0inc | setLfo1inc => rfl
  all_goals rw [(setCoeff_sameHoldAndReplies _ _ s).replies]

/-- Only UNLOCK and RESET lift the hold (46_control.md R162, R164). -/
theorem exec_hold {i : Instr} {s t : State} (hc : ∀ ok rp lp, i ≠ .cycle ok rp lp) (hu : i ≠ .unlock) (hr : i ≠ .reset)
    (h : exec i s = .next t) (hh : s.hold = true) : t.hold = true := by
  cases i
  case cycle ok rp lp => exact absurd rfl (hc ok rp lp)
  case unlock => exact absurd rfl hu
  case reset => exact absurd rfl hr
  case bypass b => rw [(execBypass_sameHoldAndReplies h).hold, hh]
  all_goals cases h
  case freeze b => rw [(freezeTo_sameHoldAndReplies b s).hold, hh]
  case frztgl => rw [(freezeTo_sameHoldAndReplies _ s).hold, hh]
  case lock => rfl
  case nop | rdstat | setLfo0inc | setLfo1inc => exact hh
  all_goals rw [(setCoeff_sameHoldAndReplies _ _ s).hold, hh]

theorem freezeTo_inbox (b : Bool) (s : State) (qs : List Request) :
    freezeTo b { s with inbox := qs } = { freezeTo b s with inbox := qs } := by
  unfold freezeTo
  split_ifs <;> rfl

theorem execBypass_inbox (b : Bool) (s : State) : ∃ u, execBypass b s = .next u ∧
    ∀ qs, execBypass b { s with inbox := qs } = .next { u with inbox := qs } := by
  refine ⟨_, rfl, fun qs => congrArg Host.Outcome.next ?_⟩
  cases b with
  | false => rfl
  | true =>
    dsimp only
    split_ifs <;> rfl

theorem setCoeff_inbox (r : Reg) (v : BitVec 32) (s : State) (qs : List Request) :
    setCoeff r v { s with inbox := qs } = { setCoeff r v s with inbox := qs } := by
  unfold setCoeff writeCoeff
  dsimp only
  split
  · rfl
  · split <;> rfl

/-- A command completes, and what waits at the ports has no part in it (46_control.md R160). -/
theorem exec_inbox {i : Instr} (hc : ∀ ok rp lp, i ≠ .cycle ok rp lp) (s : State) :
    ∃ u, exec i s = .next u ∧ ∀ qs, exec i { s with inbox := qs } = .next { u with inbox := qs } := by
  cases i
  case cycle ok rp lp => exact absurd rfl (hc ok rp lp)
  case bypass b => exact execBypass_inbox b s
  case freeze b => exact ⟨_, rfl, fun qs => congrArg Host.Outcome.next (freezeTo_inbox b s qs)⟩
  case frztgl => exact ⟨_, rfl, fun qs => congrArg Host.Outcome.next (freezeTo_inbox _ s qs)⟩
  case nop | reset | lock | unlock | rdstat | setLfo0inc | setLfo1inc => exact ⟨_, rfl, fun _ => rfl⟩
  all_goals exact ⟨_, rfl, fun qs => congrArg Host.Outcome.next (setCoeff_inbox _ _ s qs)⟩

/-! ### No cycle starts while held (R53) -/

/-- Nothing has happened on the audio port: the same cycles wait in the same order, and nothing was handed back. -/
structure AudioIdle (s t : State) : Prop where
  cycles : cyclesOf t.inbox = cyclesOf s.inbox
  replies : audioReplies t.replies = audioReplies s.replies

theorem AudioIdle.refl (s : State) : AudioIdle s s := ⟨rfl, rfl⟩

theorem AudioIdle.trans {s t u : State} (h : AudioIdle s t) (g : AudioIdle t u) : AudioIdle s u :=
  ⟨g.cycles.trans h.cycles, g.replies.trans h.replies⟩

/-- Taking out a request that is no cycle leaves the cycles. -/
theorem cyclesOf_take {q : Request} (hq : q.isCycle = false) (pre post : List Request) :
    cyclesOf (pre ++ post) = cyclesOf (pre ++ q :: post) := by
  simp [cyclesOf, hq]

/-- A request that is no cycle is taken from the list and leaves everything else. -/
theorem accept_of_not_cycle {q : Request} (hq : q.isCycle = false) (s : State) (rest : List Request) :
    s.accept q rest = { s with inbox := rest } := by
  cases q
  case cycle => cases hq
  all_goals rfl

/-- What a held step does: nothing, or it takes a request that is no cycle and ignores it or executes a command. -/
theorem held_step_cases {s t : State} (hh : s.hold = true) (h : step s = .next t) :
    t = s ∨ ∃ rest, cyclesOf rest = cyclesOf s.inbox ∧ (t = { s with inbox := rest } ∨
      ∃ i, (∀ ok rp lp, i ≠ .cycle ok rp lp) ∧ exec i { s with inbox := rest } = .next t) := by
  obtain ⟨-, ⟨-, rfl⟩ | ⟨q, rest, hn, hcase⟩⟩ := step_cases h
  · exact .inl rfl
  obtain ⟨pre, post, hi, rfl, hq, -⟩ := nextRequest_some hn
  rw [hh, enabled_held, Bool.not_eq_true'] at hq
  refine .inr ⟨pre ++ post, by rw [hi, cyclesOf_take hq], ?_⟩
  rw [accept_of_not_cycle hq] at hcase
  rcases hcase with ⟨-, rfl⟩ | ⟨-, rfl⟩ | ⟨i, hf, hi⟩
  · exact .inr ⟨.reset, nofun, rfl⟩
  · exact .inl rfl
  · refine .inr ⟨i, ?_, hi⟩
    cases q with
    | cycle => cases hq
    | resetInput => cases hf
    | command cw =>
      cases hd : decodeCommand cw with
      | ok j =>
        obtain rfl := Fetched.run.inj ((fetched_command hd).symm.trans hf)
        exact decodeCommand_ne_cycle hd
      | error e => cases (fetched_reserved hd).symm.trans hf

theorem exec_command_inbox {i : Instr} {s t : State} (hc : ∀ ok rp lp, i ≠ .cycle ok rp lp) (h : exec i s = .next t) :
    t.inbox = s.inbox := by
  obtain ⟨u, hu, same⟩ := exec_inbox hc s
  rw [Host.Outcome.next.inj (h.symm.trans (same s.inbox))]

theorem exec_command_audioIdle {i : Instr} {s t : State} (hc : ∀ ok rp lp, i ≠ .cycle ok rp lp)
    (h : exec i s = .next t) : AudioIdle s t :=
  ⟨congrArg cyclesOf (exec_command_inbox hc h), exec_audioReplies hc h⟩

theorem exec_command_lfoAcc {i : Instr} {s t : State} (hc : ∀ ok rp lp, i ≠ .cycle ok rp lp)
    (h : exec i s = .next t) : t.lfoAcc = s.lfoAcc ∨ t.lfoAcc = ⟨0, 0⟩ := by
  by_cases hr : i = .reset
  · subst hr; cases h
    exact .inr rfl
  · exact .inl (exec_sameDatapath hr hc h).lfoAcc

/-- Settles O9, by the cases of a held step. -/
theorem heldStepStartsNoCycle : Obligations.HeldStepStartsNoCycle := by
  intro s t hh h
  rcases held_step_cases hh h with rfl | ⟨rest, cycles, rfl | ⟨i, hc, hi⟩⟩
  · exact ⟨rfl, rfl, .inl rfl⟩
  · exact ⟨cycles, rfl, .inl rfl⟩
  · have idle := exec_command_audioIdle hc hi
    have acc := exec_command_lfoAcc hc hi
    exact ⟨idle.cycles.trans cycles, idle.replies, acc⟩

/-! ### A group between LOCK and UNLOCK (R53, R215) -/

/-- The first request that is no cycle, and the cycles that stand before it. -/
theorem othersOf_eq_cons {qs rest : List Request} {q : Request} (h : othersOf qs = q :: rest) :
    ∃ pre post, qs = pre ++ q :: post ∧ (∀ p ∈ pre, p.isCycle = true) ∧ q.isCycle = false ∧
      othersOf (pre ++ post) = rest := by
  obtain ⟨pre, post, rfl, hpre, hq, hpost⟩ := List.filter_eq_cons_iff.mp h
  have cycles : ∀ p ∈ pre, p.isCycle = true := by simpa using hpre
  have none : othersOf pre = [] := List.filter_eq_nil_iff.mpr hpre
  refine ⟨pre, post, rfl, cycles, by simpa using hq, ?_⟩
  rw [othersOf, List.filter_append]
  exact (congrArg (· ++ _) none).trans hpost

theorem run_succ {s t : State} (n : Nat) (h : step s = .next t) :
    Host.Core.run Sys2Proof.core (n + 1) s = Host.Core.run Sys2Proof.core n t := by
  have first : Sys2Proof.core.step s = .next t := h
  simp only [Host.Core.run, first]

/-- One held step with a command word in front: the state `v` and the machine `s`, equal but for the waiting requests, are
equal so again when `v` executes what the word decodes to and `s` makes the step. -/
theorem held_step_word {s v : State} {cw : CommandWord} {qs : List Request} (hwf : s.cfg.wf = true)
    (hh : s.hold = true) (same : s = { v with inbox := s.inbox }) (hq : othersOf s.inbox = .command cw :: qs)
    (hu : decodeCommand cw ≠ .ok .unlock) (hr : decodeCommand cw ≠ .ok .reset) :
    ∃ t w, step s = .next t ∧ (∀ cs, execAll (decodedOf (cw :: cs)) v = execAll (decodedOf cs) w) ∧
      t = { w with inbox := t.inbox } ∧ othersOf t.inbox = qs ∧ t.cfg = s.cfg ∧ t.hold = true ∧ AudioIdle s t := by
  obtain ⟨pre, post, hi, hpre, hcw, others⟩ := othersOf_eq_cons hq
  have served : nextRequest s.hold s.inbox = some (.command cw, pre ++ post) := by
    rw [hh, hi, nextRequest_held post hpre hcw]
  have taken : AudioIdle s { s with inbox := pre ++ post } :=
    ⟨(cyclesOf_take hcw pre post).trans (congrArg cyclesOf hi.symm), rfl⟩
  cases hd : decodeCommand cw with
  | error e =>
    refine ⟨{ s with inbox := pre ++ post }, v, step_ignored hwf served (fetched_reserved hd), fun cs => ?_, ?_, others,
      rfl, hh, taken⟩
    · rw [decodedOf, List.filterMap_cons_none (by rw [hd]; rfl), decodedOf]
    · rw [same]
  | ok i =>
    have hc := decodeCommand_ne_cycle hd
    obtain ⟨w, hw, comm⟩ := exec_inbox hc v
    have run : exec i { s with inbox := pre ++ post } = .next { w with inbox := pre ++ post } := by
      rw [same]; exact comm _
    have cfg := exec_cfg run
    have hold := exec_hold hc (fun e => hu (e ▸ hd)) (fun e => hr (e ▸ hd)) run hh
    refine ⟨{ w with inbox := pre ++ post }, w, (step_run hwf served (fetched_command hd)).trans run, fun cs => ?_, rfl,
      others, cfg, hold, taken.trans (exec_command_audioIdle hc run)⟩
    rw [decodedOf, List.filterMap_cons_some (by rw [hd]; rfl), execAll, hw, decodedOf]

/-- A run of held steps follows the execution of the words in order, one word a step. -/
theorem run_held_group (rest : List Request) (n : Nat) : ∀ {cs : List CommandWord} {s v : State}, n ≤ cs.length →
    s.cfg.wf = true → s.hold = true → s = { v with inbox := s.inbox } →
    othersOf s.inbox = cs.map Request.command ++ rest →
    (∀ cw ∈ cs, decodeCommand cw ≠ .ok .unlock ∧ decodeCommand cw ≠ .ok .reset) →
    ∃ t u, Host.Core.run Sys2Proof.core n s = .next t ∧ t.hold = true ∧ execAll (decodedOf (cs.take n)) v = .next u ∧
      t = { u with inbox := t.inbox } ∧ othersOf t.inbox = (cs.drop n).map Request.command ++ rest ∧ AudioIdle s t := by
  induction n with
  | zero => exact fun {_ s v} _ _ hh same hq _ => ⟨s, v, rfl, hh, rfl, same, hq, .refl s⟩
  | succ n ih =>
    intro cs s v hn hwf hh same hq hcs
    cases cs with
    | nil => exact absurd hn (Nat.not_succ_le_zero n)
    | cons cw cs =>
      obtain ⟨hu, hr⟩ := hcs cw List.mem_cons_self
      obtain ⟨s', v', hstep, hexec, same', hq', hcfg, hh', idle⟩ := held_step_word hwf hh same hq hu hr
      obtain ⟨t, u, hrun, hold, hall, eq, others, idle'⟩ := ih (Nat.le_of_succ_le_succ hn) (hcfg ▸ hwf) hh' same' hq'
        fun c hc => hcs c (List.mem_cons_of_mem _ hc)
      exact ⟨t, u, (run_succ n hstep).trans hrun, hold, (hexec (cs.take n)).trans hall, eq, others, idle.trans idle'⟩

/-- Settles O10: the run starts at the state the words are executed from. -/
theorem groupIsSeenWholeOrNotAtAll : Obligations.GroupIsSeenWholeOrNotAtAll := by
  intro s cs rest hwf hh hq hcs n hn
  obtain ⟨t, u, hrun, hold, hall, eq, others, idle⟩ := run_held_group rest n hn hwf hh (v := s) rfl hq hcs
  exact ⟨t, u, hrun, hold, hall, eq, others, idle.cycles, idle.replies⟩

end Sys2Proof.Machine
end

section
/-! The LFO's table lookup (43_lfo.md R111): the interpolation of two neighbouring entries, rounded down. -/

namespace Sys2Proof.Machine

/-- An arithmetic shift is the quotient rounded down (00_scope.md R7). -/
theorem asr_eq_floor (a : Int) (n : Nat) : asr a n = ⌊(a : Rat) / 2 ^ n⌋ := by
  have h := Rat.floor_intCast_div_natCast a (2 ^ n)
  push_cast at h
  exact h.symm

/-- A fraction of a difference, rounded down, lies between 0 and the difference. -/
theorem asr_fraction_between (d : Int) {f n : Nat} (hf : f < 2 ^ n) :
    min 0 d ≤ asr (d * f) n ∧ asr (d * f) n ≤ max 0 d := by
  have pos : (0 : Int) < 2 ^ n := by positivity
  have lt : (f : Int) < 2 ^ n := by exact_mod_cast hf
  have nonneg : (0 : Int) ≤ f := f.cast_nonneg
  unfold asr
  rw [Int.le_ediv_iff_mul_le pos]
  rcases le_total 0 d with hd | hd
  · rw [min_eq_left hd, max_eq_right hd]
    refine ⟨?_, Int.ediv_le_of_le_mul pos (mul_le_mul_of_nonneg_left lt.le hd)⟩
    rw [zero_mul]
    exact mul_nonneg hd nonneg
  · rw [min_eq_right hd, max_eq_left hd]
    refine ⟨mul_le_mul_of_nonpos_left lt.le hd, Int.ediv_le_of_le_mul pos ?_⟩
    rw [zero_mul]
    exact mul_nonpos_of_nonpos_of_nonneg hd nonneg

theorem tableOk_of_wf {c : Config} (h : c.wf = true) : c.tableOk = true := by
  simp only [Config.wf, Bool.and_eq_true] at h
  obtain ⟨⟨⟨⟨⟨-, table⟩, -⟩, -⟩, -⟩, -⟩ := h
  exact table

/-- The table of a well-formed configuration: its size, and its entries as `TAB_W`-bit integers (00_scope.md R5). -/
theorem table_of_wf {c : Config} (h : c.wf = true) :
    c.tabBits ≤ 31 ∧ c.tab.length = 2 ^ c.tabBits + 1 ∧
      ∀ i < c.tab.length, -(2 ^ (c.tabW - 1) : Int) ≤ c.tab.getD i 0 ∧ c.tab.getD i 0 < (2 ^ (c.tabW - 1) : Int) := by
  have table := tableOk_of_wf h
  simp only [Config.tableOk, Bool.and_eq_true, decide_eq_true_eq, List.all_eq_true] at table
  obtain ⟨⟨⟨⟨⟨-, bits⟩, -⟩, length⟩, entries⟩, -⟩ := table
  refine ⟨bits, length, fun i hi => ?_⟩
  rw [List.getD_eq_getElem _ _ hi]
  exact entries _ (List.getElem_mem hi)

/-- The top `TAB_BITS` bits of a phase select an entry that has a next one (20_memory.md R42). -/
theorem lookup_index_lt {c : Config} (h : c.wf = true) (p : BitVec 32) :
    p.toNat / 2 ^ (32 - c.tabBits) + 1 < c.tab.length := by
  obtain ⟨bits, length, -⟩ := table_of_wf h
  have split : 2 ^ (32 - c.tabBits) * 2 ^ c.tabBits = 2 ^ 32 := by
    rw [← pow_add, Nat.sub_add_cancel (by omega)]
  have := Nat.div_lt_of_lt_mul (split ▸ p.isLt)
  omega

/-- The looked-up value lies between the two entries, in whatever table. -/
theorem lfoLookup_between {c : Config} {p : BitVec 32} {i : Nat} (hi : i = p.toNat / 2 ^ (32 - c.tabBits)) :
    min (c.tab.getD i 0) (c.tab.getD (i + 1) 0) ≤ lfoLookup c p ∧
      lfoLookup c p ≤ max (c.tab.getD i 0) (c.tab.getD (i + 1) 0) := by
  have frac : p.toNat % 2 ^ (32 - c.tabBits) < 2 ^ (32 - c.tabBits) := Nat.mod_lt _ (by positivity)
  have between := asr_fraction_between (c.tab.getD (i + 1) 0 - c.tab.getD i 0) frac
  rw [lfoLookup, ← hi]
  omega

/-- Settles O43: the value by `asr_eq_floor`; between two entries of `TAB_W` bits the value has `TAB_W` bits. -/
theorem lfoLookupValueStaysInTheTable : Obligations.LfoLookupValueStaysInTheTable := by
  refine ⟨fun c p => ?_, fun c p h => ?_⟩
  · simp only [lfoLookup, asr_eq_floor]
    push_cast
    rfl
  · have index := lookup_index_lt h p
    obtain ⟨-, -, entries⟩ := table_of_wf h
    obtain ⟨low, high⟩ := lfoLookup_between (c := c) (p := p) rfl
    have first := entries _ (Nat.lt_of_succ_lt index)
    have second := entries _ index
    refine ⟨index, low, high, ?_, ?_⟩
    · exact (le_min first.1 second.1).trans low
    · exact high.trans_lt (max_lt first.2 second.2)

end Sys2Proof.Machine
end

section
/-! The agreement of the decoder, the encoder and the opcode map (30_encoding.md R61 to R65): decoding takes an encoding
apart again, and the rows of the map are the words of the instructions. -/

namespace Sys2Proof

/-! ### Decoding an encoding -/

@[simp] theorem opOf_commandWord (op : BitVec 8) (opd : BitVec 32) : opOf (commandWord op opd) = op :=
  BitVec.extractLsb'_append_eq_left

@[simp] theorem opdOf_commandWord (op : BitVec 8) (opd : BitVec 32) : opdOf (commandWord op opd) = opd :=
  BitVec.extractLsb'_append_eq_right

/-- Decoding inverts encoding. The words of formats N and B and the descriptors are finitely many; a word of format V or U
carries its operand past the opcode, whatever the operand is. -/
theorem decode_encode (i : Instr) : decode (encode i) = .ok i := by
  cases i
  case nop | reset | lock | unlock | frztgl | rdstat => rfl
  case bypass b | freeze b => cases b <;> rfl
  case cycle ok rp lp => cases ok <;> cases rp <;> cases lp <;> rfl
  all_goals
    rw [encode, decode, decodeCommand, opOf_commandWord, opdOf_commandWord]
    rfl

/-- Settles O1: every instruction is well formed, so nothing is asked of it (`decode_encode`). -/
theorem decodeOfEncodeIsIdentity : Obligations.DecodeOfEncodeIsIdentity :=
  fun i _ => decode_encode i

/-! ### Encoding what was decoded -/

theorem descriptor_bits : ∀ cd : Descriptor, descriptor (cd.getLsbD 2) (cd.getLsbD 1) (cd.getLsbD 0) = cd := by decide

/-- Settles O2, port by port. -/
theorem encodeOfDecodeIsIdentity : Obligations.EncodeOfDecodeIsIdentity := by
  intro w i h
  cases w with
  | command cw => exact encode_of_decodeCommand h
  | descriptor cd =>
    cases h
    exact congrArg PortWord.descriptor (descriptor_bits cd)

/-- A command word decodes exactly when it is the encoding of some instruction. -/
theorem decodeCommand_ok_iff {cw : CommandWord} {i : Instr} : decodeCommand cw = .ok i ↔ encode i = .command cw := by
  refine ⟨encode_of_decodeCommand, fun h => ?_⟩
  have back := decode_encode i
  rwa [h] at back

/-! ### The rows of the opcode map -/

theorem opOf_and (x y : CommandWord) : opOf (x &&& y) = opOf x &&& opOf y := BitVec.extractLsb'_and

theorem opdOf_and (x y : CommandWord) : opdOf (x &&& y) = opdOf x &&& opdOf y := BitVec.extractLsb'_and

/-- A mask that holds the whole opcode leaves the opcode as it is. -/
theorem opOf_and_mask {cw mask : CommandWord} (h : opOf mask = 0xFF#8) : opOf (cw &&& mask) = opOf cw := by
  rw [opOf_and, h]
  exact BitVec.and_allOnes

/-- What a match under a mask that holds the whole opcode fixes: the opcode, and the operand's bits under the mask. -/
theorem fields_of_matched {cw : CommandWord} {op : BitVec 8} {m : BitVec 32}
    (h : cw &&& commandWord 0xFF#8 m = commandWord op 0#32) : cw = commandWord op (opdOf cw) ∧ opdOf cw &&& m = 0#32 := by
  have hop := congrArg opOf h
  have hopd := congrArg opdOf h
  rw [opOf_and_mask (opOf_commandWord ..), opOf_commandWord] at hop
  rw [opdOf_and, opdOf_commandWord, opdOf_commandWord] at hopd
  exact ⟨by rw [← hop, commandWord_fields], hopd⟩

/-- Every word that matches a row is the encoding of an instruction. -/
def OpcodeRow.Encodes (r : OpcodeRow) : Prop := ∀ cw : CommandWord, cw &&& r.mask = r.pattern → ∃ i, encode i = .command cw

/-- A row of format N is the word of its instruction. -/
theorem encodes_formatN {w : CommandWord} (i : Instr) (h : encode i = .command w) :
    OpcodeRow.Encodes ⟨w, 0xFFFFFFFFFF#40⟩ := by
  intro cw hm
  have whole : cw &&& 0xFFFFFFFFFF#40 = cw := BitVec.and_allOnes
  exact ⟨i, by rw [h, ← whole, hm]⟩

/-- A row of format B is the two words of its instruction: the mask leaves out the operand's lowest bit alone. -/
theorem encodes_formatB (op : BitVec 8) (f : Bool → Instr)
    (h : ∀ b, encode (f b) = .command (commandWord op (boolOperand b))) :
    OpcodeRow.Encodes ⟨commandWord op 0#32, commandWord 0xFF#8 0xFFFFFFFE#32⟩ := by
  intro cw hm
  obtain ⟨word, operand⟩ := fields_of_matched hm
  have high := congrArg (BitVec.extractLsb' 1 31) operand
  have whole : (opdOf cw).extractLsb' 1 31 &&& (0xFFFFFFFE#32).extractLsb' 1 31 = (opdOf cw).extractLsb' 1 31 :=
    BitVec.and_allOnes
  rw [BitVec.extractLsb'_and, whole] at high
  exact ⟨f _, by rw [h, ← eq_boolOperand high, ← word]⟩

/-- A row of format V or U is the words of its instruction, one for each operand. -/
theorem encodes_formatV (op : BitVec 8) (f : BitVec 32 → Instr) (h : ∀ v, encode (f v) = .command (commandWord op v)) :
    OpcodeRow.Encodes ⟨commandWord op 0#32, commandWord 0xFF#8 0#32⟩ := by
  intro cw hm
  obtain ⟨word, -⟩ := fields_of_matched hm
  exact ⟨f _, by rw [h, ← word]⟩

/-- The opcode map names an instruction, or a family of them, in every row (R63). -/
theorem opcodeRows_encode : ∀ r ∈ opcodeRows, r.Encodes := by
  simp only [opcodeRows, List.forall_mem_cons]
  exact ⟨encodes_formatN .nop rfl, encodes_formatN .reset rfl, encodes_formatN .lock rfl, encodes_formatN .unlock rfl,
    encodes_formatB 0x04#8 .bypass fun _ => rfl, encodes_formatB 0x05#8 .freeze fun _ => rfl,
    encodes_formatN .frztgl rfl, encodes_formatN .rdstat rfl,
    encodes_formatV 0x10#8 .setInattn fun _ => rfl, encodes_formatV 0x11#8 .setKin fun _ => rfl,
    encodes_formatV 0x12#8 .setKlp fun _ => rfl, encodes_formatV 0x13#8 .setRvtime fun _ => rfl,
    encodes_formatV 0x14#8 .setRvscale fun _ => rfl, encodes_formatV 0x15#8 .setHidamp fun _ => rfl,
    encodes_formatV 0x16#8 .setLodamp fun _ => rfl, encodes_formatV 0x17#8 .setLpf fun _ => rfl,
    encodes_formatV 0x18#8 .setHpf fun _ => rfl, encodes_formatV 0x19#8 .setMlpf fun _ => rfl,
    encodes_formatV 0x20#8 .setLfo0inc fun _ => rfl, encodes_formatV 0x21#8 .setLfo1inc fun _ => rfl, nofun⟩

/-- Settles O3: a word that matches no row is reserved, and one that matches a row is an encoding, which decodes. -/
theorem commandDecodesIffSomeRowMatches : Obligations.CommandDecodesIffSomeRowMatches := by
  intro cw
  constructor
  · rintro ⟨i, hi⟩
    by_contra none
    obtain ⟨e, he⟩ := decodeCommand_reserved (cw := cw) fun r hr hm => none ⟨r, hr, hm⟩
    cases hi.symm.trans he
  · rintro ⟨r, hr, hm⟩
    obtain ⟨i, hi⟩ := opcodeRows_encode r hr cw hm
    exact ⟨i, decodeCommand_ok_iff.mpr hi⟩

/-- The mask of every row holds the whole opcode (R61). -/
theorem opOf_mask : ∀ r ∈ opcodeRows, opOf r.mask = 0xFF#8 := by decide

/-- A word that matches a row has the row's opcode. -/
theorem opOf_of_matched {r : OpcodeRow} (hr : r ∈ opcodeRows) {cw : CommandWord} (hm : cw &&& r.mask = r.pattern) :
    opOf cw = opOf r.pattern := by
  rw [← hm, opOf_and_mask (opOf_mask r hr)]

/-- No opcode stands in two rows (R63). -/
theorem opcodes_distinct : opcodeRows.Pairwise fun r q => opOf r.pattern ≠ opOf q.pattern := by decide

/-- Settles O4: a word that matched two rows would have both their opcodes. -/
theorem opcodeRowsAreDisjoint : Obligations.OpcodeRowsAreDisjoint := by
  refine opcodes_distinct.imp_of_mem fun hr hq differ cw both => ?_
  obtain ⟨hmr, hmq⟩ := both
  exact differ ((opOf_of_matched hr hmr).symm.trans (opOf_of_matched hq hmq))

/-- Settles O5: each listed word is the encoding of its instruction, and the last one is none. -/
theorem listedWordsDecode : Obligations.ListedWordsDecode :=
  ⟨decode_encode .rdstat, decode_encode (.bypass true), decode_encode (.setRvtime 0x3F000000#32),
    decode_encode (.setLfo1inc 0xFFFFFFFF#32), decode_encode (.cycle true false true), rfl⟩

end Sys2Proof
end

section
/-! The two stops of a processing cycle (30_encoding.md R66, 20_memory.md R42). -/

namespace Sys2Proof.Machine

/-- A cycle that is neither held, bypassed nor dropped looks at its blocks, then at the cursors. -/
theorem execCycle_of_enabled {rp lp : Bool} {s : State} (hh : s.hold = false) (hb : s.bypass = false) :
    execCycle true rp lp s =
      if s.portOk rp lp = false then .refused .malformedBlock
      else if s.cursorsOk = false then .fault .cursorOutOfRange
      else .next (processingCycle rp lp s) := by
  simp [execCycle, hh, hb]

/-- Settles O33, by the order of the two checks. -/
theorem processingCycleStopsOutsideTheSpec : Obligations.ProcessingCycleStopsOutsideTheSpec := by
  intro rp lp s hh hb
  have checks : exec (.cycle true rp lp) s = _ := execCycle_of_enabled hh hb
  refine ⟨fun hp => ?_, fun hp hc => ?_⟩
  · rw [checks, if_pos hp]
  · rw [checks, if_neg (by rw [hp]; decide), if_pos hc]

end Sys2Proof.Machine
end

section
/-! An allpass stage over a sequence of inputs, in exact arithmetic (40_allpass.md R82). -/

namespace Sys2Proof.Machine

/-! ### The words ahead of the cursor -/

/-- The stream `v` is what the cursor is going to meet: a word `j` places ahead of it, within the capacity, is `v j`. -/
structure DelayLine.Ahead (len : Nat) (d : DelayLine) (v : Nat → Sample) : Prop where
  cursor : d.cursorOk len = true
  mem : d.memOk len = true
  word : ∀ j < len, Memory.read d.mem ((d.idx + j) % len) = v j

/-- Ahead of the cursor of a cleared RAM there are zeros. -/
theorem DelayLine.ahead_cleared {len i : Nat} {v : Nat → Sample} (hi : i < len) (hv : ∀ j < len, v j = .zero) :
    DelayLine.Ahead len ⟨[], i⟩ v :=
  ⟨decide_eq_true hi, rfl, fun j hj => (hv j hj).symm⟩

theorem DelayLine.Ahead.current {len : Nat} {d : DelayLine} {v : Nat → Sample} (h : d.Ahead len v) :
    d.current = v 0 := by
  have hc : d.idx < len := of_decide_eq_true h.cursor
  have first := h.word 0 (Nat.zero_lt_of_lt hc)
  rwa [Nat.add_zero, Nat.mod_eq_of_lt hc] at first

/-- What is stored at the cursor is met again a capacity later, and every other word is one place nearer
(20_memory.md R43). -/
theorem DelayLine.Ahead.store {len : Nat} {d : DelayLine} {v : Nat → Sample} (h : d.Ahead len v) :
    (d.store len (v len)).Ahead len (fun j => v (j + 1)) := by
  refine ⟨DelayLine.cursorOk_store _ h.cursor, DelayLine.memOk_store _ h.cursor h.mem, fun j hj => ?_⟩
  have hc : d.idx < len := of_decide_eq_true h.cursor
  have place : ((d.store len (v len)).idx + j) % len = (d.idx + (j + 1)) % len := by
    rw [DelayLine.store, Nat.mod_add_mod, Nat.add_right_comm, Nat.add_assoc]
  rw [place]
  by_cases last : j + 1 = len
  · rw [last, Nat.add_mod_right, Nat.mod_eq_of_lt hc]
    exact Memory.read_write_same _ _ (Bool.and_eq_true_iff.mp h.mem).1
  · have elsewhere : (d.idx + (j + 1)) % len ≠ d.idx := by
      rw [Nat.add_mod_eq_ite, Nat.mod_eq_of_lt hc, Nat.mod_eq_of_lt (by omega : j + 1 < len)]
      split <;> omega
    exact (Memory.read_write_other _ elsewhere _).trans (h.word (j + 1) (by omega))

/-! ### The stage as a filter -/

/-- One step in exact arithmetic: `y = w + k·x` comes out, `x − k·y` is stored. -/
theorem apStep_exact {len : Nat} {d : DelayLine} {w : Rat} (x k : Rat) (hw : d.current = .fin w) :
    apStep .exact len d (.fin x) (.fin k) = (d.store len (.fin (x - k * (w + x * k))), .fin (w + x * k)) := by
  simp [apStep, hw]

/-- `w` and `y` are the words met at the cursor and the outputs as soon as they satisfy the pair of equations of R82. -/
theorem apOutputs_of_words {len : Nat} {k : Rat} (xs : List Rat) {d : DelayLine} {w y : Nat → Rat}
    (ahead : d.Ahead len (fun j => .fin (w j)))
    (out : ∀ n < xs.length, y n = w n + k * xs.getD n 0)
    (stored : ∀ n < xs.length, w (n + len) = xs.getD n 0 - k * y n) :
    apOutputs .exact len (.fin k) d (xs.map .fin) = (List.range xs.length).map (fun n => .fin (y n)) := by
  induction xs generalizing d w y with
  | nil => rfl
  | cons x xs ih =>
    have out_now : y 0 = w 0 + x * k := by rw [mul_comm x k]; exact out 0 (Nat.succ_pos _)
    have stored_now : w len = x - k * y 0 := by simpa using stored 0 (Nat.succ_pos _)
    have step := apStep_exact (len := len) x k ahead.current
    rw [← out_now, ← stored_now] at step
    have rest := ih (y := fun n => y (n + 1)) ahead.store (fun n hn => out (n + 1) (Nat.succ_lt_succ hn))
      (fun n hn => (congrArg w (Nat.add_right_comm n len 1)).trans (stored (n + 1) (Nat.succ_lt_succ hn)))
    rw [List.map_cons, apOutputs, step, rest, List.length_cons, List.range_succ_eq_map, List.map_cons, List.map_map]
    rfl

/-- What satisfies the difference equation of R82 is the output of a stage from a cleared RAM. -/
theorem apOutputs_of_recurrence {len i : Nat} {k : Rat} {xs : List Rat} {y : Nat → Rat} (hi : i < len)
    (hy : ∀ n < xs.length,
      y n = k * xs.getD n 0 + if n < len then 0 else xs.getD (n - len) 0 - k * y (n - len)) :
    apOutputs .exact len (.fin k) ⟨[], i⟩ (xs.map .fin) = (List.range xs.length).map (fun n => .fin (y n)) := by
  refine apOutputs_of_words (w := fun n => if n < len then 0 else xs.getD (n - len) 0 - k * y (n - len)) xs
    (DelayLine.ahead_cleared hi fun j hj => ?_) (fun n hn => (hy n hn).trans (add_comm _ _)) (fun n _ => ?_)
  · rw [if_pos hj]; rfl
  · rw [if_neg (by omega), Nat.add_sub_cancel]

/-- The output of a stage by its difference equation, as a function of the inputs; a capacity of 0, which no stage has,
feeds nothing back. -/
def allpassResponse (len : Nat) (k : Rat) (x : Nat → Rat) (n : Nat) : Rat :=
  k * x n + if n < len ∨ len = 0 then 0 else x (n - len) - k * allpassResponse len k x (n - len)
termination_by n
decreasing_by omega

theorem allpassResponse_eq {len : Nat} (hl : 0 < len) (k : Rat) (x : Nat → Rat) (n : Nat) :
    allpassResponse len k x n =
      k * x n + if n < len then 0 else x (n - len) - k * allpassResponse len k x (n - len) := by
  rw [allpassResponse]
  simp only [hl.ne', or_false]

/-- Settles O35: the difference equation has a solution, and a solution is the output. -/
theorem allpassDifferenceEquation : Obligations.AllpassDifferenceEquation := by
  intro len i k xs hi
  have solves := allpassResponse_eq (Nat.zero_lt_of_lt hi) k (fun n => xs.getD n 0)
  exact ⟨_, apOutputs_of_recurrence hi fun n _ => solves n, fun n _ => solves n⟩

/-! ### The impulse response -/

/-- The impulse response of R82 at step `n`. -/
def allpassImpulse (len : Nat) (k : Rat) (n : Nat) : Rat :=
  if n = 0 then k else if n % len = 0 then (1 - k ^ 2) * (-k) ^ (n / len - 1) else 0

theorem getD_impulse (steps n : Nat) :
    ((1 : Rat) :: List.replicate steps 0).getD n 0 = if n = 0 then 1 else 0 := by
  cases n with
  | zero => rfl
  | succ n => exact (List.getElem?_getD_replicate_default_eq 0 steps n).trans (if_neg n.succ_ne_zero).symm

theorem allpassImpulse_of_lt {len n : Nat} (k : Rat) (hn : n < len) :
    allpassImpulse len k n = if n = 0 then k else 0 := by
  rw [allpassImpulse, Nat.mod_eq_of_lt hn]
  split_ifs <;> rfl

/-- A capacity later the response is scaled by `−k`, except that the impulse itself also arrives. -/
theorem allpassImpulse_add {len : Nat} (hl : 0 < len) (k : Rat) (m : Nat) :
    allpassImpulse len k (m + len) = (if m = 0 then 1 else 0) - k * allpassImpulse len k m := by
  have later : allpassImpulse len k (m + len) = if m % len = 0 then (1 - k ^ 2) * (-k) ^ (m / len) else 0 := by
    rw [allpassImpulse, if_neg (by omega), Nat.add_mod_right, Nat.add_div_right m hl, Nat.succ_sub_one]
  rw [later, allpassImpulse]
  by_cases start : m = 0
  · subst start
    simp only [Nat.zero_mod, Nat.zero_div, if_true, pow_zero]
    ring
  by_cases echo : m % len = 0
  · have full : len ≤ m := Nat.le_of_dvd (Nat.pos_of_ne_zero start) (Nat.dvd_of_mod_eq_zero echo)
    obtain ⟨t, ht⟩ := Nat.exists_eq_add_of_le' (Nat.div_pos full hl)
    simp only [if_neg start, if_pos echo]
    rw [ht, Nat.add_sub_cancel, pow_succ]
    ring
  · simp [start, echo]

theorem allpassImpulse_recurrence {len : Nat} (hl : 0 < len) (k : Rat) (steps n : Nat) :
    allpassImpulse len k n = k * ((1 : Rat) :: List.replicate steps 0).getD n 0 +
      if n < len then 0 else
        ((1 : Rat) :: List.replicate steps 0).getD (n - len) 0 - k * allpassImpulse len k (n - len) := by
  rw [getD_impulse, getD_impulse]
  by_cases hn : n < len
  · rw [allpassImpulse_of_lt k hn, if_pos hn, mul_ite, mul_one, mul_zero, add_zero]
  · obtain ⟨m, rfl⟩ := Nat.exists_eq_add_of_le' (Nat.le_of_not_lt hn)
    rw [allpassImpulse_add hl, if_neg hn, if_neg (show m + len ≠ 0 by omega), Nat.add_sub_cancel, mul_zero, zero_add]

/-- Settles O36: the closed form satisfies the difference equation. -/
theorem allpassImpulseResponse : Obligations.AllpassImpulseResponse := by
  intro len i steps k hi
  have out := apOutputs_of_recurrence (xs := 1 :: List.replicate steps 0) hi
    fun n _ => allpassImpulse_recurrence (Nat.zero_lt_of_lt hi) k steps n
  rwa [List.map_cons, List.map_replicate, List.length_cons, List.length_replicate] at out

end Sys2Proof.Machine
end

section
/-! The modulated taps (41_modulated_tap.md): which words a line holds around its cursor, the scaling and the splitting of the
modulation value, and the read between two words. -/

namespace Sys2Proof

/-! ### Finite operands by value -/

/-- What a finite value of the carrier is worth is held as a rational, in every `NUM`. -/
theorem Sample.val_inCarrier {k : NumKind} {a : Sample} (hc : a.inCarrier k = true) (ha : a.isFinite = true) :
    (Sample.fin a.val).inCarrier k = true := by
  cases a with
  | fin q => exact hc
  | negZero => exact zero_inCarrier k
  | inf n => cases ha
  | nan => cases ha

/-- Adding a zero keeps a held value, in every `NUM`. -/
theorem sumAs_zero_right {k : NumKind} (p : Primitive) {a z : Sample} (ha : a.isFinite = true)
    (hc : (Sample.fin a.val).inCarrier k = true) (hz : z.isZero = true) :
    (sumAs k p a z).isFinite = true ∧ (sumAs k p a z).val = a.val := by
  obtain ⟨hfin, hval⟩ := Sample.isZero_iff.mp hz
  rw [sumAs_finite ha hfin, hval, add_zero]
  exact deliver_held_val p _ hc

/-- Multiplying by what is worth 1 keeps a held value, in every `NUM`. -/
theorem fmul_unit_right {k : NumKind} {a u : Sample} (ha : a.isFinite = true)
    (hc : (Sample.fin a.val).inCarrier k = true) (hu : u.isFinite = true) (hu1 : u.val = 1) :
    (fmul k a u).isFinite = true ∧ (fmul k a u).val = a.val := by
  rw [fmul_finite ha hu, hu1, mul_one]
  exact deliver_held_val .fmul _ hc

/-- The weight of no fraction is a zero, in every `NUM`. -/
theorem ofFrac_zero_isZero (k : NumKind) (f : Nat) : (ofFrac k 0 f).isZero = true := by
  have zero_frac : mkRat ((0 : Nat) : Int) (2 ^ f) = 0 := Rat.zero_mkRat _
  cases k with
  | f32 => rw [ofFrac_named rfl, zero_frac]; rfl
  | exact => rw [ofFrac_named rfl, zero_frac]; rfl
  | other id => rw [ofFrac, zero_frac]; exact deliver_zero ..

namespace Machine

/-! ### The words around the cursor (R94) -/

/-- After storing `xs`, what the cursor is going to meet is the stream that `xs` continues, `xs.length` places on. -/
theorem DelayLine.Ahead.storeAll {len : Nat} (xs : List Sample) {d : DelayLine} {v : Nat → Sample} (h : d.Ahead len v)
    (hv : ∀ n < xs.length, v (n + len) = xs.getD n .zero) :
    (Machine.storeAll len d xs).Ahead len (fun j => v (j + xs.length)) := by
  induction xs generalizing d v with
  | nil => exact h
  | cons x xs ih =>
    have now : v len = x := by simpa using hv 0 (Nat.succ_pos _)
    have next := h.store
    rw [now] at next
    exact ih next fun n hn => (congrArg v (Nat.add_right_comm n len 1)).trans (hv (n + 1) (Nat.succ_lt_succ hn))

/-- The words of a line from its cursor on, continued by what is stored into it. -/
def DelayLine.stream (len : Nat) (d : DelayLine) (xs : List Sample) (j : Nat) : Sample :=
  if j < len then Memory.read d.mem ((d.idx + j) % len) else xs.getD (j - len) .zero

theorem DelayLine.stream_of_le {len j : Nat} (d : DelayLine) (xs : List Sample) (hj : len ≤ j) :
    d.stream len xs j = xs.getD (j - len) .zero := if_neg (Nat.not_lt.mpr hj)

/-- Settles O38: the cursor meets the words of the line, then the stored ones. -/
theorem tapWordsAreTheLastStored : Obligations.TapWordsAreTheLastStored := by
  intro len d xs q hidx hmem hlen hq
  have ahead : d.Ahead len (d.stream len xs) := ⟨decide_eq_true hidx, hmem, fun j hj => (if_pos hj).symm⟩
  have stored := ahead.storeAll xs fun n _ => by
    rw [DelayLine.stream_of_le d xs (Nat.le_add_left len n), Nat.add_sub_cancel]
  rw [stored.word q hq, DelayLine.stream_of_le d xs (by omega)]
  congr 1
  omega

/-! ### The modulation value (R90, R91) -/

theorem modSplit_fst (c : Config) (m : Int) : (modSplit c m).1 = m / 2 ^ c.modFracBits := rfl

theorem modSplit_snd (c : Config) (m : Int) : ((modSplit c m).2 : Int) = m % 2 ^ c.modFracBits :=
  Int.toNat_of_nonneg (Int.emod_nonneg m (by positivity))

/-- Settles O41: division with remainder by `2^F`, rounded down. -/
theorem modSplitRecomposes : Obligations.ModSplitRecomposes := by
  refine fun c m => ⟨?_, modSplit_lt c m, asr_eq_floor m c.modFracBits⟩
  rw [modSplit_fst, modSplit_snd, Int.ediv_mul_add_emod]

/-- An arithmetic shift by `n` takes a signed integer of `k + n` magnitude bits to one of `k`. -/
theorem asr_signed_range {y : Int} {k n : Nat} (low : -(2 ^ (k + n) : Int) ≤ y) (high : y < 2 ^ (k + n)) :
    -(2 ^ k : Int) ≤ asr y n ∧ asr y n < 2 ^ k := by
  have pos : (0 : Int) < 2 ^ n := by positivity
  rw [pow_add] at low high
  exact ⟨(Int.le_ediv_iff_mul_le pos).mpr (by rwa [neg_mul]), Int.ediv_lt_of_lt_mul pos high⟩

/-- The modulation format of a well-formed configuration fits the table (00_scope.md R5). -/
theorem modulation_of_wf {c : Config} (h : c.wf = true) : 1 ≤ c.lfoAmplBits ∧ c.lfoAmplBits + c.modFracBits ≤ c.tabW := by
  simp only [Config.wf, Config.modulationOk, Bool.and_eq_true, decide_eq_true_eq] at h
  obtain ⟨⟨⟨⟨-, ⟨ampl, fits⟩, -⟩, -⟩, -⟩, -⟩ := h
  exact ⟨ampl, fits⟩

/-- Settles O42: `MOD_SHIFT` is what `TAB_W` has beyond `A + F`. -/
theorem modScaleValueAndRange : Obligations.ModScaleValueAndRange := by
  refine ⟨fun c y => asr_eq_floor y c.modShift, fun c y h low high => ?_⟩
  obtain ⟨ampl, fits⟩ := modulation_of_wf h
  have width : c.tabW - 1 = (c.lfoAmplBits + c.modFracBits - 1) + c.modShift := by
    unfold Config.modShift
    omega
  rw [width] at low high
  exact asr_signed_range low high

/-! ### The read (R92) -/

/-- The read position is the floor modulus of the summed position. -/
theorem tapPos_eq {len : Nat} (idx : Nat) (off mo : Int) (h : 1 ≤ len) :
    (tapPos len idx off mo : Int) = (idx + off + mo) % len :=
  Int.toNat_of_nonneg (Int.emod_nonneg _ (by omega))

theorem tapPos_lt {len : Nat} (idx : Nat) (off mo : Int) (h : 1 ≤ len) : tapPos len idx off mo < len := by
  have lt := Int.emod_lt_of_pos (idx + off + mo) (show (0 : Int) < len by omega)
  rw [← tapPos_eq idx off mo h] at lt
  exact_mod_cast lt

theorem interpolate_exact (a b w : Rat) :
    interpolate .exact (.fin a) (.fin b) (.fin w) = .fin (a * (1 - w) + b * w) := by
  simp [interpolate, Sample.one]

/-- With a zero for its weight the interpolation is worth its first word, in every `NUM`: `1 − w` is worth 1 and `b·w` is a
zero. -/
theorem interpolate_zero_weight {k : NumKind} {a b w : Sample} (hc : a.inCarrier k = true) (ha : a.isFinite = true)
    (hb : b.isFinite = true) (hw : w.isZero = true) :
    (interpolate k a b w).isFinite = true ∧ (interpolate k a b w).val = a.val := by
  have held := Sample.val_inCarrier hc ha
  obtain ⟨unit_finite, unit_val⟩ := sumAs_zero_right .fsub (a := .one) rfl (one_inCarrier k) (Sample.isZero_neg hw)
  obtain ⟨first_finite, first_val⟩ := fmul_unit_right ha held unit_finite unit_val
  have second := fmul_isZero_right (k := k) hb hw
  obtain ⟨sum_finite, sum_val⟩ := sumAs_zero_right (k := k) .fadd first_finite (by rwa [first_val]) second
  exact ⟨sum_finite, sum_val.trans first_val⟩

/-- Settles O45: the position, the interpolation in every `NUM` and in exact arithmetic, a zero weight, the two words. -/
theorem tapReadInterpolatesInsideTheLine : Obligations.TapReadInterpolatesInsideTheLine := by
  refine ⟨fun len idx off mo h => ⟨tapPos_lt idx off mo h, ?_⟩, fun _ _ _ _ => rfl, interpolate_exact,
    fun k f a b hc ha hb => ?_, fun _ _ _ _ => rfl⟩
  · rw [tapPos_eq idx off mo h]
    exact Int.dvd_self_sub_emod
  · have weight := ofFrac_zero_isZero k f
    exact ⟨weight, interpolate_zero_weight hc ha hb weight⟩

end Machine

end Sys2Proof
end

section
/-! The damping filter (42_damping.md section 1): its rational arithmetic, and its transparency under the freeze constants. -/

namespace Sys2Proof.Machine

/-- One step of the damping filter in exact arithmetic (R100). -/
theorem dampFilter_exact {c : Regs Sample} {lpf hpf hidamp lodamp rvtime rvscale : Rat} (lp hp x : Rat)
    (hlpf : c.lpf = .fin lpf) (hhpf : c.hpf = .fin hpf) (hhidamp : c.hidamp = .fin hidamp)
    (hlodamp : c.lodamp = .fin lodamp) (hrvtime : c.rvtime = .fin rvtime) (hrvscale : c.rvscale = .fin rvscale) :
    let lp' := lp + (x - lp) * lpf
    let hp' := hp + (lp' - hp) * hpf
    dampFilter .exact c (.fin lp) (.fin hp) (.fin x) =
      ⟨.fin lp', .fin hp', .fin ((lp' + (x - lp') * hidamp + hp' * lodamp) * (rvtime * rvscale))⟩ := by
  simp only [dampFilter, hlpf, hhpf, hhidamp, hlodamp, hrvtime, hrvscale, fsub_exact, fmul_exact, fadd_exact]

/-- Settles O39: the nesting is the definition's, and on rationals each primitive is the exact operation. -/
theorem dampFilterValue : Obligations.DampFilterValue :=
  ⟨fun _ _ _ _ _ => ⟨rfl, rfl, rfl⟩, fun _ _ _ _ _ _ _ lp hp x => dampFilter_exact lp hp x⟩

/-- The mix of R100 with `HIDAMP` 1, `LODAMP` 0 and unit gains: the high band `x − lp` completes the low band to `x`, and
the shelf on `hp` drops out. -/
theorem dampMix_freeze_constants (lp hp x : Rat) : (lp + (x - lp) * 1 + hp * 0) * (1 * 1) = x := by ring

/-- Settles O40: the four freeze constants the filter reads (R169) turn its mix into its input. -/
theorem frozenDampFilterIsTransparent : Obligations.FrozenDampFilterIsTransparent := by
  intro c lpf hpf lp hp x hfrozen hlpf hhpf
  have hhidamp : c.hidamp = .fin 1 := hfrozen .hidamp
  have hlodamp : c.lodamp = .fin 0 := hfrozen .lodamp
  have hrvtime : c.rvtime = .fin 1 := hfrozen .rvtime
  have hrvscale : c.rvscale = .fin 1 := hfrozen .rvscale
  rw [dampFilter_exact lp hp x hlpf hhpf hhidamp hlodamp hrvtime hrvscale]
  exact congrArg Sample.fin (dampMix_freeze_constants _ _ x)

end Sys2Proof.Machine
end

section
/-! The phase accumulator of an LFO over many ticks (43_lfo.md sections 3 and 4). -/

namespace Sys2Proof.Machine

theorem lfoTick_iterate_lfoInc (s : State) (u : Fin 2) (n : Nat) :
    ((fun t => lfoTick t u)^[n] s).lfoInc = s.lfoInc := by
  induction n with
  | zero => rfl
  | succ n ih => rw [Function.iterate_succ_apply', lfoTick_lfoInc, ih]

/-- Each tick adds the same increment (R110), so `n` ticks add it `n` times. -/
theorem lfoTick_iterate_lfoAcc (s : State) (u : Fin 2) (n : Nat) :
    ((fun t => lfoTick t u)^[n] s).lfoAcc.get u = s.lfoAcc.get u + BitVec.ofNat 32 n * s.lfoInc.get u := by
  induction n with
  | zero => simp
  | succ n ih =>
    rw [Function.iterate_succ_apply', lfoTick_lfoAcc, Duo.get_set, if_pos rfl, ih, lfoTick_iterate_lfoInc,
      BitVec.ofNat_add, BitVec.add_mul, BitVec.one_mul, add_assoc]

/-- The accumulator read as a number: the sum wraps modulo 2^32. -/
theorem lfoTick_iterate_lfoAcc_toNat (s : State) (u : Fin 2) (n : Nat) :
    (((fun t => lfoTick t u)^[n] s).lfoAcc.get u).toNat =
      ((s.lfoAcc.get u).toNat + n * (s.lfoInc.get u).toNat) % 2 ^ 32 := by
  rw [lfoTick_iterate_lfoAcc, BitVec.toNat_add, BitVec.toNat_mul, BitVec.toNat_ofNat, Nat.mod_mul_mod, Nat.add_mod_mod]

/-- The ticks bring the accumulator back exactly when what they add in all is a multiple of 2^32. -/
theorem lfoTick_iterate_lfoAcc_eq_iff (s : State) (u : Fin 2) (n : Nat) :
    ((fun t => lfoTick t u)^[n] s).lfoAcc.get u = s.lfoAcc.get u ↔ 2 ^ 32 ∣ n * (s.lfoInc.get u).toNat := by
  rw [← BitVec.toNat_inj, lfoTick_iterate_lfoAcc_toNat]
  have start_lt := (s.lfoAcc.get u).isLt
  omega

/-- Of `m`, the factor `gcd(a, m)` is in `a` already; the rest of `m` has to come from `n`. -/
theorem dvd_mul_iff_div_gcd_dvd {m : Nat} (a n : Nat) (hm : 0 < m) : m ∣ n * a ↔ m / Nat.gcd a m ∣ n := by
  rw [Nat.div_dvd_iff_dvd_mul (Nat.gcd_dvd_right a m) (Nat.gcd_pos_of_pos_right a hm), Nat.gcd_comm,
    Nat.dvd_gcd_mul_iff_dvd_mul, Nat.mul_comm]

/-- Settles O44: the value by induction on the ticks, the period from the multiples of 2^32 among `n * inc`. -/
theorem lfoAccumulatorPeriod : Obligations.LfoAccumulatorPeriod := fun s u n =>
  ⟨lfoTick_iterate_lfoAcc_toNat s u n,
    (lfoTick_iterate_lfoAcc_eq_iff s u n).trans (dvd_mul_iff_div_gcd_dvd _ n (by decide))⟩

end Sys2Proof.Machine
end

section
/-! The output mixer (44_mixer.md): what a sample step sees of its input, the weighted tap sum and the master lowpass. -/

namespace Sys2Proof.Machine

/-! ### The input attenuation (R125) -/

/-- The attenuation reads `NUM` and `C[INATTN]` only, which no datapath operation writes. -/
theorem inputAttn_congr {s t : State} (hcfg : t.cfg = s.cfg) (hcoeff : t.coeff = s.coeff) (x : Sample) :
    inputAttn t x = inputAttn s x := by
  rw [inputAttn, inputAttn, hcfg, hcoeff]

/-- A sample step sees its input only through the attenuation (45_tank.md R141). -/
theorem sample_congr_inputAttn {s : State} {x y : Sample × Sample} (hl : inputAttn s x.1 = inputAttn s y.1)
    (hr : inputAttn s x.2 = inputAttn s y.2) : sample s x = sample s y := by
  have attn_ticked (v : Sample) : inputAttn (lfoTick (lfoTick s 0) 1) v = inputAttn s v := inputAttn_congr rfl rfl v
  have attn_left (u v : Sample) : inputAttn (apChain .L (lfoTick (lfoTick s 0) 1) u).1 v = inputAttn s v :=
    inputAttn_congr (apChain_cfg ..) (apChain_coeff ..) v
  simp only [sample, attn_ticked, attn_left, hl, hr]

/-- In exact arithmetic `INATTN` = 0 turns every input into 0. -/
theorem inputAttn_exact_zero {s : State} (hnum : s.cfg.num = .exact) (hattn : s.coeff.inattn = .zero) (a : Rat) :
    inputAttn s (.fin a) = .zero := by
  rw [inputAttn, hnum, hattn, Sample.zero, fmul_exact, mul_zero]

/-- Settles O50: both inputs are attenuated to 0, and the step sees no more of them. -/
theorem frozenSampleStepIgnoresItsInput : Obligations.FrozenSampleStepIgnoresItsInput := by
  intro s a b c d hnum hattn
  have cut := inputAttn_exact_zero hnum hattn
  exact sample_congr_inputAttn ((cut a).trans (cut c).symm) ((cut b).trans (cut d).symm)

/-! ### The tap sum and the master lowpass (R127, R128) -/

/-- The weighted sum of four rational taps in exact arithmetic. -/
theorem tapMix_exact {cfg : Config} (hnum : cfg.num = .exact) (c : Chan) (t0 t1 t2 t3 : Rat) :
    let w := cfg.tapW.get c
    tapMix cfg c ⟨.fin t0, .fin t1, .fin t2, .fin t3⟩ = .fin (t0 * w.x0 + t1 * w.x1 + t2 * w.x2 + t3 * w.x3) := by
  simp only [tapMix, hnum, ofConst, deliver_exact, fmul_exact, fadd_exact]

/-- One step of the master lowpass in exact arithmetic. -/
theorem mlpStep_exact {s : State} {c : Chan} {old k : Rat} (hnum : s.cfg.num = .exact) (hmlp : s.mlp.get c = .fin old)
    (hk : s.coeff.mlpf = .fin k) (m : Rat) : (mlpStep s c (.fin m)).2 = .fin (old + (m - old) * k) := by
  simp only [mlpStep, hnum, hmlp, hk, fsub_exact, fmul_exact, fadd_exact]

/-- With `MLPF` = 0 the correction is a zero, and adding it keeps the value of `MLP[c]`, in every `NUM`. -/
theorem mlpStep_keeps_val_of_mlpf_zero {s : State} {c : Chan} {m : Sample} (hk : s.coeff.mlpf.isZero = true)
    (hcarrier : (s.mlp.get c).inCarrier s.cfg.num = true) (hfinite : (s.mlp.get c).isFinite = true)
    (hdiff : (fsub s.cfg.num m (s.mlp.get c)).isFinite = true) :
    (mlpStep s c m).2.isFinite = true ∧ (mlpStep s c m).2.val = (s.mlp.get c).val := by
  have correction : (fmul s.cfg.num (fsub s.cfg.num m (s.mlp.get c)) s.coeff.mlpf).isZero = true :=
    fmul_isZero_right hdiff hk
  exact sumAs_zero_right .fadd hfinite (Sample.val_inCarrier hcarrier hfinite) correction

/-- Settles O46: the nesting and the frame are the definitions'; then the two rational values and a zero `MLPF`. -/
theorem outputIsTheFilteredTapSum : Obligations.OutputIsTheFilteredTapSum := by
  refine ⟨fun _ _ _ => rfl, fun _ _ _ => rfl, fun s c t0 t1 t2 t3 old k hnum hmlp hk => ?_,
    fun _ _ _ => mlpStep_keeps_val_of_mlpf_zero, fun _ _ _ => rfl⟩
  rw [tapMix_exact hnum]
  exact mlpStep_exact hnum hmlp hk _

end Sys2Proof.Machine
end

section
/-! CYCLE by its cases (45_tank.md R147 to R149): the dropped cycle, the bypassed cycle with its one cleanup, and the sample
steps of a processing cycle written out one by one. -/

namespace Sys2Proof.Machine

/-! ### The cycles that take no sample step -/

theorem execCycle_dropped (rp lp : Bool) {s : State} (hh : s.hold = false) (hb : s.bypass = false) :
    execCycle false rp lp s = .next (droppedCycle s) := by
  simp [execCycle, hh, hb]

/-- Settles O27: past the hold and the bypass, `ok` = 0 drops the cycle, which only ends it. -/
theorem droppedCycleChangesNothing : Obligations.DroppedCycleChangesNothing :=
  fun rp lp _ hh hb => execCycle_dropped rp lp hh hb

theorem execCycle_bypassed (ok rp lp : Bool) {s : State} (hh : s.hold = false) (hb : s.bypass = true) :
    execCycle ok rp lp s = .next (bypassedCycle s) := by
  simp [execCycle, hh, hb]

theorem bypassedCycle_of_clean {s : State} (h : s.cleanupDone = true) : bypassedCycle s = s.endCycle none := by
  rw [bypassedCycle, if_pos h]

theorem bypassedCycle_of_dirty {s : State} (h : s.cleanupDone = false) :
    bypassedCycle s = State.endCycle { cleanup s with cleanupDone := true } none := by
  rw [bypassedCycle, if_neg (by rw [h]; exact Bool.false_ne_true)]

/-- The cleanup keeps every cursor and makes every word `ZERO` (R143). -/
theorem cleanup_cursor_word (s : State) (m : Ram) :
    (cleanup s).cursor m = s.cursor m ∧ ∀ i, (cleanup s).word m i = .zero := by
  unfold State.cursor State.word
  rw [cleanup_line]
  exact ⟨rfl, fun _ => rfl⟩

/-- Settles O28: what `CLEANUP_DONE` was decides whether the datapath is cleared. -/
theorem bypassedCycleCleansOnce : Obligations.BypassedCycleCleansOnce := by
  intro ok rp lp s hh hb
  have bypassed : exec (.cycle ok rp lp) s = .next (bypassedCycle s) := execCycle_bypassed ok rp lp hh hb
  rw [bypassed]
  refine ⟨fun clean => ?_, fun dirty => ⟨_, rfl, ?_⟩⟩
  · rw [bypassedCycle_of_clean clean]; rfl
  · rw [bypassedCycle_of_dirty dirty]
    exact ⟨cleanup_cursor_word s, rfl⟩

/-! ### The sample steps of a processing cycle -/

/-- The state before sample step `n`, from state `s` on the inputs `x`. -/
def stateAt (s : State) (x : Nat → Sample × Sample) : Nat → State
  | 0 => s
  | n + 1 => (sample (stateAt s x n) (x n)).1

/-- The output pair of sample step `n`. -/
def outputAt (s : State) (x : Nat → Sample × Sample) (n : Nat) : Sample × Sample := (sample (stateAt s x n) (x n)).2

theorem runBlock_append (xs ys : List (Sample × Sample)) (s : State) :
    runBlock s (xs ++ ys) =
      ((runBlock (runBlock s xs).1 ys).1, (runBlock s xs).2 ++ (runBlock (runBlock s xs).1 ys).2) := by
  induction xs generalizing s with
  | nil => rfl
  | cons x xs ih => rw [List.cons_append, runBlock_cons, runBlock_cons, ih]; rfl

/-- A block is its sample steps in order. -/
theorem runBlock_eq_steps (s : State) (x : Nat → Sample × Sample) (n : Nat) :
    runBlock s ((List.range n).map x) = (stateAt s x n, (List.range n).map (outputAt s x)) := by
  induction n with
  | zero => rfl
  | succ n ih =>
    rw [List.range_succ, List.map_append, List.map_append, runBlock_append, ih]
    rfl

/-- The effective input pair of sample step `n` (R145). -/
def cycleInput (rp lp : Bool) (s : State) (n : Nat) : Sample × Sample :=
  (if lp then s.audioIn.l.getD n .zero else .zero, if rp then s.audioIn.r.getD n .zero else .zero)

/-- An effective block sample by sample. -/
theorem effective_eq_map {c : Config} {present : Bool} {b : Block} (h : (!present || c.blockFits b) = true) :
    effective c present b = (List.range c.blockLen).map fun n => if present then b.getD n .zero else .zero := by
  have length := effective_length h
  refine List.ext_getElem (by rw [length, List.length_map, List.length_range]) fun n hn _ => ?_
  rw [List.getElem_map, List.getElem_range]
  cases present with
  | false => exact List.getElem_replicate ..
  | true => exact (List.getD_eq_getElem b _ hn).symm

theorem cycleInputs_eq_map {rp lp : Bool} {s : State} (h : s.portOk rp lp = true) :
    cycleInputs rp lp s = (List.range s.cfg.blockLen).map (cycleInput rp lp s) := by
  obtain ⟨fitsL, fitsR⟩ := Bool.and_eq_true_iff.mp h
  rw [cycleInputs, effective_eq_map fitsL, effective_eq_map fitsR, List.zip_map']
  rfl

/-- The block of a cycle, from any state, is its sample steps on the effective inputs. -/
theorem runBlock_cycleInputs {rp lp : Bool} {s : State} (h : s.portOk rp lp = true) (t : State) :
    runBlock t (cycleInputs rp lp s) =
      (stateAt t (cycleInput rp lp s) s.cfg.blockLen,
        (List.range s.cfg.blockLen).map (outputAt t (cycleInput rp lp s))) := by
  rw [cycleInputs_eq_map h, runBlock_eq_steps]

/-- Settles O29: the block of the cycle is its sample steps, and ending the cycle hands back their outputs. -/
theorem processingCycleRunsTheSampleSteps : Obligations.ProcessingCycleRunsTheSampleSteps := by
  intro rp lp s hh hb hp hc
  have block := runBlock_cycleInputs hp { s with cleanupDone := false }
  have replies := (runBlock_sameControl (cycleInputs rp lp s) { s with cleanupDone := false }).replies
  have cycle : exec (.cycle true rp lp) s = .next (processingCycle rp lp s) := execCycle_processing hh hb hp hc
  refine ⟨stateAt { s with cleanupDone := false } (cycleInput rp lp s),
    outputAt { s with cleanupDone := false } (cycleInput rp lp s), rfl, fun _ _ => rfl, ?_⟩
  rw [block] at replies
  rw [cycle, processingCycle_eq, block, State.endCycle, replies, List.map_map, List.map_map]
  rfl

end Sys2Proof.Machine
end

section
/-! The delay line (45_tank.md R135) and the ring of four stages (R136 to R138). -/

namespace Sys2Proof.Machine

/-! ### The delay line -/

/-- A line hands out what its cursor meets. -/
theorem dlyOutputs_of_ahead {len : Nat} (xs : List Sample) {d : DelayLine} {v : Nat → Sample} (h : d.Ahead len v)
    (hv : ∀ n < xs.length, v (n + len) = xs.getD n .zero) : dlyOutputs len d xs = (List.range xs.length).map v := by
  induction xs generalizing d v with
  | nil => rfl
  | cons x xs ih =>
    have now : v len = x := by simpa using hv 0 (Nat.succ_pos _)
    have next := h.store
    rw [now] at next
    have rest := ih next fun n hn => (congrArg v (Nat.add_right_comm n len 1)).trans (hv (n + 1) (Nat.succ_lt_succ hn))
    rw [dlyOutputs, h.current, rest, List.length_cons, List.range_succ_eq_map, List.map_cons, List.map_map]
    rfl

/-- Settles O37: the cursor meets the zeros of the cleared line, then the samples in their order. -/
theorem delayLineDelaysByItsLength : Obligations.DelayLineDelaysByItsLength := by
  intro len i xs hi
  refine dlyOutputs_of_ahead xs (DelayLine.ahead_cleared hi fun j hj => if_pos hj) fun n _ => ?_
  rw [if_neg (by omega), Nat.add_sub_cancel]

/-! ### The ring, stage by stage -/

/-- What the allpass of ring stage `i` does with the value `r.2` that reaches it and the injected chain (R136, R138). -/
def ringAllpass (d : Stereo Sample) (i : Fin 4) (r : State × Sample) : DelayLine × Sample :=
  apStep r.1.cfg.num (r.1.cfg.lenLap.get i) (r.1.lap.get i) (fadd r.1.cfg.num r.2 (d.get (inj i))) r.1.coeff.klp

/-- What its damping filter does with the word the delay line held (R136). -/
def ringDamp (i : Fin 4) (s : State) : DampOut :=
  dampFilter s.cfg.num s.coeff (s.lpfSt.get i) (s.hpfSt.get i) (s.ldl.get i).current

section RingStage

variable (d : Stereo Sample) (i : Fin 4) (r : State × Sample)

theorem ringStage_lap : (ringStage d i r).1.lap = r.1.lap.set i (ringAllpass d i r).1 := rfl

theorem ringStage_ldl :
    (ringStage d i r).1.ldl = r.1.ldl.set i ((r.1.ldl.get i).store (r.1.cfg.lenLdl.get i) (ringAllpass d i r).2) := rfl

theorem ringStage_lpfSt : (ringStage d i r).1.lpfSt = r.1.lpfSt.set i (ringDamp i r.1).lpf := rfl

theorem ringStage_hpfSt : (ringStage d i r).1.hpfSt = r.1.hpfSt.set i (ringDamp i r.1).hpf := rfl

theorem ringStage_out : (ringStage d i r).2 = (ringDamp i r.1).y := rfl

end RingStage

/-- What ring stage `i` is run on: the state and the value the stages before it have left. -/
def beforeStage (s : State) (d : Stereo Sample) : Fin 4 → State × Sample
  | 0 => (s, s.loopOut)
  | 1 => ringStage d 0 (s, s.loopOut)
  | 2 => ringStage d 1 (ringStage d 0 (s, s.loopOut))
  | 3 => ringStage d 2 (ringStage d 1 (ringStage d 0 (s, s.loopOut)))

/-- Two states agree on what ring stage `i` reads: the configuration, the coefficients, its two RAMs, its filter states. -/
structure SameStage (i : Fin 4) (s t : State) : Prop where
  cfg : t.cfg = s.cfg
  coeff : t.coeff = s.coeff
  lap : t.lap.get i = s.lap.get i
  ldl : t.ldl.get i = s.ldl.get i
  lpfSt : t.lpfSt.get i = s.lpfSt.get i
  hpfSt : t.hpfSt.get i = s.hpfSt.get i

theorem SameStage.refl (i : Fin 4) (s : State) : SameStage i s s := ⟨rfl, rfl, rfl, rfl, rfl, rfl⟩

/-- The other stages leave it alone. -/
theorem SameStage.ringStage {i : Fin 4} {s : State} {r : State × Sample} (h : SameStage i s r.1) (d : Stereo Sample)
    (j : Fin 4) (hij : i ≠ j) : SameStage i s (ringStage d j r).1 := by
  refine ⟨(ringStage_cfg d j r).trans h.cfg, (ringStage_coeff d j r).trans h.coeff, ?_, ?_, ?_, ?_⟩
  · rw [ringStage_lap, Quad.get_set, if_neg hij, h.lap]
  · rw [ringStage_ldl, Quad.get_set, if_neg hij, h.ldl]
  · rw [ringStage_lpfSt, Quad.get_set, if_neg hij, h.lpfSt]
  · rw [ringStage_hpfSt, Quad.get_set, if_neg hij, h.hpfSt]

theorem beforeStage_sameStage (s : State) (d : Stereo Sample) : ∀ i, SameStage i s (beforeStage s d i).1
  | 0 => .refl 0 s
  | 1 => (SameStage.refl 1 s).ringStage (r := (s, s.loopOut)) d 0 (by decide)
  | 2 => ((SameStage.refl 2 s).ringStage (r := (s, s.loopOut)) d 0 (by decide)).ringStage d 1 (by decide)
  | 3 => (((SameStage.refl 3 s).ringStage (r := (s, s.loopOut)) d 0 (by decide)).ringStage d 1
      (by decide)).ringStage d 2 (by decide)

/-- What closes the ring is no part of a stage. -/
theorem SameStage.loop {i : Fin 4} {s t : State} {d : Stereo Sample}
    (h : SameStage i s (Machine.ringStage d 3 (beforeStage t d 3)).1) : SameStage i s (loop t d) :=
  ⟨h.cfg, h.coeff, h.lap, h.ldl, h.lpfSt, h.hpfSt⟩

theorem loop_sameStage (s : State) (d : Stereo Sample) :
    ∀ i, SameStage i (ringStage d i (beforeStage s d i)).1 (loop s d)
  | 0 => (((SameStage.refl 0 _).ringStage d 1 (by decide)).ringStage d 2 (by decide)).ringStage d 3 (by decide) |>.loop
  | 1 => ((SameStage.refl 1 _).ringStage d 2 (by decide)).ringStage d 3 (by decide) |>.loop
  | 2 => (SameStage.refl 2 _).ringStage d 3 (by decide) |>.loop
  | 3 => (SameStage.refl 3 _).loop

theorem SameStage.ringAllpass {i : Fin 4} {s t : State} (h : SameStage i s t) (d : Stereo Sample) (x : Sample) :
    ringAllpass d i (t, x) = ringAllpass d i (s, x) := by
  simp only [Machine.ringAllpass, h.cfg, h.coeff, h.lap]

theorem SameStage.ringDamp {i : Fin 4} {s t : State} (h : SameStage i s t) : ringDamp i t = ringDamp i s := by
  simp only [Machine.ringDamp, h.cfg, h.coeff, h.ldl, h.lpfSt, h.hpfSt]

/-- Each stage of the ring on its own RAMs and filter states as they were at the start. -/
theorem loop_stage (s : State) (d : Stereo Sample) (i : Fin 4) :
    (loop s d).lap.get i = (ringAllpass d i (s, (beforeStage s d i).2)).1 ∧
      (loop s d).ldl.get i =
        (s.ldl.get i).store (s.cfg.lenLdl.get i) (ringAllpass d i (s, (beforeStage s d i).2)).2 ∧
      (loop s d).lpfSt.get i = (ringDamp i s).lpf ∧ (loop s d).hpfSt.get i = (ringDamp i s).hpf ∧
      (ringStage d i (beforeStage s d i)).2 = (ringDamp i s).y := by
  have before := beforeStage_sameStage s d i
  have after := loop_sameStage s d i
  have allpass : ringAllpass d i (beforeStage s d i) = ringAllpass d i (s, (beforeStage s d i).2) :=
    before.ringAllpass d _
  refine ⟨?_, ?_, ?_, ?_, ?_⟩
  · rw [after.lap, ringStage_lap, Quad.get_set, if_pos rfl, allpass]
  · rw [after.ldl, ringStage_ldl, Quad.get_set, if_pos rfl, allpass, before.ldl, before.cfg]
  · rw [after.lpfSt, ringStage_lpfSt, Quad.get_set, if_pos rfl, before.ringDamp]
  · rw [after.hpfSt, ringStage_hpfSt, Quad.get_set, if_pos rfl, before.ringDamp]
  · rw [ringStage_out, before.ringDamp]

/-- State `t` is state `s` with other contents of the ring's RAMs and filter states. -/
def RingWrites (s t : State) : Prop :=
  ∃ lap ldl lpf hpf, t = { s with lap := lap, ldl := ldl, lpfSt := lpf, hpfSt := hpf }

theorem RingWrites.trans {s t u : State} (h : RingWrites s t) (g : RingWrites t u) : RingWrites s u := by
  obtain ⟨_, _, _, _, rfl⟩ := h
  obtain ⟨_, _, _, _, rfl⟩ := g
  exact ⟨_, _, _, _, rfl⟩

theorem ringStage_writes (d : Stereo Sample) (i : Fin 4) (r : State × Sample) : RingWrites r.1 (ringStage d i r).1 :=
  ⟨_, _, _, _, rfl⟩

/-- The ring writes its own RAMs and filter states, and its last output into `LOOP_OUT`. -/
theorem loop_frame (s : State) (d : Stereo Sample) :
    loop s d = { s with
      lap := (loop s d).lap, ldl := (loop s d).ldl, lpfSt := (loop s d).lpfSt, hpfSt := (loop s d).hpfSt
      loopOut := (ringStage d 3 (beforeStage s d 3)).2 } := by
  have closed : loop s d =
    { (ringStage d 3 (beforeStage s d 3)).1 with loopOut := (ringStage d 3 (beforeStage s d 3)).2 } := rfl
  obtain ⟨lap, ldl, lpf, hpf, stages⟩ : RingWrites s (ringStage d 3 (beforeStage s d 3)).1 :=
    ((ringStage_writes d 0 _).trans (ringStage_writes d 1 _)).trans (ringStage_writes d 2 _) |>.trans
      (ringStage_writes d 3 _)
  rw [closed, stages]

/-- Settles O48: `x` is what reaches each stage, injected, and `y` what it gives. -/
theorem loopIsARingOfFourStages : Obligations.LoopIsARingOfFourStages := by
  intro s d
  exact ⟨fun i => fadd s.cfg.num (beforeStage s d i).2 (d.get (inj i)), fun i => (ringStage d i (beforeStage s d i)).2,
    rfl, rfl, rfl, rfl, loop_stage s d, loop_frame s d⟩

end Sys2Proof.Machine
end

section
/-! The sample step in its order (45_tank.md R141), and how far its taps stand from the word stored in the same step (R142,
41_modulated_tap.md R94). -/

namespace Sys2Proof.Machine

/-! ### The order of the sample step -/

/-- Both accumulators ticked (43_lfo.md R110). -/
def ticked (s : State) : State :=
  { s with lfoAcc := ⟨s.lfoAcc.get 0 + s.lfoInc.get 0, s.lfoAcc.get 1 + s.lfoInc.get 1⟩ }

theorem lfoTick_lfoTick (s : State) : lfoTick (lfoTick s 0) 1 = ticked s := rfl

/-- The state of a sample step after its ring: what the taps read. -/
def afterRing (s : State) (x : Sample × Sample) : State :=
  let a := apChain .L (ticked s) (fmul s.cfg.num x.1 s.coeff.inattn)
  let b := apChain .R a.1 (fmul s.cfg.num x.2 s.coeff.inattn)
  loop b.1 ⟨a.2, b.2⟩

@[simp] theorem afterRing_cfg (s : State) (x : Sample × Sample) : (afterRing s x).cfg = s.cfg := by
  simp [afterRing, ticked]

@[simp] theorem afterRing_coeff (s : State) (x : Sample × Sample) : (afterRing s x).coeff = s.coeff := by
  simp [afterRing, ticked]

@[simp] theorem afterRing_mlp (s : State) (x : Sample × Sample) : (afterRing s x).mlp = s.mlp := by
  simp [afterRing, ticked]

/-- The phase that moves tap `j`: of LFO 0, 0, 1, 1, a quarter period ahead for taps 0 and 2 (R93, R112). -/
def tapPhase (s : State) (j : Fin 4) : BitVec 32 :=
  if j = 0 then s.lfoAcc.get 0 + s.lfoInc.get 0 + 0x40000000#32
  else if j = 1 then s.lfoAcc.get 0 + s.lfoInc.get 0
  else if j = 2 then s.lfoAcc.get 1 + s.lfoInc.get 1 + 0x40000000#32
  else s.lfoAcc.get 1 + s.lfoInc.get 1

/-- The modulation of tap `j` in the sample step of state `s`. -/
def tapMod (s : State) (j : Fin 4) : Int := modScale s.cfg (lfoLookup s.cfg (tapPhase s j))

/-- The outputs of the two LFOs after the tick. -/
def lfoOuts (s : State) : Duo LfoOut := ⟨lfoOut (ticked s) 0, lfoOut (ticked s) 1⟩

theorem tapLfo_lfoOuts (s : State) (j : Fin 4) :
    tapLfo (lfoOuts s) j = lfoLookup s.cfg (tapPhase s j) := by
  fin_cases j <;> rfl

/-- Tap `j` of channel `c` in the sample step of `s`, read from the delay lines of `r`. -/
def tapValue (s r : State) (c : Chan) (j : Fin 4) : Sample := tapRead r j ((s.cfg.tapOff.get c).get j) (tapMod s j)

/-- The mix of the four taps of channel `c` (R127). -/
def mixValue (s r : State) (c : Chan) : Sample :=
  tapMix s.cfg c ⟨tapValue s r c 0, tapValue s r c 1, tapValue s r c 2, tapValue s r c 3⟩

/-- The output of channel `c`: the mix through the master lowpass (R128, R129). -/
def outValue (s r : State) (c : Chan) : Sample := (mlpStep r c (mixValue s r c)).2

theorem outStep_lfoOuts {s r : State} (h : r.cfg = s.cfg) (c : Chan) :
    outStep (lfoOuts s) c r = mlpStep r c (mixValue s r c) := by
  have tap_eq (j : Fin 4) : tap r (lfoOuts s) c j = tapValue s r c j := by
    rw [tap, tapLfo_lfoOuts, h]; rfl
  simp only [outStep, tap_eq, h]; rfl

/-- The two output steps, one after the other: the left one writes nothing the right one reads. -/
theorem outSteps_lfoOuts {s r : State} (h : r.cfg = s.cfg) :
    outStep (lfoOuts s) .R (outStep (lfoOuts s) .L r).1 =
      ({ r with mlp := ⟨outValue s r .L, outValue s r .R⟩ }, outValue s r .R) := by
  have left_cfg : (mlpStep r .L (mixValue s r .L)).1.cfg = s.cfg := h
  rw [outStep_lfoOuts h, outStep_lfoOuts left_cfg]
  rfl

/-- The sample step in its order: tick, chains, ring, the taps of both channels from the new lines, the outputs. -/
theorem sample_eq (s : State) (x : Sample × Sample) :
    sample s x =
      ({ afterRing s x with mlp := ⟨outValue s (afterRing s x) .L, outValue s (afterRing s x) .R⟩ },
        (outValue s (afterRing s x) .L, outValue s (afterRing s x) .R)) := by
  have attn_left (u v : Sample) : inputAttn (apChain .L (ticked s) u).1 v = fmul s.cfg.num v s.coeff.inattn :=
    inputAttn_congr (apChain_cfg ..) (apChain_coeff ..) v
  have steps : sample s x =
      ((outStep (lfoOuts s) .R (outStep (lfoOuts s) .L (afterRing s x)).1).1,
        ((outStep (lfoOuts s) .L (afterRing s x)).2,
          (outStep (lfoOuts s) .R (outStep (lfoOuts s) .L (afterRing s x)).1).2)) := by
    simp only [sample, lfoTick_lfoTick, attn_left]
    rfl
  rw [steps, outSteps_lfoOuts (afterRing_cfg s x), outStep_lfoOuts (afterRing_cfg s x)]
  rfl

/-- Settles O49: the order of `sample_eq`, written out. -/
theorem sampleStepRunsInItsOrder : Obligations.SampleStepRunsInItsOrder := fun s xl xr => sample_eq s (xl, xr)

/-! ### The distance of a tap from the cursor -/

/-- How far ahead of the cursor a tap reads (41_modulated_tap.md R94). -/
def tapDistance (len : Nat) (off mo : Int) : Nat := ((off + mo) % (len : Int)).toNat

/-- The position R92 computes, counted from the cursor. -/
theorem tapPos_eq_distance {len : Nat} (idx : Nat) (off mo : Int) (h : 1 ≤ len) :
    tapPos len idx off mo = (idx + tapDistance len off mo) % len := by
  have ge := Int.emod_nonneg (off + mo) (show (len : Int) ≠ 0 by omega)
  rw [← Nat.cast_inj (R := Int), tapPos_eq idx off mo h, Int.natCast_mod, Nat.cast_add, tapDistance,
    Int.toNat_of_nonneg ge, Int.add_emod_emod, add_assoc]

theorem nextTapQ_eq (s : State) (c : Chan) (j : Fin 4) :
    nextTapQ s c j = tapDistance (s.cfg.lenLdl.get j) ((s.cfg.tapOff.get c).get j) (modSplit s.cfg (tapMod s j)).1 := by
  have moved : tapLfo ⟨lfoOut (lfoTick (lfoTick s 0) 1) 0, lfoOut (lfoTick (lfoTick s 0) 1) 1⟩ j =
      lfoLookup s.cfg (tapPhase s j) := tapLfo_lfoOuts s j
  simp only [nextTapQ, moved]
  rfl

/-- The words a tap reads by their distance from the cursor: the one at `q` and the next one. -/
theorem tapRead_eq {s : State} {i : Fin 4} (off m : Int) (h : 1 ≤ s.cfg.lenLdl.get i) :
    tapRead s i off m =
      interpolate s.cfg.num
        (Memory.read (s.ldl.get i).mem
          (((s.ldl.get i).idx + tapDistance (s.cfg.lenLdl.get i) off (modSplit s.cfg m).1) % s.cfg.lenLdl.get i))
        (Memory.read (s.ldl.get i).mem
          (((s.ldl.get i).idx + (tapDistance (s.cfg.lenLdl.get i) off (modSplit s.cfg m).1 + 1)) % s.cfg.lenLdl.get i))
        (ofFrac s.cfg.num (modSplit s.cfg m).2 s.cfg.modFracBits) := by
  simp only [tapRead, tapPos_eq_distance _ off _ h, Nat.mod_add_mod, add_assoc]

/-- From the advanced cursor on, every word but the last is an old one, one place nearer than it was. -/
theorem DelayLine.read_store_behind {len q : Nat} {d : DelayLine} (x : Sample) (hc : d.idx < len) (hq : q + 1 < len) :
    Memory.read (d.store len x).mem (((d.store len x).idx + q) % len) = Memory.read d.mem ((d.idx + (q + 1)) % len) := by
  have place : ((d.store len x).idx + q) % len = (d.idx + (q + 1)) % len := by
    rw [DelayLine.store, Nat.mod_add_mod, Nat.add_right_comm, Nat.add_assoc]
  have elsewhere : (d.idx + (q + 1)) % len ≠ d.idx := by
    rw [Nat.add_mod_eq_ite, Nat.mod_eq_of_lt hc, Nat.mod_eq_of_lt hq]
    split <;> omega
  rw [place]
  exact Memory.read_write_other x elsewhere _

/-- The ring of a sample step stores one word in each delay line. -/
theorem afterRing_ldl (s : State) (x : Sample × Sample) (j : Fin 4) :
    ∃ v, (afterRing s x).ldl.get j = (s.ldl.get j).store (s.cfg.lenLdl.get j) v := by
  obtain ⟨v, hv⟩ := sample_stores s x (.ldl j)
  rw [sample_eq] at hv
  exact ⟨v, hv⟩

/-- A tap three words or more behind the newest one reads two words that the line held before the step (R92, R94). -/
theorem tapValue_of_stands_back {s : State} {c : Chan} {j : Fin 4} (x : Sample × Sample) (hc : s.cursorsOk = true)
    (hq : nextTapQ s c j + 2 < s.cfg.lenLdl.get j) :
    tapValue s (afterRing s x) c j =
      interpolate s.cfg.num
        (s.word (.ldl j) ((s.cursor (.ldl j) + (nextTapQ s c j + 1)) % s.cfg.lenLdl.get j))
        (s.word (.ldl j) ((s.cursor (.ldl j) + (nextTapQ s c j + 2)) % s.cfg.lenLdl.get j))
        (ofFrac s.cfg.num (modSplit s.cfg (tapMod s j)).2 s.cfg.modFracBits) := by
  have cursor : (s.ldl.get j).idx < s.cfg.lenLdl.get j := cursorsOk_iff.mp hc (.ldl j)
  obtain ⟨v, hv⟩ := afterRing_ldl s x j
  have line : 1 ≤ (afterRing s x).cfg.lenLdl.get j := by rw [afterRing_cfg]; omega
  rw [tapValue, tapRead_eq _ _ line, hv, afterRing_cfg, ← nextTapQ_eq, DelayLine.read_store_behind v cursor (by omega),
    DelayLine.read_store_behind v cursor (by omega)]
  rfl

/-- Settles O51: the eight taps read old words, and the outputs see the input through the taps alone. -/
theorem outputIgnoresInputWhenTapsStandBack : Obligations.OutputIgnoresInputWhenTapsStandBack := by
  intro s x x' hc hq
  have taps (c : Chan) (j : Fin 4) : tapValue s (afterRing s x) c j = tapValue s (afterRing s x') c j :=
    (tapValue_of_stands_back x hc (hq c j)).trans (tapValue_of_stands_back x' hc (hq c j)).symm
  have out (c : Chan) : outValue s (afterRing s x) c = outValue s (afterRing s x') c := by
    simp only [outValue, mixValue, mlpStep, taps, afterRing_cfg, afterRing_coeff, afterRing_mlp]
  rw [sample_eq, sample_eq, out, out]

/-! ### The spec's own bound -/

/-- The test configuration in exact arithmetic, with delay lines of two words and every tap at the cursor. -/
def shortLines : Config := { Config.tc with num := .exact, lenLdl := .all 2, tapOff := ⟨.all 0, .all 0⟩ }

/-- A cleared state in which every tap of the next sample step stands at `q` = 0 = `L` − 2 with a fractional weight, and the
input is let through. -/
def nearTaps : State :=
  { State.resetOf shortLines with
    coeff := { (State.resetOf shortLines).coeff with inattn := .one, mlpf := .one }
    lfoInc := ⟨0x10000000#32, 0x10000000#32⟩ }

theorem nearTaps_sound : nearTaps.sound = true := by decide

theorem nearTaps_q (c : Chan) (j : Fin 4) : nextTapQ nearTaps c j + 2 ≤ nearTaps.cfg.lenLdl.get j := by
  cases c <;> fin_cases j <;> decide

theorem nearTaps_on_silence : (sample nearTaps (.zero, .zero)).2.1 = .fin 0 := by decide +kernel

theorem nearTaps_on_ones : (sample nearTaps (.one, .one)).2.1 = .fin (mkRat 21 (2 ^ 44)) := by decide +kernel

/-- Refutes O52: at `q` = `L` − 2 a tap interpolates toward the word stored in the same step, so that from `nearTaps` the
left output is 0 on silence and 21/2^44 on ones. -/
theorem not_outputIgnoresInputAtTheSpecsBound : ¬ Obligations.OutputIgnoresInputAtTheSpecsBound := by
  intro h
  have same := congrArg Prod.fst (h nearTaps (.zero, .zero) (.one, .one) nearTaps_sound nearTaps_q)
  rw [nearTaps_on_silence, nearTaps_on_ones] at same
  exact absurd same (by decide +kernel)

end Sys2Proof.Machine
end

section
/-! Two runs side by side: a relation between samples that the arithmetic of the datapath keeps is kept by a sample step,
word by word at the same distance from the cursors. With equality it says that the cursors are not seen (45_tank.md R143),
with `isZero` that silence stays silence (95_test_vectors.md S5). -/

namespace Sys2Proof

/-! ### Finite gains -/

theorem Sample.val_neg (a : Sample) : a.neg.val = -a.val := by
  cases a with
  | fin q =>
    by_cases h : q = 0
    · rw [h]; rfl
    · rw [Sample.neg, if_neg h]; rfl
  | negZero => rfl
  | inf n => rfl
  | nan => rfl

/-- Both named instantiations deliver a finite sample for a small exact value. -/
theorem deliver_named_finite {k : NumKind} (h : k.named = true) (p : Primitive) (neg : Bool) {q : Rat} (hq : |q| ≤ 1) :
    (k.deliver p neg q).isFinite = true := by
  cases k with
  | f32 =>
    obtain ⟨v, hv, round, -⟩ := exists_pattern_roundF32 neg (q := q) (hq.trans_lt (by norm_num))
    rw [NumKind.deliver, round]
    exact (ofF32Bits_f32_val hv).1
  | exact => rfl
  | other id => cases h

/-- The complement of a fraction is finite in both named instantiations. -/
theorem fsub_one_ofFrac_finite {k : NumKind} (h : k.named = true) {w f : Nat} (hw : w < 2 ^ f) :
    (fsub k .one (ofFrac k w f)).isFinite = true := by
  have fraction : mkRat w (2 ^ f) = (w : Rat) / (2 ^ f : Nat) := by rw [Rat.mkRat_eq_div]; push_cast; rfl
  have low : 0 ≤ mkRat w (2 ^ f) := by rw [fraction]; positivity
  have high : mkRat w (2 ^ f) ≤ 1 := by
    rw [fraction]
    exact div_le_one_of_le₀ (by exact_mod_cast hw.le) (by positivity)
  rw [ofFrac_named h, fsub, sumAs_finite rfl (Sample.isFinite_neg _), Sample.val_neg]
  refine deliver_named_finite h _ _ (abs_le.mpr ?_)
  simp only [Sample.one, Sample.val]
  constructor <;> linarith

/-- The product of two values between 0 and 1 is finite in both named instantiations. -/
theorem fmul_named_finite {k : NumKind} (h : k.named = true) {a b : Sample} (ha : a.isFinite = true)
    (hb : b.isFinite = true) (ua : 0 ≤ a.val ∧ a.val ≤ 1) (ub : 0 ≤ b.val ∧ b.val ≤ 1) : (fmul k a b).isFinite = true := by
  rw [fmul_finite ha hb]
  refine deliver_named_finite h _ _ ?_
  rw [abs_of_nonneg (mul_nonneg ua.1 ub.1)]
  exact mul_le_one₀ ua.2 ub.1 ub.2

namespace Machine

/-! ### Relations the arithmetic keeps -/

/-- A relation between samples that the arithmetic of the datapath keeps: sums, differences, and products with the gains
`K`. -/
structure Linear (n : NumKind) (R : Sample → Sample → Prop) (K : Sample → Prop) : Prop where
  add {a b a' b' : Sample} : R a b → R a' b' → R (fadd n a a') (fadd n b b')
  sub {a b a' b' : Sample} : R a b → R a' b' → R (fsub n a a') (fsub n b b')
  mul {a b k : Sample} : R a b → K k → R (fmul n a k) (fmul n b k)
  mul_left {a b k : Sample} : R a b → K k → R (fmul n k a) (fmul n k b)

/-- Every gain of the datapath under a configuration and its coefficients is one of `K`. -/
structure Gains (cfg : Config) (c : Regs Sample) (K : Sample → Prop) : Prop where
  coeff : ∀ r, K (c.get r)
  scale : K (fmul cfg.num c.rvtime c.rvscale)
  weight : ∀ w < 2 ^ cfg.modFracBits, K (ofFrac cfg.num w cfg.modFracBits)
  complement : ∀ w < 2 ^ cfg.modFracBits, K (fsub cfg.num .one (ofFrac cfg.num w cfg.modFracBits))
  tapW : ∀ ch j, K (ofConst cfg.num ((cfg.tapW.get ch).get j))

/-! ### Related delay lines -/

/-- Two delay lines of one capacity that hold related words at the same distances from their cursors. -/
def DelayLine.Related (R : Sample → Sample → Prop) (len : Nat) (d e : DelayLine) : Prop :=
  ∃ v w, d.Ahead len v ∧ e.Ahead len w ∧ ∀ j < len, R (v j) (w j)

section Lines

variable {R : Sample → Sample → Prop} {len : Nat} {d e : DelayLine}

theorem DelayLine.Ahead.lt {v : Nat → Sample} (h : d.Ahead len v) : d.idx < len := of_decide_eq_true h.cursor

theorem DelayLine.Related.pos (h : DelayLine.Related R len d e) : 1 ≤ len := by
  obtain ⟨v, w, hd, -, -⟩ := h
  exact Nat.zero_lt_of_lt hd.lt

theorem DelayLine.Related.read (h : DelayLine.Related R len d e) (q : Nat) :
    R (Memory.read d.mem ((d.idx + q) % len)) (Memory.read e.mem ((e.idx + q) % len)) := by
  have pos := h.pos
  obtain ⟨v, w, hd, he, hvw⟩ := h
  have lt := Nat.mod_lt q pos
  rw [← Nat.add_mod_mod, ← Nat.add_mod_mod e.idx, hd.word _ lt, he.word _ lt]
  exact hvw _ lt

theorem DelayLine.Related.current (h : DelayLine.Related R len d e) : R d.current e.current := by
  have pos := h.pos
  obtain ⟨v, w, hd, he, hvw⟩ := h
  rw [hd.current, he.current]
  exact hvw 0 pos

/-- What a stored word does to the words ahead of the cursor. -/
theorem DelayLine.Ahead.store_word {v : Nat → Sample} (h : d.Ahead len v) (x : Sample) :
    (d.store len x).Ahead len (fun j => if j + 1 < len then v (j + 1) else x) := by
  have continued : d.Ahead len (fun j => if j < len then v j else x) :=
    ⟨h.cursor, h.mem, fun j hj => (h.word j hj).trans (if_pos hj).symm⟩
  simpa using continued.store

theorem DelayLine.Related.store (h : DelayLine.Related R len d e) {x y : Sample} (hxy : R x y) :
    DelayLine.Related R len (d.store len x) (e.store len y) := by
  obtain ⟨v, w, hd, he, hvw⟩ := h
  refine ⟨_, _, hd.store_word x, he.store_word y, fun j _ => ?_⟩
  split
  · next hj => exact hvw _ hj
  · exact hxy

/-- Cleared lines hold zeros, wherever their cursors are. -/
theorem DelayLine.related_cleared (h0 : R .zero .zero) (hd : d.idx < len) (he : e.idx < len) (md : d.mem = [])
    (me : e.mem = []) : DelayLine.Related R len d e := by
  obtain ⟨_, i⟩ := d
  obtain ⟨_, j⟩ := e
  subst md me
  exact ⟨fun _ => .zero, fun _ => .zero, ahead_cleared hd fun _ _ => rfl, ahead_cleared he fun _ _ => rfl, fun _ _ => h0⟩

end Lines

/-! ### Related states -/

/-- Two states of one configuration, with the same coefficients and accumulators, whose samples are related, those of the
delay lines at the same distances from the cursors. -/
structure Related (R : Sample → Sample → Prop) (cfg : Config) (c : Regs Sample) (s t : State) : Prop where
  sameCfg : s.cfg = cfg ∧ t.cfg = cfg
  sameCoeff : s.coeff = c ∧ t.coeff = c
  lfoAcc : s.lfoAcc = t.lfoAcc
  lfoInc : s.lfoInc = t.lfoInc
  line : ∀ m, DelayLine.Related R (ramCap cfg m) (s.line m) (t.line m)
  lpfSt : ∀ i, R (s.lpfSt.get i) (t.lpfSt.get i)
  hpfSt : ∀ i, R (s.hpfSt.get i) (t.hpfSt.get i)
  loopOut : R s.loopOut t.loopOut
  mlp : ∀ ch, R (s.mlp.get ch) (t.mlp.get ch)

/-! ### One update of related states -/

/-- Four related things stay related when a pair of them is replaced by a related one. -/
theorem Quad.forall_get_set {α : Type} {P : Fin 4 → α → α → Prop} {p q : Quad α} (h : ∀ j, P j (p.get j) (q.get j))
    {i : Fin 4} {x y : α} (hxy : P i x y) (j : Fin 4) : P j ((p.set i x).get j) ((q.set i y).get j) := by
  rw [Quad.get_set, Quad.get_set]
  split
  · next e => exact e ▸ hxy
  · exact h j

section Related

variable {R : Sample → Sample → Prop} {K : Sample → Prop} {cfg : Config} {c : Regs Sample} {s t : State}

/-- A group of four RAMs with related contents stays one when a RAM of each is given related contents. -/
theorem Quad.set_related {cap : Fin 4 → Nat} {p q : Quad DelayLine}
    (h : ∀ j, DelayLine.Related R (cap j) (p.get j) (q.get j)) {i : Fin 4} {d e : DelayLine}
    (hde : DelayLine.Related R (cap i) d e) (j : Fin 4) :
    DelayLine.Related R (cap j) ((p.set i d).get j) ((q.set i e).get j) :=
  Quad.forall_get_set (P := fun j => DelayLine.Related R (cap j)) h hde j

/-- New contents of the delay RAMs. -/
theorem Related.setLines (h : Related R cfg c s t) {ia ia' : Stereo (Quad DelayLine)} {la la' ld ld' : Quad DelayLine}
    (hia : ∀ ch i, DelayLine.Related R (ramCap cfg (.inap ch i)) ((ia.get ch).get i) ((ia'.get ch).get i))
    (hla : ∀ i, DelayLine.Related R (ramCap cfg (.lap i)) (la.get i) (la'.get i))
    (hld : ∀ i, DelayLine.Related R (ramCap cfg (.ldl i)) (ld.get i) (ld'.get i)) :
    Related R cfg c { s with inap := ia, lap := la, ldl := ld } { t with inap := ia', lap := la', ldl := ld' } := by
  refine ⟨h.sameCfg, h.sameCoeff, h.lfoAcc, h.lfoInc, fun m => ?_, h.lpfSt, h.hpfSt, h.loopOut, h.mlp⟩
  cases m with
  | inap ch i => exact hia ch i
  | lap i => exact hla i
  | ldl i => exact hld i

theorem Related.setInap (h : Related R cfg c s t) (ch : Chan) (i : Fin 4) {d e : DelayLine}
    (hde : DelayLine.Related R (ramCap cfg (.inap ch i)) d e) :
    Related R cfg c { s with inap := s.inap.set ch ((s.inap.get ch).set i d) }
      { t with inap := t.inap.set ch ((t.inap.get ch).set i e) } := by
  refine h.setLines (fun f => ?_) (fun j => h.line (.lap j)) fun j => h.line (.ldl j)
  rw [Stereo.get_set, Stereo.get_set]
  split
  · next same => subst same; exact Quad.set_related (fun j => h.line (.inap f j)) hde
  · exact fun j => h.line (.inap f j)

theorem Related.setLap (h : Related R cfg c s t) (i : Fin 4) {d e : DelayLine}
    (hde : DelayLine.Related R (ramCap cfg (.lap i)) d e) :
    Related R cfg c { s with lap := s.lap.set i d } { t with lap := t.lap.set i e } :=
  h.setLines (fun ch j => h.line (.inap ch j)) (Quad.set_related (fun j => h.line (.lap j)) hde) fun j => h.line (.ldl j)

theorem Related.setLdl (h : Related R cfg c s t) (i : Fin 4) {d e : DelayLine}
    (hde : DelayLine.Related R (ramCap cfg (.ldl i)) d e) :
    Related R cfg c { s with ldl := s.ldl.set i d } { t with ldl := t.ldl.set i e } :=
  h.setLines (fun ch j => h.line (.inap ch j)) (fun j => h.line (.lap j)) (Quad.set_related (fun j => h.line (.ldl j)) hde)

theorem Related.setDamp (h : Related R cfg c s t) (i : Fin 4) {x y x' y' : Sample} (hx : R x x') (hy : R y y') :
    Related R cfg c { s with lpfSt := s.lpfSt.set i x, hpfSt := s.hpfSt.set i y }
      { t with lpfSt := t.lpfSt.set i x', hpfSt := t.hpfSt.set i y' } :=
  ⟨h.sameCfg, h.sameCoeff, h.lfoAcc, h.lfoInc, h.line, Quad.forall_get_set (P := fun _ => R) h.lpfSt hx,
    Quad.forall_get_set (P := fun _ => R) h.hpfSt hy, h.loopOut, h.mlp⟩

theorem Related.setLoopOut (h : Related R cfg c s t) {x y : Sample} (hxy : R x y) :
    Related R cfg c { s with loopOut := x } { t with loopOut := y } :=
  ⟨h.sameCfg, h.sameCoeff, h.lfoAcc, h.lfoInc, h.line, h.lpfSt, h.hpfSt, hxy, h.mlp⟩

theorem Related.setMlp (h : Related R cfg c s t) {p q : Stereo Sample} (hpq : ∀ ch, R (p.get ch) (q.get ch)) :
    Related R cfg c { s with mlp := p } { t with mlp := q } :=
  ⟨h.sameCfg, h.sameCoeff, h.lfoAcc, h.lfoInc, h.line, h.lpfSt, h.hpfSt, h.loopOut, hpq⟩

theorem ticked_related (h : Related R cfg c s t) : Related R cfg c (ticked s) (ticked t) := by
  refine ⟨h.sameCfg, h.sameCoeff, ?_, h.lfoInc, h.line, h.lpfSt, h.hpfSt, h.loopOut, h.mlp⟩
  simp only [ticked, h.lfoAcc, h.lfoInc]

/-! ### The sample step -/

/-- Related states with related samples on their way through them. -/
def RelatedPair (R : Sample → Sample → Prop) (cfg : Config) (c : Regs Sample) (r q : State × Sample) : Prop :=
  Related R cfg c r.1 q.1 ∧ R r.2 q.2

variable (lin : Linear cfg.num R K) (gains : Gains cfg c K)

include lin in
/-- One allpass stage on related lines and inputs (40_allpass.md R80). -/
theorem apStep_related {len : Nat} {d e : DelayLine} {x y k : Sample} (hde : DelayLine.Related R len d e) (hxy : R x y)
    (hk : K k) :
    DelayLine.Related R len (apStep cfg.num len d x k).1 (apStep cfg.num len e y k).1 ∧
      R (apStep cfg.num len d x k).2 (apStep cfg.num len e y k).2 := by
  have out : R (apStep cfg.num len d x k).2 (apStep cfg.num len e y k).2 := lin.add hde.current (lin.mul hxy hk)
  exact ⟨hde.store (lin.sub hxy (lin.mul_left out hk)), out⟩

include lin gains in
theorem inapStep_related (ch : Chan) (i : Fin 4) {r q : State × Sample} (h : RelatedPair R cfg c r q) :
    RelatedPair R cfg c (inapStep ch i r) (inapStep ch i q) := by
  obtain ⟨hs, hx⟩ := h
  obtain ⟨line, out⟩ := apStep_related lin (hs.line (.inap ch i)) hx (gains.coeff .kin)
  refine ⟨hs.setInap ch i ?_, ?_⟩ <;> simp only [inapStep, hs.sameCfg, hs.sameCoeff]
  exacts [line, out]

include lin gains in
theorem apChain_related (ch : Chan) {x y : Sample} (h : Related R cfg c s t) (hxy : R x y) :
    RelatedPair R cfg c (apChain ch s x) (apChain ch t y) :=
  inapStep_related lin gains ch 3 (inapStep_related lin gains ch 2 (inapStep_related lin gains ch 1
    (inapStep_related lin gains ch 0 ⟨h, hxy⟩)))

include lin gains in
theorem lapStep_related (i : Fin 4) {r q : State × Sample} (h : RelatedPair R cfg c r q) :
    RelatedPair R cfg c (lapStep i r) (lapStep i q) := by
  obtain ⟨hs, hx⟩ := h
  obtain ⟨line, out⟩ := apStep_related lin (hs.line (.lap i)) hx (gains.coeff .klp)
  refine ⟨hs.setLap i ?_, ?_⟩ <;> simp only [lapStep, hs.sameCfg, hs.sameCoeff]
  exacts [line, out]

theorem dlyStep_related (i : Fin 4) {r q : State × Sample} (h : RelatedPair R cfg c r q) :
    RelatedPair R cfg c (dlyStep i r) (dlyStep i q) := by
  obtain ⟨hs, hx⟩ := h
  have line := hs.line (.ldl i)
  refine ⟨hs.setLdl i ?_, line.current⟩
  simp only [hs.sameCfg]
  exact line.store hx

include lin gains in
theorem dampFilter_related {lp lp' hp hp' x y : Sample} (hl : R lp lp') (hh : R hp hp') (hx : R x y) :
    R (dampFilter cfg.num c lp hp x).lpf (dampFilter cfg.num c lp' hp' y).lpf ∧
      R (dampFilter cfg.num c lp hp x).hpf (dampFilter cfg.num c lp' hp' y).hpf ∧
      R (dampFilter cfg.num c lp hp x).y (dampFilter cfg.num c lp' hp' y).y := by
  have low : R (dampFilter cfg.num c lp hp x).lpf (dampFilter cfg.num c lp' hp' y).lpf :=
    lin.add hl (lin.mul (lin.sub hx hl) (gains.coeff .lpf))
  have high : R (dampFilter cfg.num c lp hp x).hpf (dampFilter cfg.num c lp' hp' y).hpf :=
    lin.add hh (lin.mul (lin.sub low hh) (gains.coeff .hpf))
  have mix := lin.add (lin.add low (lin.mul (lin.sub hx low) (gains.coeff .hidamp)))
    (lin.mul high (gains.coeff .lodamp))
  exact ⟨low, high, lin.mul mix gains.scale⟩

include lin gains in
theorem dampStep_related (i : Fin 4) {r q : State × Sample} (h : RelatedPair R cfg c r q) :
    RelatedPair R cfg c (dampStep i r) (dampStep i q) := by
  obtain ⟨hs, hx⟩ := h
  obtain ⟨low, high, out⟩ := dampFilter_related lin gains (hs.lpfSt i) (hs.hpfSt i) hx
  refine ⟨hs.setDamp i ?_ ?_, ?_⟩ <;> simp only [dampStep, hs.sameCfg, hs.sameCoeff]
  exacts [low, high, out]

include lin gains in
theorem ringStage_related {d e : Stereo Sample} (hd : ∀ ch, R (d.get ch) (e.get ch)) (i : Fin 4) {r q : State × Sample}
    (h : RelatedPair R cfg c r q) : RelatedPair R cfg c (ringStage d i r) (ringStage e i q) := by
  obtain ⟨hs, hx⟩ := h
  have injected : RelatedPair R cfg c (r.1, injSum r.1.cfg.num r.2 (d.get (inj i)))
      (q.1, injSum q.1.cfg.num q.2 (e.get (inj i))) := by
    refine ⟨hs, ?_⟩
    simp only [hs.sameCfg]
    exact lin.add hx (hd _)
  exact dampStep_related lin gains i (dlyStep_related i (lapStep_related lin gains i injected))

include lin gains in
theorem loop_related {d e : Stereo Sample} (h : Related R cfg c s t) (hd : ∀ ch, R (d.get ch) (e.get ch)) :
    Related R cfg c (loop s d) (loop t e) := by
  obtain ⟨stages, out⟩ := ringStage_related lin gains hd 3 (ringStage_related lin gains hd 2
    (ringStage_related lin gains hd 1 (ringStage_related lin gains hd 0 (r := (s, s.loopOut)) (q := (t, t.loopOut))
      ⟨h, h.loopOut⟩)))
  exact stages.setLoopOut out

include lin gains in
theorem afterRing_related {x y : Sample × Sample} (h : Related R cfg c s t) (hl : R x.1 y.1) (hr : R x.2 y.2) :
    Related R cfg c (afterRing s x) (afterRing t y) := by
  obtain ⟨left, outL⟩ := apChain_related lin gains .L (ticked_related h) (lin.mul hl (gains.coeff .inattn))
  obtain ⟨right, outR⟩ := apChain_related lin gains .R left (lin.mul hr (gains.coeff .inattn))
  simp only [afterRing, h.sameCfg, h.sameCoeff]
  refine loop_related lin gains right fun ch => ?_
  cases ch with
  | L => exact outL
  | R => exact outR

include lin gains in
theorem tapRead_related (h : Related R cfg c s t) (i : Fin 4) (off m : Int) :
    R (tapRead s i off m) (tapRead t i off m) := by
  have line := h.line (.ldl i)
  have lt := modSplit_lt cfg m
  obtain ⟨cfgL, cfgR⟩ := h.sameCfg
  rw [tapRead_eq off m (cfgL ▸ line.pos), tapRead_eq off m (cfgR ▸ line.pos), cfgL, cfgR]
  exact lin.add (lin.mul (line.read _) (gains.complement _ lt)) (lin.mul (line.read _) (gains.weight _ lt))

include lin gains in
theorem outValue_related {s' t' : State} (h : Related R cfg c s t) (h' : Related R cfg c s' t') (ch : Chan) :
    R (outValue s s' ch) (outValue t t' ch) := by
  have taps (j : Fin 4) : R (tapValue s s' ch j) (tapValue t t' ch j) := by
    simp only [tapValue, tapMod, tapPhase, h.sameCfg, h.lfoAcc, h.lfoInc]
    exact tapRead_related lin gains h' j _ _
  have term (j : Fin 4) := lin.mul (taps j) (gains.tapW ch j)
  have mix : R (mixValue s s' ch) (mixValue t t' ch) := by
    simp only [mixValue, h.sameCfg]
    exact lin.add (lin.add (lin.add (term 0) (term 1)) (term 2)) (term 3)
  simp only [outValue, mlpStep, h'.sameCfg, h'.sameCoeff]
  exact lin.add (h'.mlp ch) (lin.mul (lin.sub mix (h'.mlp ch)) (gains.coeff .mlpf))

include lin gains in
/-- Related states and inputs give related states and outputs (45_tank.md R141). -/
theorem sample_related {x y : Sample × Sample} (h : Related R cfg c s t) (hl : R x.1 y.1) (hr : R x.2 y.2) :
    Related R cfg c (sample s x).1 (sample t y).1 ∧ R (sample s x).2.1 (sample t y).2.1 ∧
      R (sample s x).2.2 (sample t y).2.2 := by
  have ring := afterRing_related lin gains h hl hr
  have out (ch : Chan) := outValue_related lin gains h ring ch
  rw [sample_eq, sample_eq]
  refine ⟨ring.setMlp fun ch => ?_, out .L, out .R⟩
  cases ch with
  | L => exact out .L
  | R => exact out .R

include lin gains in
/-- Over a block of inputs each related to itself, the two runs stay related and so do their outputs. -/
theorem runBlock_related {xs : List (Sample × Sample)} (hx : ∀ x ∈ xs, R x.1 x.1 ∧ R x.2 x.2)
    (h : Related R cfg c s t) :
    List.Forall₂ (fun o p => R o.1 p.1 ∧ R o.2 p.2) (runBlock s xs).2 (runBlock t xs).2 := by
  induction xs generalizing s t with
  | nil => exact .nil
  | cons x xs ih =>
    obtain ⟨⟨hl, hr⟩, hxs⟩ := List.forall_mem_cons.mp hx
    obtain ⟨next, out⟩ := sample_related lin gains h hl hr
    rw [runBlock_cons, runBlock_cons]
    exact .cons out (ih hxs next)

end Related

/-! ### Equal words: the cursors are not seen -/

/-- Equality is kept by any arithmetic, whatever the gains. -/
theorem linear_eq (n : NumKind) : Linear n Eq (fun _ => True) :=
  ⟨fun h g => by rw [h, g], fun h g => by rw [h, g], fun h _ => by rw [h], fun h _ => by rw [h]⟩

/-- Cleared states that differ in the cursors hold equal words at every distance from them. -/
theorem related_of_cursors {s t : State} (hs : s.cursorsOk = true) (ht : t.cursorsOk = true)
    (cleared : ∀ m, (s.line m).mem = [] ∧ (t.line m).mem = [])
    (same : t = { s with inap := t.inap, lap := t.lap, ldl := t.ldl }) : Related Eq s.cfg s.coeff s t := by
  have cfg : t.cfg = s.cfg := by rw [same]
  have line (m : Ram) : DelayLine.Related Eq (ramCap s.cfg m) (s.line m) (t.line m) :=
    DelayLine.related_cleared rfl (cursorsOk_iff.mp hs m) (cfg ▸ cursorsOk_iff.mp ht m) (cleared m).1 (cleared m).2
  refine ⟨⟨rfl, cfg⟩, ⟨rfl, ?_⟩, ?_, ?_, line, fun _ => ?_, fun _ => ?_, ?_, fun _ => ?_⟩ <;> rw [same]

/-- Settles O53: with equality for the relation, the outputs are equal. -/
theorem cleanupHidesTheCursors : Obligations.CleanupHidesTheCursors := by
  intro s t xs hs ht cleared same
  have gains : Gains s.cfg s.coeff (fun _ => True) :=
    ⟨fun _ => trivial, trivial, fun _ _ => trivial, fun _ _ => trivial, fun _ _ => trivial⟩
  have outs := runBlock_related (linear_eq _) gains (xs := xs) (fun _ _ => ⟨rfl, rfl⟩)
    (related_of_cursors hs ht cleared same)
  exact List.forall₂_eq_eq_eq ▸ outs.imp fun _ _ h => Prod.ext h.1 h.2

/-! ### Zeros: silence stays silence -/

/-- A legal coefficient is finite. -/
theorem finite_of_legal {c : Config} (hc : c.wf = true) {r : Reg} {x : Sample} (h : c.inRange r x = true) :
    x.isFinite = true := by
  cases r
  case kin => exact (allpassCoeff_between hc (.inl rfl) h).1
  case klp => exact (allpassCoeff_between hc (.inr rfl) h).1
  all_goals exact (finite_of_inRange h rfl rfl).1

/-- The arithmetic keeps zeros, as long as the gains are finite. -/
theorem linear_zeros (n : NumKind) : Linear n (fun a _ => a.isZero = true) (fun k => k.isFinite = true) :=
  ⟨fadd_isZero, fsub_isZero, fmul_isZero, fun h hk => fmul_isZero_right hk h⟩

/-- Two legal scaling coefficients are at most 1, and so is their product. -/
theorem scale_finite {s : State} (hn : s.cfg.num.named = true) (h : Legal s) :
    (fmul s.cfg.num s.coeff.rvtime s.coeff.rvscale).isFinite = true := by
  obtain ⟨time_finite, time_low, time_high⟩ := finite_of_inRange (h.coeff .rvtime) rfl rfl
  obtain ⟨gain_finite, gain_low, gain_high⟩ := finite_of_inRange (h.coeff .rvscale) rfl rfl
  exact fmul_named_finite hn time_finite gain_finite ⟨time_low, time_high⟩ ⟨gain_low, gain_high⟩

/-- The tap weights of a well-formed configuration are finite (00_scope.md R5). -/
theorem tapW_finite {c : Config} (h : c.wf = true) (ch : Chan) (j : Fin 4) :
    (ofConst c.num ((c.tapW.get ch).get j)).isFinite = true := by
  simp only [Config.wf, Config.weightsOk, Bool.and_eq_true, Quad.every_iff] at h
  obtain ⟨⟨⟨⟨⟨⟨-, left, right⟩, -⟩, -⟩, -⟩, -⟩, -⟩ := h
  cases ch with
  | L => exact left j
  | R => exact right j

/-- Every gain of a state with the invariant is finite, in both named instantiations, and in another `NUM`
where the product of the scaling coefficients and the two weights of a tap are. -/
theorem gains_finite {s : State} (hs : Sound s)
    (h : s.cfg.num.named = true ∨
      (fmul s.cfg.num s.coeff.rvtime s.coeff.rvscale).isFinite = true ∧
      ∀ w < 2 ^ s.cfg.modFracBits, (ofFrac s.cfg.num w s.cfg.modFracBits).isFinite = true ∧
        (fsub s.cfg.num .one (ofFrac s.cfg.num w s.cfg.modFracBits)).isFinite = true) :
    Gains s.cfg s.coeff (fun k => k.isFinite = true) := by
  have coeff (r : Reg) := finite_of_legal hs.wf (hs.legal.coeff r)
  rcases h with named | ⟨scale, weights⟩
  · exact ⟨coeff, scale_finite named hs.legal, fun w _ => by rw [ofFrac_named named]; rfl,
      fun w hw => fsub_one_ofFrac_finite named hw, tapW_finite hs.wf⟩
  · exact ⟨coeff, scale, fun w hw => (weights w hw).1, fun w hw => (weights w hw).2, tapW_finite hs.wf⟩

/-- A cleared state holds zeros only. -/
theorem related_of_silent {s : State} (hc : s.cursorsOk = true) (silent : s.silent = true) :
    Related (fun a _ => a.isZero = true) s.cfg s.coeff s s := by
  obtain ⟨mem, lpf, hpf, out, mlp⟩ := silent_iff.mp silent
  refine ⟨⟨rfl, rfl⟩, ⟨rfl, rfl⟩, rfl, rfl, fun m => ?_, fun i => ?_, fun i => ?_, ?_, fun c => ?_⟩
  · have cursor := cursorsOk_iff.mp hc m
    exact DelayLine.related_cleared rfl cursor cursor (mem m) (mem m)
  · rw [lpf, Quad.get_all]; rfl
  · rw [hpf, Quad.get_all]; rfl
  · rw [out]; rfl
  · rw [mlp]; cases c <;> rfl

/-- Settles O54: being a zero is kept by the datapath, whose gains are finite. -/
theorem silenceInGivesSilenceOutAfterCleanup : Obligations.SilenceInGivesSilenceOutAfterCleanup := by
  intro s n sound silent finite
  have hs := sound_iff.mp sound
  have silence : ∀ x ∈ List.replicate n (Sample.zero, Sample.zero), x.1.isZero = true ∧ x.2.isZero = true := by
    intro x hx
    rw [List.eq_of_mem_replicate hx]
    exact ⟨rfl, rfl⟩
  exact List.forall₂_same.mp
    (runBlock_related (linear_zeros _) (gains_finite hs finite) silence (related_of_silent hs.datapath.cursors silent))

end Machine

end Sys2Proof
end

section
/-! The commands of the control port, one after the other (46_control.md): what each answers, and the freeze that gives the
coefficients back whatever cycles run inside it. -/

namespace Sys2Proof.Machine

/-! ### What the commands leave alone -/

/-- Settles O7: NOP answers its own state, and a word that matches no row does not decode, so it is only taken. -/
theorem nopAndReservedWordsChangeNothing : Obligations.NopAndReservedWordsChangeNothing := by
  refine ⟨fun s => rfl, fun s cw rest hwf hi hres => ?_⟩
  obtain ⟨e, he⟩ := decodeCommand_reserved hres
  have served : nextRequest s.hold s.inbox = some (.command cw, rest) := by rw [hi, nextRequest_command]
  exact step_ignored hwf served (fetched_reserved he)

/-- Settles O21: the datapath part of what a command keeps. -/
theorem commandsLeaveTheDatapath : Obligations.CommandsLeaveTheDatapath := by
  intro i s t hr hc h
  obtain ⟨-, inap, lap, ldl, lpfSt, hpfSt, loopOut, mlp, lfoAcc, cleanupDone⟩ := exec_sameDatapath hr hc h
  exact ⟨inap, lap, ldl, lpfSt, hpfSt, loopOut, mlp, lfoAcc, cleanupDone⟩

/-- Settles O25: each writes its own increment and is done. -/
theorem lfoIncrementWrites : Obligations.LfoIncrementWrites := fun _ _ => ⟨rfl, rfl⟩

/-! ### LOCK and UNLOCK (R163, R164) -/

/-- Writing the hold it already has leaves a state as it is. -/
theorem setHold_self {s : State} {b : Bool} (h : s.hold = b) : { s with hold := b } = s := by
  rw [← h]

/-- LOCK does not count: one UNLOCK undoes them all. -/
theorem execAll_locks_unlock (n : Nat) (s : State) :
    execAll (List.replicate n .lock ++ [.unlock]) s = .next { s with hold := false } := by
  induction n generalizing s with
  | zero => rfl
  | succ n ih =>
    calc execAll (List.replicate (n + 1) .lock ++ [.unlock]) s
        = execAll (List.replicate n .lock ++ [.unlock]) { s with hold := true } := rfl
      _ = .next { s with hold := false } := ih _

/-- Settles O14: both write `HOLD` alone; while it is set a cycle waits, and once it is clear the head of the list is
served. -/
theorem lockAndUnlockWriteOnlyHold : Obligations.LockAndUnlockWriteOnlyHold := by
  intro s
  refine ⟨rfl, rfl, fun hh => ?_, fun hh => ?_, fun n => execAll_locks_unlock n s, ?_, ?_⟩
  · exact congrArg Host.Outcome.next (setHold_self hh)
  · exact congrArg Host.Outcome.next (setHold_self hh)
  · intro t ht ok rp lp
    cases ht
    exact heldCycleWaits ok rp lp _ rfl
  · intro t cd l r rest ht hi
    cases ht
    rw [hi]
    exact nextRequest_free _ _

/-! ### BYPASS (R165) -/

section Bypass
variable {s : State}

theorem execBypass_of_bypassed (hb : s.bypass = true) : execBypass true s = .next s := by
  simp [execBypass, hb]

theorem execBypass_of_active (hb : s.bypass = false) (hf : s.freeze = false) :
    execBypass true s = .next { s with bypass := true } := by
  simp [execBypass, hb, hf]

theorem execBypass_of_frozen (hb : s.bypass = false) (hf : s.freeze = true) :
    execBypass true s = .next { freezeExit s with bypass := true } := by
  simp [execBypass, hb, hf]

end Bypass

/-- Settles O15, by the mode BYPASS finds. -/
theorem bypassCommand : Obligations.BypassCommand :=
  fun _ => ⟨rfl, execBypass_of_bypassed, execBypass_of_active, execBypass_of_frozen⟩

/-! ### FREEZE and FRZTGL (R166, R167) -/

section Freeze
variable {s : State}

theorem freezeTo_of_active (hf : s.freeze = false) (hb : s.bypass = false) : freezeTo true s = freezeEnter s := by
  simp [freezeTo, hf, hb]

theorem freezeTo_true_ignored (h : s.freeze = true ∨ s.bypass = true) : freezeTo true s = s := by
  rcases h with h | h <;> simp [freezeTo, h]

theorem freezeTo_of_frozen (hf : s.freeze = true) : freezeTo false s = freezeExit s := by
  simp [freezeTo, hf]

theorem freezeTo_false_ignored (hf : s.freeze = false) : freezeTo false s = s := by
  simp [freezeTo, hf]

end Freeze

theorem exec_freeze (b : Bool) (s : State) : exec (.freeze b) s = .next (freezeTo b s) := rfl

/-- Settles O16, by the flags FREEZE finds. -/
theorem freezeCommand : Obligations.FreezeCommand := by
  refine fun s => ⟨fun hf hb => ?_, fun h => ?_, fun hf => ?_, fun hf => ?_⟩ <;> rw [exec_freeze]
  · rw [freezeTo_of_active hf hb]; rfl
  · rw [freezeTo_true_ignored h]
  · rw [freezeTo_of_frozen hf]; rfl
  · rw [freezeTo_false_ignored hf]

/-- Settles O17: the two share `freezeTo`, whose flag `freezeTo_freeze` gives. -/
theorem frztglIsFreezeOfTheOtherValue : Obligations.FrztglIsFreezeOfTheOtherValue := by
  refine fun s => ⟨rfl, _, rfl, ?_⟩
  rw [freezeTo_freeze]
  cases s.freeze <;> rfl

/-! ### From entering freeze to leaving it (R169) -/

/-- What holds of every instruction of a list, as something it keeps, a run of the list keeps. -/
theorem execAll_preserves {P : State → Prop} {is : List Instr}
    (keep : ∀ i ∈ is, ∀ s t, P s → exec i s = .next t → P t) {s t : State} (hs : P s) (h : execAll is s = .next t) :
    P t := by
  induction is generalizing s with
  | nil => cases h; exact hs
  | cons i is ih =>
    rw [execAll] at h
    split at h
    · next u hu =>
      have hP : P u := keep i List.mem_cons_self s u hs hu
      exact ih (fun j hj => keep j (List.mem_cons_of_mem i hj)) hP h
    · next stopped => exact absurd h (stopped t)

/-- `v` is frozen, with the coefficients and the snapshot that `FREEZE_ENTER` gave it in `s`. -/
structure FrozenFrom (s v : State) : Prop where
  freeze : v.freeze = true
  bypass : v.bypass = false
  coeff : v.coeff = (freezeEnter s).coeff
  snap : v.snap = (freezeEnter s).snap

theorem freezeEnter_frozenFrom {s : State} (hb : s.bypass = false) : FrozenFrom s (freezeEnter s) := ⟨rfl, hb, rfl, rfl⟩

/-- Writing none of the registers the freeze is about keeps it. -/
theorem FrozenFrom.of_registers {s v w : State} (h : FrozenFrom s v) (hf : w.freeze = v.freeze) (hb : w.bypass = v.bypass)
    (hc : w.coeff = v.coeff) (hs : w.snap = v.snap) : FrozenFrom s w :=
  ⟨hf.trans h.freeze, hb.trans h.bypass, hc.trans h.coeff, hs.trans h.snap⟩

/-- Leaving freeze gives back every coefficient. -/
theorem FrozenFrom.freezeExit_coeff {s v : State} (h : FrozenFrom s v) : (freezeExit v).coeff = s.coeff := by
  rw [Machine.freezeExit_coeff, h.coeff, h.snap]
  rfl

/-- Settles O19: the cycles and the commands in between keep `FrozenFrom`; FREEZE 1 does because it is ignored. -/
theorem freezeRoundTripsAcrossCycles : Obligations.FreezeRoundTripsAcrossCycles := by
  intro s u v is hb hf his hu hv
  rw [exec_freeze, freezeTo_of_active hf hb] at hu
  cases hu
  have frozen : FrozenFrom s v := by
    refine execAll_preserves (fun i hi p q hp hq => ?_) (freezeEnter_frozenFrom hb) hv
    rcases his i hi with rfl | rfl | rfl | rfl | rfl | ⟨ok, rp, lp, rfl⟩
    iterate 4
      · cases hq
        exact hp.of_registers rfl rfl rfl rfl
    · rw [exec_freeze, freezeTo_true_ignored (.inl hp.freeze)] at hq
      cases hq
      exact hp
    · have same := execCycle_sameRegisters hq
      exact hp.of_registers same.freeze same.bypass same.coeff same.snap
  refine ⟨freezeExit v, ?_, frozen.freezeExit_coeff, mode_eq_some_iff.mpr ⟨frozen.bypass, rfl⟩⟩
  rw [exec_freeze, freezeTo_of_frozen frozen.freeze]

/-! ### Coefficient writes (R170) -/

theorem lo_eq (c : Config) (r : Reg) :
    c.lo r = if r = .kin ∨ r = .klp then ofConst c.num c.kLo else if r = .lodamp then fsub c.num .zero .one else .zero := by
  cases r
  case lodamp => exact (fsub_zero_one c.num).symm
  all_goals rfl

theorem hi_eq (c : Config) (r : Reg) :
    c.hi r = if r = .kin ∨ r = .klp then ofConst c.num c.kHi else if r = .lodamp then .zero else .one := by
  cases r <;> rfl

section Operand
variable {v : BitVec 32}

theorem operandValue_of_nan (c : Config) (r : Reg) (he : v.extractLsb' 23 8 = 0xFF#8) (hm : v.extractLsb' 0 23 ≠ 0#23) :
    operandValue c r v = none := by
  simp [operandValue, classify, he, hm]

theorem operandValue_of_inf (c : Config) (r : Reg) (he : v.extractLsb' 23 8 = 0xFF#8) (hm : v.extractLsb' 0 23 = 0#23) :
    operandValue c r v = some (if v.getLsbD 31 then c.lo r else c.hi r) := by
  rw [operandValue, classify, if_pos he, if_pos hm]
  cases v.getLsbD 31 <;> rfl

theorem operandValue_of_finite (c : Config) (r : Reg) (he : v.extractLsb' 23 8 ≠ 0xFF#8) :
    operandValue c r v = some (clamp (c.lo r) (c.hi r) (ofF32Bits c.num v)) := by
  simp [operandValue, classify, he]

end Operand

section Write
variable {r : Reg} {s : State}

theorem setCoeff_of_none {v : BitVec 32} (h : operandValue s.cfg r v = none) : setCoeff r v s = s := by
  rw [setCoeff, h]

theorem setCoeff_of_some {v : BitVec 32} {c : Sample} (h : operandValue s.cfg r v = some c) :
    setCoeff r v s = writeCoeff r c s := by
  rw [setCoeff, h]

/-- The register is written unless the machine is frozen and the snapshot has it. -/
theorem writeCoeff_register (c : Sample) (h : s.freeze = true → ∀ q : SnapReg, q.reg ≠ r) :
    writeCoeff r c s = { s with coeff := s.coeff.set r c } := by
  unfold writeCoeff
  split
  · next q hf hq => exact absurd (snapOf_eq_some_iff.mp hq) (h hf q)
  · rfl

theorem writeCoeff_snapshot (c : Sample) {q : SnapReg} (hf : s.freeze = true) (hq : q.reg = r) :
    writeCoeff r c s = { s with snap := s.snap.set q c } := by
  rw [writeCoeff, hf, snapOf_eq_some_iff.mpr hq]

end Write

/-- Settles O22: the class of the operand gives the value (`operandValue`), the freeze its destination (`writeCoeff`). -/
theorem coefficientWrite : Obligations.CoefficientWrite := by
  refine ⟨fun c r => ⟨lo_eq c r, hi_eq c r⟩, fun r v s => ⟨fun he hm => ?_, fun c inf fin number => ?_⟩⟩
  · rw [exec_setInstr, setCoeff_of_none (operandValue_of_nan s.cfg r he hm)]
  · have value : operandValue s.cfg r v = some c := by
      by_cases he : v.extractLsb' 23 8 = 0xFF#8
      · have hm : v.extractLsb' 0 23 = 0#23 := by_contra fun hm => number ⟨he, hm⟩
        rw [operandValue_of_inf s.cfg r he hm, inf he hm]
      · rw [operandValue_of_finite s.cfg r he, fin he]
        rfl
    rw [exec_setInstr, setCoeff_of_some value]
    refine ⟨fun hf => ?_, fun _ other => ?_, fun hf q hq => ?_⟩
    · rw [writeCoeff_register c (fun on => absurd (hf.symm.trans on) Bool.false_ne_true)]
    · rw [writeCoeff_register c (fun _ => other)]
    · rw [writeCoeff_snapshot c hf hq]

end Sys2Proof.Machine
end

section
/-! The freedom from faults (60_exceptions.md R190): what a step can answer in a state with the invariant, and so what a run
from reset can. -/

namespace Sys2Proof.Machine

/-! ### What an operation can answer -/

/-- With the cursors below their capacities, a cycle completes or is one that no transaction expresses (R42, R66). -/
theorem execCycle_answers (ok rp lp : Bool) {s : State} (hc : s.cursorsOk = true) :
    (∃ t, execCycle ok rp lp s = .next t) ∨ execCycle ok rp lp s = .refused .malformedBlock := by
  cases hh : s.hold with
  | true => exact .inl ⟨s, heldCycleWaits ok rp lp s hh⟩
  | false =>
    cases hb : s.bypass with
    | true => exact .inl ⟨_, execCycle_bypassed ok rp lp hh hb⟩
    | false =>
      cases ok with
      | false => exact .inl ⟨_, execCycle_dropped rp lp hh hb⟩
      | true =>
        cases hp : s.portOk rp lp with
        | true => exact .inl ⟨_, execCycle_processing hh hb hp hc⟩
        | false => exact .inr ((processingCycleStopsOutsideTheSpec rp lp s hh hb).1 hp)

/-- Only a cycle can fail to complete, and only by its blocks (46_control.md R160). -/
theorem exec_answers (i : Instr) {s : State} (hc : s.cursorsOk = true) :
    (∃ t, exec i s = .next t) ∨ exec i s = .refused .malformedBlock ∧ ∃ ok rp lp, i = .cycle ok rp lp := by
  by_cases cycle : ∃ ok rp lp, i = .cycle ok rp lp
  · obtain ⟨ok, rp, lp, rfl⟩ := cycle
    exact (execCycle_answers ok rp lp hc).imp_right fun refused => ⟨refused, ok, rp, lp, rfl⟩
  · obtain ⟨t, ht, -⟩ := exec_inbox (fun ok rp lp e => cycle ⟨ok, rp, lp, e⟩) s
    exact .inl ⟨t, ht⟩

/-- CYCLE comes from the audio port alone: no command word decodes to it. -/
theorem exists_cycle_of_fetched {q : Request} {ok rp lp : Bool} (h : fetched q = .run (.cycle ok rp lp)) :
    ∃ cd l r, q = .cycle cd l r := by
  cases q with
  | cycle cd l r => exact ⟨cd, l, r, rfl⟩
  | resetInput => cases h
  | command cw =>
    cases hd : decodeCommand cw with
    | ok i =>
      obtain rfl := Fetched.run.inj ((fetched_command hd).symm.trans h)
      exact absurd rfl (decodeCommand_ne_cycle hd ok rp lp)
    | error e => cases (fetched_reserved hd).symm.trans h

/-! ### What a step can answer -/

theorem mem_of_nextRequest {hold : Bool} {q : Request} {qs rest : List Request}
    (h : nextRequest hold qs = some (q, rest)) : q ∈ qs := by
  obtain ⟨pre, post, rfl, -⟩ := nextRequest_some h
  exact List.mem_append_right pre List.mem_cons_self

/-- A step of a sound state is made, or declines a waiting cycle for its blocks. -/
theorem step_answers {s : State} (h : Sound s) :
    (∃ t, step s = .next t) ∨ step s = .refused .malformedBlock ∧ ∃ cd l r, Request.cycle cd l r ∈ s.inbox := by
  cases hn : nextRequest s.hold s.inbox with
  | none => exact .inl ⟨s, step_idle h.wf hn⟩
  | some served =>
    obtain ⟨q, rest⟩ := served
    cases hf : fetched q with
    | reset => exact .inl ⟨_, step_reset h.wf hn hf⟩
    | ignored => exact .inl ⟨_, step_ignored h.wf hn hf⟩
    | run i =>
      rw [step_run h.wf hn hf]
      have cursors : (s.accept q rest).cursorsOk = true := (accept_sound h q rest).datapath.cursors
      refine (exec_answers i cursors).imp_right fun ⟨refused, ok, rp, lp, hi⟩ => ⟨refused, ?_⟩
      obtain ⟨cd, l, r, rfl⟩ := exists_cycle_of_fetched (hf.trans (congrArg Fetched.run hi))
      exact ⟨cd, l, r, mem_of_nextRequest hn⟩

/-- Settles O59, by the two answers of a step. -/
theorem soundStatesNeverFault : Obligations.SoundStatesNeverFault := by
  intro s hs
  rcases step_answers (sound_iff.mp hs) with ⟨t, hnext⟩ | ⟨refused, waiting⟩
  · rw [hnext]
    exact ⟨nofun, nofun⟩
  · rw [refused]
    refine ⟨nofun, fun r hr => ?_⟩
    cases hr
    exact ⟨rfl, waiting⟩

/-! ### What a run can answer -/

theorem run_succ_refused {s : State} {r : Refusal} (n : Nat) (h : step s = .refused r) :
    Host.Core.run Sys2Proof.core (n + 1) s = .refused r := by
  have first : Sys2Proof.core.step s = .refused r := h
  simp only [Host.Core.run, first]

/-- A run from a sound state ends in a sound state, or stops at a cycle that no transaction expresses. -/
theorem run_answers (n : Nat) : ∀ {s : State}, Sound s →
    (∃ t, Host.Core.run Sys2Proof.core n s = .next t ∧ Sound t) ∨
      Host.Core.run Sys2Proof.core n s = .refused Refusal.malformedBlock := by
  induction n with
  | zero => exact fun {s} h => .inl ⟨s, rfl, h⟩
  | succ n ih =>
    intro s h
    rcases step_answers h with ⟨t, hnext⟩ | ⟨refused, -⟩
    · rw [run_succ n hnext]
      exact ih (sound_iff.mp (stepKeepsSoundness s t (sound_iff.mpr h) hnext))
    · exact .inr (run_succ_refused n refused)

/-- What the host will offer is no part of the invariant. -/
theorem Sound.setInbox {s : State} (h : Sound s) (qs : List Request) : Sound { s with inbox := qs } :=
  ⟨h.wf, h.legal.of_registers rfl rfl rfl rfl, h.mode, h.datapath.of_same (.setControl s ..)⟩

/-- Settles O60: reset is sound whatever the host offers, and a run keeps it so. -/
theorem runsFromResetAreSafeAndSound : Obligations.RunsFromResetAreSafeAndSound := by
  intro c qs n hc
  rw [safeRun]
  rcases run_answers n ((resetOf_sound hc).setInbox qs) with ⟨t, hnext, sound⟩ | refused
  · rw [hnext]
    refine ⟨nofun, fun u hu => ?_⟩
    cases hu
    exact sound_iff.mpr sound
  · rw [refused]
    refine ⟨nofun, fun u hu => ?_⟩
    cases hu

end Sys2Proof.Machine
end
